-- ==== Sys2Proof/Word.lean ====
section
/-! DEFINITION. The three word widths of AWS-CORE (00_scope.md R6, R8). -/

namespace Sys2Proof

/-- A byte on the wire, in BUF, TXF or RXF. -/
abbrev Byte := BitVec 8

/-- A 16-bit value: a checksum, a register address, a per-call deadline. -/
abbrev Half := BitVec 16

/-- A host register word, a command word or a time in milliseconds. -/
abbrev Word := BitVec 32

end Sys2Proof
end

