-- ==== Sys2Proof/Machine/Bytes.lean ====
section
/-! DEFINITION. The byte-order helpers of 00_scope.md R8. -/

namespace Sys2Proof.Machine

/-- `v[7:0]` of a 16-bit value. -/
def lowByte (v : Half) : Byte := v.extractLsb' 0 8

/-- `v[15:8]` of a 16-bit value. -/
def highByte (v : Half) : Byte := v.extractLsb' 8 8

/-- `u16(hi, lo) = {hi, lo}` (R8). -/
def u16 (hi lo : Byte) : Half := hi ++ lo

/-- `swap16(v) = {v[7:0], v[15:8]}` (R8). -/
def swap16 (v : Half) : Half := u16 (lowByte v) (highByte v)

end Sys2Proof.Machine
end

