-- ==== Sys2Proof/Machine/Crc.lean ====
section
/-! DEFINITION. The checksum function of 40_checksum.md R58 and R59. -/

namespace Sys2Proof.Machine

/-- One turn of R58's inner loop: "if c[0] == 1: c <- (c >> 1) XOR 0xA001 else: c <- c >> 1". -/
def crcBit (c : Half) : Half := if c.getLsbD 0 then (c >>> 1) ^^^ 0xA001#16 else c >>> 1

/-- The bits of one byte: "c <- c XOR zext_16(b); repeat 8 times" (R58). -/
def crcByte (c : Half) (b : Byte) : Half := Nat.repeat crcBit 8 (c ^^^ b.setWidth 16)

/-- `crc16(seq)`, the raw CRC: init 0xFFFF, byte 0 first, no final XOR (R58). -/
def crc16 (bytes : List Byte) : Half := bytes.foldl crcByte 0xFFFF#16

/-- The source's `checksum(bytes)`: the swapped CRC (R59). -/
def checksum (bytes : List Byte) : Half := swap16 (crc16 bytes)

end Sys2Proof.Machine
end

