-- ==== Sys2Proof/Syntax.lean ====
section
/-! DEFINITION. The nine commands of 30_encoding.md R45, one constructor per row of the opcode table, with the operands
of R44. -/

namespace Sys2Proof

/-- A command of AWS-CORE. -/
inductive Instr where
  /-- R62: checksum of the first `n` bytes of BUF. -/
  | crc (n : Byte)
  /-- R63: append the checksum trailer to the first `n` bytes of BUF. -/
  | crca (n : Byte)
  /-- R64: verify the trailer after the first `n` bytes of BUF. -/
  | crcv (n : Byte)
  /-- R67: build a query frame without sending it. -/
  | frq (addr : Byte) (reg : Half)
  /-- R68: build an address-change frame without sending it. -/
  | fra (old new : Byte)
  /-- R74: one TimedReader call of `n` bytes into BUF, with deadline `dl` ms. -/
  | rdn (n : Byte) (dl : Half)
  /-- R76: wind-speed transaction. -/
  | qrys (addr : Byte) (reg : Half)
  /-- R77: wind-direction transaction. -/
  | qryd (addr : Byte) (reg : Half)
  /-- R92: address-assign transaction. -/
  | seta (old new : Byte)
deriving DecidableEq, Repr, Inhabited

end Sys2Proof
end

