-- ==== Sys2Proof/WellFormed.lean ====
section
/-! DEFINITION. The operand ranges of 30_encoding.md R44 and R47, for a buffer of `bufSize` bytes. -/

namespace Sys2Proof

/-- Every operand of the command lies in the range R44 gives it. A command that fails this is refused with ErrOperand
(R47). -/
def Instr.wellFormed (bufSize : Nat) : Instr → Bool
  | .crc n => n.toNat ≤ bufSize
  | .crca n => n.toNat + 2 ≤ bufSize
  | .crcv n => n.toNat + 2 ≤ bufSize
  | .frq addr _ => addr != 0x00#8
  | .fra _ new => new != 0x00#8
  | .rdn n _ => n.toNat ≤ bufSize
  | .qrys addr _ => addr != 0x00#8
  | .qryd addr _ => addr != 0x00#8
  | .seta _ new => new != 0x00#8

end Sys2Proof
end

