-- ==== Sys2Proof/Decode.lean ====
section
/-! DEFINITION. The command word of 30_encoding.md R43: its fields, the decoder of R45 and R46, and the encoder of R56. -/

namespace Sys2Proof

/-- Bits 31:28, OP (R43). -/
def opField (w : Word) : BitVec 4 := w.extractLsb' 28 4

/-- Bits 27:24, RSV (R43). -/
def rsvField (w : Word) : BitVec 4 := w.extractLsb' 24 4

/-- Bits 23:16, A (R43). -/
def aField (w : Word) : Byte := w.extractLsb' 16 8

/-- Bits 15:0, IMM (R43). -/
def immField (w : Word) : Half := w.extractLsb' 0 16

/-- The reasons R46 gives for a word to be illegal. -/
inductive DecodeError where
  /-- RSV is not 0. -/
  | reservedField
  /-- OP is 0x0, 0x7 or 0xB to 0xF. -/
  | unassignedOpcode
  /-- CRC, CRCA or CRCV with IMM not 0. -/
  | unusedImmediate
  /-- FRA or SETA with IMM[15:8] not 0. -/
  | immediateHighByte
deriving DecidableEq, Repr

/-- A command that uses no immediate: IMM must be 0 (R44, R46). -/
def decodeNoImm (imm : Half) (i : Instr) : Except DecodeError Instr :=
  if imm = 0x0000#16 then .ok i else .error .unusedImmediate

/-- A command whose immediate is `{0x00, new address}` (R44, R46). -/
def decodeNewAddr (imm : Half) (mk : Byte → Instr) : Except DecodeError Instr :=
  if imm.extractLsb' 8 8 = 0x00#8 then .ok (mk (imm.extractLsb' 0 8)) else .error .immediateHighByte

/-- The opcode map of R45, on the fields of a word whose RSV is 0. -/
def decodeOp (op : BitVec 4) (a : Byte) (imm : Half) : Except DecodeError Instr :=
  match op with
  | 0x1#4 => decodeNoImm imm (.crc a)
  | 0x2#4 => decodeNoImm imm (.crca a)
  | 0x3#4 => decodeNoImm imm (.crcv a)
  | 0x4#4 => .ok (.frq a imm)
  | 0x5#4 => decodeNewAddr imm (.fra a)
  | 0x6#4 => .ok (.rdn a imm)
  | 0x8#4 => .ok (.qrys a imm)
  | 0x9#4 => .ok (.qryd a imm)
  | 0xA#4 => decodeNewAddr imm (.seta a)
  | _ => .error .unassignedOpcode

/-- The command a word stands for, or the reason it is illegal (R45, R46). Total on every word. -/
def decode (w : Word) : Except DecodeError Instr :=
  if rsvField w = 0x0#4 then decodeOp (opField w) (aField w) (immField w) else .error .reservedField

/-- A word from its fields, RSV = 0 (R43, R56): `op<<28 | a<<16 | imm`. -/
def encodeFields (op : BitVec 4) (a : Byte) (imm : Half) : Word :=
  (op.setWidth 32 <<< 28) ||| (a.setWidth 32 <<< 16) ||| imm.setWidth 32

/-- The word of a command (R45, R56). -/
def encode : Instr → Word
  | .crc n => encodeFields 0x1#4 n 0x0000#16
  | .crca n => encodeFields 0x2#4 n 0x0000#16
  | .crcv n => encodeFields 0x3#4 n 0x0000#16
  | .frq addr reg => encodeFields 0x4#4 addr reg
  | .fra old new => encodeFields 0x5#4 old (new.setWidth 16)
  | .rdn n dl => encodeFields 0x6#4 n dl
  | .qrys addr reg => encodeFields 0x8#4 addr reg
  | .qryd addr reg => encodeFields 0x9#4 addr reg
  | .seta old new => encodeFields 0xA#4 old (new.setWidth 16)

/-- The 32-bit command word whose low `nbits` bits are those of `w` and whose other bits are 0. -/
def commandWord (nbits w : Nat) : Word := BitVec.ofNat 32 (w % 2 ^ nbits)

/-- The command the decoder reads from the bits of an opcode-table row. -/
def decodeTableWord (nbits w : Nat) : Option Instr := (decode (commandWord nbits w)).toOption

end Sys2Proof
end

