-- ==== Sys2Proof/Config.lean ====
section
/-! DEFINITION. What the spec leaves to an implementation or to the outside world: the parameters of 00_scope.md R6, the
steps of the four agents and RESET (10_state.md R11), and the free values. -/

namespace Sys2Proof

/-- The parameters of 00_scope.md R6, each at the default R6 fixes for the hardware. -/
structure Params where
  /-- `READ_MS`: per-call deadline of a reader call inside a transaction. -/
  readMs : Half := 100#16
  /-- `RESEND_MS`: resend interval. -/
  resendMs : Word := 100#32
  /-- `OUTER_MS`: outer deadline. -/
  outerMs : Word := 1000#32
  /-- `SPEED_SENTINEL`: -5 in two's complement. -/
  speedSentinel : Word := 0xFFFFFFFB#32
  /-- `DIR_SENTINEL`. -/
  dirSentinel : Word := 0x00000012#32
  /-- `BUF_SIZE`, 11 to 64 (R7). -/
  bufSize : Nat := 16
  /-- `RX_DEPTH`, at least 1. -/
  rxDepth : Nat := 64
  /-- `COMPAT_SILENT_SUCCESS` (44_address_assigner.md R95). -/
  compatSilentSuccess : Bool := false
deriving DecidableEq, Repr

/-- The ranges R6 and R7 allow. -/
def Params.legal (c : Params) : Bool := 11 ≤ c.bufSize && c.bufSize ≤ 64 && 1 ≤ c.rxDepth

/-- One step of one agent (10_state.md R11), or the reset step (70_reset_and_hazards.md R112). -/
inductive Event where
  /-- HOST writes word `w` to register index `i` (R25). -/
  | hostWrite (i : Byte) (w : Word)
  /-- HOST reads register index `i` (R26). -/
  | hostRead (i : Byte)
  /-- ENGINE step (30_encoding.md R50). -/
  | engine
  /-- LINK delivers byte `b` to the RX FIFO (20_memory.md R36). -/
  | linkByte (b : Byte)
  /-- LINK takes the oldest frame of the transmit stream (R38). -/
  | linkTake
  /-- CLOCK tick (R16). -/
  | tick
  /-- RESET is asserted (R112). -/
  | reset
deriving DecidableEq, Repr, Inhabited

/-- The value of `now` at power-up: "any 32-bit value: a model takes it as a draw" (R16). A free value, log 3. -/
opaque Config.powerUpNow : Word

/-- The `n`-th step the agents take once no decided step is left: "Any interleaving is allowed" (R39). A free value,
log 2. -/
opaque Config.agentChoice : Nat → Event

end Sys2Proof
end

