-- ==== Sys2Proof/Machine/State.lean ====
section
/-! DEFINITION. The state of AWS-CORE (10_state.md R15, R16; 20_memory.md R38), its faults and refusals, and its reset. -/

namespace Sys2Proof.Machine

/-- The FSM states of 10_state.md R13. "No other code is ever written to `state`"; the codes are `FsmState.code`. -/
inductive FsmState where
  | idle
  | sent
  | ah1
  | ah2
  | ah3
  | apay
  | verify
  | success
  | timeout
  | reading
  | ack (k : Fin 6)
  | pwrcyc
deriving DecidableEq, Repr

/-- One frame of the transmit stream, with the `now` of the step that sent it (20_memory.md R38). -/
structure TxFrame where
  time : Word
  bytes : List Byte
deriving DecidableEq, Repr

/-- The reasons a step can stop. AWS-CORE itself has no trap (60_exceptions.md R99, R103): these arise only in states no
run reaches. -/
inductive Fault where
  /-- A poll of RDN would store a byte at or above BUF_SIZE, which does not exist (20_memory.md R30). Raised by
  `storeByte`, only where RD_N is above BUF_SIZE. Safe. -/
  | bufRange
  /-- A poll in APAY would store a byte above RXF[6], which does not exist (42_timed_reader.md R70). Raised by
  `storeByte`, only where RD_N is above 4. Safe. -/
  | rxfRange
deriving DecidableEq, Repr

/-- The reasons a command has no meaning. No arm of `exec` uses one. -/
inductive Refusal where
  /-- The instruction has no meaning in the model. Raised by `exec` alone. Safe. -/
  | notModelled (mnemonic : String)
deriving DecidableEq, Repr

/-- The whole state. The fields to `tx` are the spec's; `cfg`, `agenda`, `turn` and `hostData` are the model's own
(log 1, 2, 4, 5). -/
structure State where
  /-- `CMD`: the last accepted command word (R21). -/
  cmd : Word
  /-- `state`: the engine's FSM state (R13). -/
  fsm : FsmState
  /-- `DONE`: the last accepted command has completed. -/
  done : Bool
  /-- `OK`: the last completed command succeeded. -/
  ok : Bool
  /-- `TMO`: the last transaction ended at the outer deadline. -/
  tmo : Bool
  /-- `PWR`: the power-cycle prompt. -/
  pwr : Bool
  /-- `SHORT`: the last RDN returned fewer bytes than asked. -/
  short : Bool
  /-- `ERR_BUSY`, sticky. -/
  errBusy : Bool
  /-- `ERR_ILLEGAL`, sticky. -/
  errIllegal : Bool
  /-- `ERR_OPERAND`, sticky. -/
  errOperand : Bool
  /-- `RXOVF`, sticky. -/
  rxovf : Bool
  /-- `RESULT` (R22). -/
  result : Word
  /-- `CRC_RAW` (40_checksum.md R60). -/
  crcRaw : Half
  /-- `CRC_OUT` (R60). -/
  crcOut : Half
  /-- `COUNT`: bytes read by the last RDN. -/
  count : Byte
  /-- `RESENDS`. -/
  resends : Half
  /-- `T_START`. -/
  tStart : Word
  /-- `T_LAST`. -/
  tLast : Word
  /-- `RD_ACTIVE`. -/
  rdActive : Bool
  /-- `RD_START`. -/
  rdStart : Word
  /-- `RD_N`. -/
  rdN : Byte
  /-- `RD_COUNT`. -/
  rdCount : Byte
  /-- `RD_DL`. -/
  rdDl : Half
  /-- `CH`. -/
  ch : Byte
  /-- `TXF[0..10]`. -/
  txf : Vector Byte 11
  /-- `TXLEN`. -/
  txlen : BitVec 4
  /-- `RXF[0..6]`. -/
  rxf : Vector Byte 7
  /-- `BUF[0..BUF_SIZE-1]`. -/
  buf : Memory
  /-- `RXQ`, oldest first. -/
  rxq : List Byte
  /-- `now`, the CLOCK's 32-bit millisecond count (R16). -/
  now : Word
  /-- The transmit stream: the frames the LINK has not taken, oldest first (20_memory.md R38). -/
  tx : List TxFrame
  /-- The parameters (00_scope.md R6). No step writes them. -/
  cfg : Params
  /-- The agents' steps already decided, oldest first. -/
  agenda : List Event
  /-- How many steps were drawn from `Config.agentChoice`. -/
  turn : Nat
  /-- The word the HOST's last register read returned. -/
  hostData : Word
deriving DecidableEq, Repr

/-- The machine right after power-up and the reset step, at `now = t`: the reset column of 10_state.md R15, nothing sent,
the parameters at their defaults. -/
def State.resetAt (t : Word) : State where
  cmd := 0x00000000#32
  fsm := .idle
  done := false
  ok := false
  tmo := false
  pwr := false
  short := false
  errBusy := false
  errIllegal := false
  errOperand := false
  rxovf := false
  result := 0x00000000#32
  crcRaw := 0x0000#16
  crcOut := 0x0000#16
  count := 0x00#8
  resends := 0x0000#16
  tStart := 0x00000000#32
  tLast := 0x00000000#32
  rdActive := false
  rdStart := 0x00000000#32
  rdN := 0x00#8
  rdCount := 0x00#8
  rdDl := 0x0000#16
  ch := 0x00#8
  txf := #v[0, 0, 0, 0, 0, 0, 0, 0, 0, 0, 0]
  txlen := 0x0#4
  rxf := #v[0, 0, 0, 0, 0, 0, 0]
  buf := []
  rxq := []
  now := t
  tx := []
  cfg := { }
  agenda := []
  turn := 0
  hostData := 0x00000000#32

/-- The machine right after power-up and reset. `now` is the free value of R16 (log 3). -/
def State.reset : State := State.resetAt Config.powerUpNow

end Sys2Proof.Machine
end

