-- ==== Sys2Proof/Machine/Flags.lean ====
section
/-! DEFINITION. The codes of `state`, BUSY, the STATUS and STATE words, and the writing of the flags (10_state.md R13,
R14, R19, R20, R28). -/

namespace Sys2Proof.Machine

/-- The 8-bit code of an FSM state (R13). -/
def FsmState.code : FsmState → Byte
  | .idle => 0x00#8
  | .sent => 0x01#8
  | .ah1 => 0x02#8
  | .ah2 => 0x03#8
  | .ah3 => 0x04#8
  | .apay => 0x05#8
  | .verify => 0x06#8
  | .success => 0x07#8
  | .timeout => 0x08#8
  | .reading => 0x09#8
  | .ack k => 0x10#8 + BitVec.ofNat 8 k.val
  | .pwrcyc => 0x18#8

/-- BUSY as a function of `state` (R14). -/
def FsmState.busy : FsmState → Bool
  | .idle => false
  | .success => false
  | .timeout => false
  | .sent => true
  | .ah1 => true
  | .ah2 => true
  | .ah3 => true
  | .apay => true
  | .verify => true
  | .reading => true
  | .ack _ => true
  | .pwrcyc => true

/-- The set AWAIT of 30_encoding.md R50: AH1, AH2, AH3, APAY, ACK0 to ACK5. -/
def FsmState.await : FsmState → Bool
  | .idle => false
  | .sent => false
  | .ah1 => true
  | .ah2 => true
  | .ah3 => true
  | .apay => true
  | .verify => false
  | .success => false
  | .timeout => false
  | .reading => false
  | .ack _ => true
  | .pwrcyc => false

/-- BUSY (R14). -/
def State.busy (s : State) : Bool := s.fsm.busy

/-- A word with bit `k` equal to `b` and every other bit 0. -/
def bitAt (b : Bool) (k : Nat) : Word := if b then 1#32 <<< k else 0#32

/-- The STATUS word (R19). Bits 7:6 and 31:12 read 0. -/
def statusWord (s : State) : Word :=
  bitAt s.busy 0 ||| bitAt s.done 1 ||| bitAt s.ok 2 ||| bitAt s.tmo 3 ||| bitAt s.pwr 4 ||| bitAt s.short 5
    ||| bitAt s.errBusy 8 ||| bitAt s.errIllegal 9 ||| bitAt s.errOperand 10 ||| bitAt s.rxovf 11

/-- The STATE word (R20): CH, 0, RD_ACTIVE, the opcode of CMD, the code of `state`. Bits 23:13 read 0. -/
def stateWord (s : State) : Word :=
  s.ch ++ 0#11 ++ BitVec.ofBool s.rdActive ++ opField s.cmd ++ s.fsm.code

/-- The flags an accepted command clears: DONE, OK, TMO, SHORT (R28, 30_encoding.md R48). -/
def clearFlags (s : State) : State := { s with done := false, ok := false, tmo := false, short := false }

/-- The end of an immediate command: `OK <- ok; DONE <- 1; state <- IDLE` (30_encoding.md R49). -/
def finishIdle (ok : Bool) (s : State) : State := { s with ok := ok, done := true, fsm := .idle }

end Sys2Proof.Machine
end

