-- ==== Sys2Proof/Machine/Ops.lean ====
section
/-! DEFINITION. The named operations on the state: raising an error (the block's only exception, and its RESET, the only
return from one), BUF, the RX FIFO, the transmit stream, time and the CRC register. -/

namespace Sys2Proof.Machine

/-- The four error conditions of 60_exceptions.md R98. -/
inductive ErrKind where
  | busy
  | illegal
  | operand
  | rxOverflow
deriving DecidableEq, Repr

/-- `raise ErrX()`: set the sticky bit of ErrX, "and make no other change of state in this step" (R98, R99). -/
def raise (e : ErrKind) (s : State) : State :=
  match e with
  | .busy => { s with errBusy := true }
  | .illegal => { s with errIllegal := true }
  | .operand => { s with errOperand := true }
  | .rxOverflow => { s with rxovf := true }

/-- The reset step (70_reset_and_hazards.md R112): every element of R15 to its reset value. `now`, the transmit stream
and the parameters stay, and so do the model's own fields outside the block. There is no other return from an error
(R101). -/
def resetStep (s : State) : State :=
  { State.resetAt s.now with
    tx := s.tx, cfg := s.cfg, agenda := s.agenda, turn := s.turn, hostData := s.hostData }

/-- `MemRead(a, 1)` (20_memory.md R30). -/
def bufByte (s : State) (a : Nat) : Byte := s.buf.read a

/-- `MemWrite(a, 1, v)` (R30). -/
def bufStore (a : Nat) (v : Byte) (s : State) : State := { s with buf := s.buf.write a v }

/-- `BUF[0..n)` (00_scope.md R8). -/
def bufRange (s : State) (n : Nat) : List Byte := (List.range n).map (bufByte s)

/-- `elapsed(t) = (now - t) mod 2^32` (00_scope.md R9). -/
def elapsed (s : State) (t : Word) : Word := s.now - t

/-- The strict deadline test `elapsed(t) > p` (10_state.md R16), unsigned. -/
def passed (s : State) (t p : Word) : Bool := decide (p < elapsed s t)

/-- `CRC_RAW <- c; CRC_OUT <- swap16(c)` (40_checksum.md R60). -/
def setCrc (c : Half) (s : State) : State := { s with crcRaw := c, crcOut := swap16 c }

/-- `TX(TXF[0..TXLEN))`: append the frame in TXF to the transmit stream, with the value of `now` (20_memory.md R38). -/
def transmit (s : State) : State :=
  { s with tx := s.tx ++ [{ time := s.now, bytes := s.txf.toList.take s.txlen.toNat }] }

/-- A LINK step delivers byte `b` (20_memory.md R36). -/
def linkDeliver (b : Byte) (s : State) : State :=
  if s.rxq.length < s.cfg.rxDepth then { s with rxq := s.rxq ++ [b] } else raise .rxOverflow s

/-- A LINK step takes the oldest frame of the transmit stream (10_state.md R11, 20_memory.md R38). -/
def linkTakeFrame (s : State) : State := { s with tx := s.tx.tail }

/-- A CLOCK step: `now <- (now + 1) mod 2^32` (10_state.md R16). -/
def clockTick (s : State) : State := { s with now := s.now + 1#32 }

/-- The clearing of RXF and RESENDS when a transaction is accepted, and `state <- SENT` (43_sensor_transaction.md R76,
44_address_assigner.md R92). -/
def enterSent (s : State) : State :=
  { s with rxf := #v[0, 0, 0, 0, 0, 0, 0], resends := 0x0000#16, fsm := .sent }

end Sys2Proof.Machine
end

