-- ==== Sys2Proof/Machine/Operands.lean ====
section
/-! DEFINITION. The operand checks of 30_encoding.md R47 and the accept of R48. -/

namespace Sys2Proof.Machine

/-- CRC, RDN: "A > BUF_SIZE". -/
def countRefused (s : State) (n : Byte) : Bool := decide (s.cfg.bufSize < n.toNat)

/-- CRCA, CRCV: "A + 2 > BUF_SIZE". -/
def trailerRefused (s : State) (n : Byte) : Bool := decide (s.cfg.bufSize < n.toNat + 2)

/-- FRQ, QRYS, QRYD: "A == 0x00"; FRA, SETA: "IMM[7:0] == 0x00". -/
def addressRefused (a : Byte) : Bool := a == 0x00#8

/-- `CMD <- w; DONE <- 0; OK <- 0; TMO <- 0; SHORT <- 0` for the word of command `i` (R48). -/
def latch (i : Instr) (s : State) : State := { clearFlags s with cmd := encode i }

/-- The accept of a legal command (R48): ErrBusy first, then ErrOperand, else the command is latched and its own part
`body` runs in the same step. -/
def accept (i : Instr) (refused : Bool) (body : State → State) (s : State) : Host.Outcome State Fault Refusal :=
  if s.busy then .next (raise .busy s)
  else if refused then .next (raise .operand s)
  else .next (body (latch i s))

end Sys2Proof.Machine
end

