-- ==== Sys2Proof/Machine/Checksum.lean ====
section
/-! DEFINITION. The checksum family: CRC, CRCA, CRCV (40_checksum.md R62 to R64). -/

namespace Sys2Proof.Machine

/-- `exec_CRC` (R62). -/
def crcBody (n : Byte) (s : State) : State := finishIdle true (setCrc (crc16 (bufRange s n.toNat)) s)

/-- CRC (R62). -/
def execCrc (n : Byte) (s : State) : Host.Outcome State Fault Refusal :=
  accept (.crc n) (countRefused s n) (crcBody n) s

/-- `exec_CRCA` (R63): the raw trailer, low byte first, "WITHOUT the swap applied". -/
def crcaBody (n : Byte) (s : State) : State :=
  let c := crc16 (bufRange s n.toNat)
  finishIdle true (bufStore (n.toNat + 1) (highByte c) (bufStore n.toNat (lowByte c) (setCrc c s)))

/-- CRCA (R63). -/
def execCrca (n : Byte) (s : State) : Host.Outcome State Fault Refusal :=
  accept (.crca n) (trailerRefused s n) (crcaBody n) s

/-- `exec_CRCV` (R64): the swapped CRC against `frame[len]*256 + frame[len+1]`. -/
def crcvBody (n : Byte) (s : State) : State :=
  let c := crc16 (bufRange s n.toNat)
  finishIdle (swap16 c == u16 (bufByte s n.toNat) (bufByte s (n.toNat + 1))) (setCrc c s)

/-- CRCV (R64). -/
def execCrcv (n : Byte) (s : State) : Host.Outcome State Fault Refusal :=
  accept (.crcv n) (trailerRefused s n) (crcvBody n) s

end Sys2Proof.Machine
end

