-- ==== Sys2Proof/Machine/Framer.lean ====
section
/-! DEFINITION. The framer family: the two build functions, FRQ and FRA (41_framer.md R65 to R68). -/

namespace Sys2Proof.Machine

/-- Bytes 0 to 5 of a query frame (30_encoding.md R51). -/
def queryHead (addr : Byte) (reg : Half) : List Byte :=
  [addr, 0x03#8, highByte reg, lowByte reg, 0x00#8, 0x01#8]

/-- Bytes 0 to 8 of an address-change frame (30_encoding.md R53). -/
def addrHead (old new : Byte) : List Byte :=
  [old, 0x10#8, 0x10#8, 0x00#8, 0x00#8, 0x01#8, 0x02#8, 0x00#8, new]

/-- `build_query(addr, reg)` (R65). -/
def buildQuery (addr : Byte) (reg : Half) (s : State) : State :=
  let c := crc16 (queryHead addr reg)
  { setCrc c s with
    txf := #v[addr, 0x03#8, highByte reg, lowByte reg, 0x00#8, 0x01#8, lowByte c, highByte c, 0x00#8, 0x00#8, 0x00#8]
    txlen := 8#4 }

/-- `build_addr(old, new)` (R66). -/
def buildAddr (old new : Byte) (s : State) : State :=
  let c := crc16 (addrHead old new)
  { setCrc c s with
    txf := #v[old, 0x10#8, 0x10#8, 0x00#8, 0x00#8, 0x01#8, 0x02#8, 0x00#8, new, lowByte c, highByte c]
    txlen := 11#4 }

/-- `exec_FRQ` (R67). -/
def frqBody (addr : Byte) (reg : Half) (s : State) : State := finishIdle true (buildQuery addr reg s)

/-- FRQ (R67). -/
def execFrq (addr : Byte) (reg : Half) (s : State) : Host.Outcome State Fault Refusal :=
  accept (.frq addr reg) (addressRefused addr) (frqBody addr reg) s

/-- `exec_FRA` (R68). -/
def fraBody (old new : Byte) (s : State) : State := finishIdle true (buildAddr old new s)

/-- FRA (R68). -/
def execFra (old new : Byte) (s : State) : Host.Outcome State Fault Refusal :=
  accept (.fra old new) (addressRefused new) (fraBody old new) s

end Sys2Proof.Machine
end

