-- ==== Sys2Proof/Machine/TimedReader.lean ====
section
/-! DEFINITION. The TimedReader: the start of a call, the byte a poll takes, RDN and its completion (42_timed_reader.md
R69 to R75). -/

namespace Sys2Proof.Machine

/-- `reader_start(n, dl)` (R69). -/
def readerStart (n : Byte) (dl : Half) (s : State) : State :=
  { s with rdActive := true, rdStart := s.now, rdN := n, rdCount := 0x00#8, rdDl := dl }

/-- `elapsed(RD_START) > RD_DL` (R71). -/
def readerExpired (s : State) : Bool := passed s s.rdStart (s.rdDl.setWidth 32)

/-- Where the `k`-th byte `b` of a call goes, by `state`, k = RD_COUNT (R70): BUF[k] in READING, RXF[3 + k] in APAY, CH in
a 1-byte call. -/
def storeByte (b : Byte) (s : State) : Host.Outcome State Fault Refusal :=
  match s.fsm with
  | .reading =>
    if s.rdCount.toNat < s.cfg.bufSize then .next (bufStore s.rdCount.toNat b s) else .fault .bufRange
  | .apay =>
    if h : 3 + s.rdCount.toNat < 7 then .next { s with rxf := s.rxf.set (3 + s.rdCount.toNat) b } else .fault .rxfRange
  | _ => .next { s with ch := b }

/-- The first half of a poll (R71): "if RD_COUNT < RD_N and not RxEmpty()", the oldest byte of RXQ is taken and counted. -/
def pollTake (s : State) : Host.Outcome State Fault Refusal :=
  match s.rxq with
  | [] => .next s
  | b :: q =>
    if s.rdCount < s.rdN then
      match storeByte b { s with rxq := q } with
      | .next t => .next { t with rdCount := t.rdCount + 1#8 }
      | .fault f => .fault f
      | .refused r => .refused r
    else .next s

/-- RDN's completion (R75). -/
def rdnDone (count : Byte) (s : State) : State :=
  { s with count := count, short := decide (count < s.rdN), ok := count == s.rdN, done := true, fsm := .idle }

/-- `start_RDN` (R74). -/
def rdnBody (n : Byte) (dl : Half) (s : State) : State :=
  if n = 0x00#8 then finishIdle true { s with count := 0x00#8 }
  else { readerStart n dl s with fsm := .reading }

/-- RDN (R74). -/
def execRdn (n : Byte) (dl : Half) (s : State) : Host.Outcome State Fault Refusal :=
  accept (.rdn n dl) (countRefused s n) (rdnBody n dl) s

end Sys2Proof.Machine
end

