-- ==== Sys2Proof/Machine/AddressAssigner.lean ====
section
/-! DEFINITION. The address assigner: SETA, the acknowledgment match and the power-cycle prompt (44_address_assigner.md
R92 to R96). -/

namespace Sys2Proof.Machine

/-- `start_SETA` (R92). -/
def setaBody (old new : Byte) (s : State) : State := enterSent (buildAddr old new s)

/-- SETA (R92). -/
def execSeta (old new : Byte) (s : State) : Host.Outcome State Fault Refusal :=
  accept (.seta old new) (addressRefused new) (setaBody old new) s

/-- The expected acknowledgment byte at position `k` (R93). -/
def ackExpected (cmd : Word) (k : Fin 6) : Byte :=
  match k with
  | 0 => aField cmd
  | 1 => 0x10#8
  | 2 => 0x10#8
  | 3 => 0x00#8
  | 4 => 0x00#8
  | 5 => 0x01#8

/-- `pwrcyc_entry` (R95): the prompt, with success signalled unless COMPAT_SILENT_SUCCESS. -/
def pwrcycEntry (s : State) : State :=
  { s with
    pwr := true
    done := false
    ok := !s.cfg.compatSilentSuccess
    result := if s.cfg.compatSilentSuccess then 0#32 else 1#32
    fsm := .pwrcyc }

/-- `reader_done(count)` in ACK0 to ACK5 (R94). -/
def ackDone (count : Byte) (k : Fin 6) (s : State) : State :=
  if count = 1#8 ∧ s.ch = ackExpected s.cmd k then
    let t := { s with rxf := s.rxf.set k.val s.ch (by omega) }
    if h : k.val + 1 < 6 then { t with fsm := .ack ⟨k.val + 1, h⟩ } else pwrcycEntry t
  else { s with fsm := .ack 0 }

end Sys2Proof.Machine
end

