-- ==== Sys2Proof/Machine/SensorTransaction.lean ====
section
/-! DEFINITION. The sensor transaction: QRYS, QRYD, the SENT step, matching, verify and the success exit
(43_sensor_transaction.md R76 to R90). -/

namespace Sys2Proof.Machine

/-- `start_QRYS`, and `start_QRYD` which is the same (R76, R77). -/
def queryBody (addr : Byte) (reg : Half) (s : State) : State := enterSent (buildQuery addr reg s)

/-- QRYS (R76). -/
def execQrys (addr : Byte) (reg : Half) (s : State) : Host.Outcome State Fault Refusal :=
  accept (.qrys addr reg) (addressRefused addr) (queryBody addr reg) s

/-- QRYD (R77). -/
def execQryd (addr : Byte) (reg : Half) (s : State) : Host.Outcome State Fault Refusal :=
  accept (.qryd addr reg) (addressRefused addr) (queryBody addr reg) s

/-- The SENT step (R78): send, stamp both times, go to the first matching state of the command. -/
def sentStep (s : State) : State :=
  { transmit s with
    tStart := s.now
    tLast := s.now
    fsm := if opField s.cmd = 0xA#4 then .ack 0 else .ah1 }

/-- The decoded value of a reply (R87, R88): the 16-bit speed for QRYS, the low byte for QRYD. -/
def replyValue (s : State) : Word :=
  if opField s.cmd = 0x8#4 then (u16 s.rxf[3] s.rxf[4]).setWidth 32 else s.rxf[4].setWidth 32

/-- `success_exit` (R89). -/
def successExit (s : State) : State :=
  { s with result := replyValue s, ok := true, tmo := false, done := true, fsm := .success }

/-- RXF[0..5), the bytes the reply's checksum covers (R85). -/
def replyHead (s : State) : List Byte := s.rxf.toList.take 5

/-- The VERIFY step (R85); a mismatch goes back to AH1 (R86). -/
def verifyStep (s : State) : State :=
  let c := crc16 (replyHead s)
  let t := setCrc c s
  if swap16 c = u16 t.rxf[5] t.rxf[6] then successExit t else { t with fsm := .ah1 }

/-- `reader_done(count)` in AH1, AH2, AH3 or APAY (R82, R83): the next state on a match, AH1 otherwise. -/
def matchDone (count : Byte) (s : State) : State :=
  match s.fsm with
  | .ah1 =>
    if count = 1#8 ∧ s.ch = aField s.cmd then { s with rxf := s.rxf.set 0 s.ch, fsm := .ah2 } else { s with fsm := .ah1 }
  | .ah2 =>
    if count = 1#8 ∧ s.ch = 0x03#8 then { s with rxf := s.rxf.set 1 s.ch, fsm := .ah3 } else { s with fsm := .ah1 }
  | .ah3 =>
    if count = 1#8 ∧ s.ch = 0x02#8 then { s with rxf := s.rxf.set 2 s.ch, fsm := .apay } else { s with fsm := .ah1 }
  | .apay => if count = 4#8 then { s with fsm := .verify } else { s with fsm := .ah1 }
  | _ => s

end Sys2Proof.Machine
end

