-- ==== Sys2Proof/Machine/Engine.lean ====
section
/-! DEFINITION. The ENGINE step: the loop top, the timeout exits and the poll (30_encoding.md R50, 42_timed_reader.md R71,
43_sensor_transaction.md R79 to R81, R90, 44_address_assigner.md R97). -/

namespace Sys2Proof.Machine

/-- RESULT at a timeout: 0 for SETA (R97), the sentinel of the command for QRYS and QRYD (R90). -/
def timeoutValue (s : State) : Word :=
  if opField s.cmd = 0xA#4 then 0#32
  else if opField s.cmd = 0x8#4 then s.cfg.speedSentinel
  else s.cfg.dirSentinel

/-- `timeout_exit` (R90, R97). -/
def timeoutExit (s : State) : State :=
  { s with result := timeoutValue s, ok := false, tmo := true, done := true, fsm := .timeout }

/-- The resend of a loop top (R79, R81): TXF again, `T_LAST <- now`, one more in RESENDS. -/
def resend (s : State) : State := { transmit s with tLast := s.now, resends := s.resends + 1#16 }

/-- How many bytes the next reader call asks for (R79). -/
def callSize (s : State) : Byte := if s.fsm = .apay then 4#8 else 1#8

/-- The loop top (R79): outer deadline, then resend, then the next reader call. -/
def loopTop (s : State) : State :=
  if passed s s.tStart s.cfg.outerMs then timeoutExit s
  else
    let t := if passed s s.tLast s.cfg.resendMs then resend s else s
    readerStart (callSize t) t.cfg.readMs t

/-- `reader_done(count)`: the completion of the call's owner (R71). -/
def readerDone (count : Byte) (s : State) : State :=
  match s.fsm with
  | .reading => rdnDone count s
  | .ah1 => matchDone count s
  | .ah2 => matchDone count s
  | .ah3 => matchDone count s
  | .apay => matchDone count s
  | .ack k => ackDone count k s
  | .idle => s
  | .sent => s
  | .verify => s
  | .success => s
  | .timeout => s
  | .pwrcyc => s

/-- The second half of a poll (R71): the end of the call. -/
def pollEnd (s : State) : State :=
  if s.rdCount = s.rdN ∨ readerExpired s = true then readerDone s.rdCount { s with rdActive := false } else s

/-- One poll (R71). -/
def poll (s : State) : Host.Outcome State Fault Refusal :=
  match pollTake s with
  | .next t => .next (pollEnd t)
  | .fault f => .fault f
  | .refused r => .refused r

/-- An active reader call has something to do: "not RxEmpty() or elapsed(RD_START) > RD_DL" (R50). -/
def readerReady (s : State) : Bool := !s.rxq.isEmpty || readerExpired s

/-- `enabled(s)` (R50). -/
def engineEnabled (s : State) : Bool :=
  s.fsm = .sent || s.fsm = .verify || (s.fsm.await && !s.rdActive)
    || ((s.fsm.await || s.fsm = .reading) && s.rdActive && readerReady s)

/-- `step(s)` of R50, for an enabled ENGINE. -/
def engineWork (s : State) : Host.Outcome State Fault Refusal :=
  if s.fsm = .sent then .next (sentStep s)
  else if s.fsm = .verify then .next (verifyStep s)
  else if s.fsm.await && !s.rdActive then .next (loopTop s)
  else poll s

/-- The ENGINE's turn: its step if it has one, else no change ("a spin step changes no state", R50). -/
def engineTurn (s : State) : Host.Outcome State Fault Refusal :=
  if engineEnabled s then engineWork s else .next s

end Sys2Proof.Machine
end

