-- ==== Sys2Proof/Machine/Dispatch.lean ====
section
/-! DEFINITION. One arm per command: what the HOST step that offers it to CMD does (30_encoding.md R48). -/

namespace Sys2Proof.Machine

def exec (i : Instr) (s : State) : Host.Outcome State Fault Refusal :=
  match i with
  | .crc n => Sys2Proof.Machine.execCrc n s
  | .crca n => Sys2Proof.Machine.execCrca n s
  | .crcv n => Sys2Proof.Machine.execCrcv n s
  | .frq addr reg => Sys2Proof.Machine.execFrq addr reg s
  | .fra old new => Sys2Proof.Machine.execFra old new s
  | .rdn n dl => Sys2Proof.Machine.execRdn n dl s
  | .qrys addr reg => Sys2Proof.Machine.execQrys addr reg s
  | .qryd addr reg => Sys2Proof.Machine.execQryd addr reg s
  | .seta old new => Sys2Proof.Machine.execSeta old new s

end Sys2Proof.Machine
end

