-- ==== Sys2Proof/Machine/HostPort.lean ====
section
/-! DEFINITION. The host register space: reads and writes (10_state.md R18, R25 to R27), the accept of a command word
(30_encoding.md R48), and one event of any agent (10_state.md R11). -/

namespace Sys2Proof.Machine

/-- The word index `i` reads (R18 to R24); a reserved index reads 0 (R27). -/
def readReg (s : State) (i : Byte) : Word :=
  let k := i.toNat
  if k = 0x00 then s.cmd
  else if k = 0x01 then statusWord s
  else if k = 0x02 then stateWord s
  else if k = 0x03 then s.result
  else if k = 0x04 then s.crcRaw ++ s.crcOut
  else if k = 0x05 then s.count.setWidth 32
  else if k = 0x06 then s.resends.setWidth 32
  else if k = 0x07 then s.tStart
  else if k = 0x08 then s.tLast
  else if k = 0x09 then s.rdStart
  else if k = 0x0A then s.txlen.setWidth 32
  else if k = 0x0B then s.now
  else if k = 0x0C then BitVec.ofNat 32 s.rxq.length
  else if k = 0x0D then s.rdDl ++ s.rdCount ++ s.rdN
  else if 0x10 ≤ k ∧ k ≤ 0x1A then (s.txf.toList.getD (k - 0x10) 0#8).setWidth 32
  else if 0x20 ≤ k ∧ k ≤ 0x26 then (s.rxf.toList.getD (k - 0x20) 0#8).setWidth 32
  else if 0x40 ≤ k ∧ k < 0x40 + s.cfg.bufSize then (bufByte s (k - 0x40)).setWidth 32
  else 0#32

/-- A host write of word `w` to CMD (R48): ErrBusy, then ErrIllegal, then the command itself. -/
def acceptWord (w : Word) (s : State) : Host.Outcome State Fault Refusal :=
  if s.busy then .next (raise .busy s)
  else
    match decode w with
    | .error _ => .next (raise .illegal s)
    | .ok i => exec i s

/-- A host write of word `w` to index `i` (R25). -/
def hostWrite (i : Byte) (w : Word) (s : State) : Host.Outcome State Fault Refusal :=
  if i.toNat = 0x00 then acceptWord w s
  else if 0x40 ≤ i.toNat ∧ i.toNat < 0x40 + s.cfg.bufSize then
    if s.busy then .next (raise .busy s) else .next (bufStore (i.toNat - 0x40) (w.extractLsb' 0 8) s)
  else .next s

/-- A host read of index `i`: the HOST gets the word, the block does not change (R26). -/
def hostRead (i : Byte) (s : State) : State := { s with hostData := readReg s i }

/-- One step of one agent, or the reset step (10_state.md R11). -/
def runEvent (e : Event) (s : State) : Host.Outcome State Fault Refusal :=
  match e with
  | .hostWrite i w => hostWrite i w s
  | .hostRead i => .next (hostRead i s)
  | .engine => engineTurn s
  | .linkByte b => .next (linkDeliver b s)
  | .linkTake => .next (linkTakeFrame s)
  | .tick => .next (clockTick s)
  | .reset => .next (resetStep s)

/-- Which step comes next, and the state with that step taken off: the oldest decided step, or the free choice
(20_memory.md R39, log 1, 2). -/
def nextEvent (s : State) : Event × State :=
  match s.agenda with
  | e :: rest => (e, { s with agenda := rest })
  | [] => (Config.agentChoice s.turn, { s with turn := s.turn + 1 })

/-- `s` with the command word of `nbits` bits `w` offered to CMD as its next step (log 6). -/
def offerWord (s : State) (nbits w : Nat) : State :=
  { s with agenda := .hostWrite 0x00#8 (commandWord nbits w) :: s.agenda }

end Sys2Proof.Machine
end

