-- ==== Sys2Proof/Machine/Step.lean ====
section
/-! DEFINITION. One step of the system: one step of one agent (10_state.md R11, 20_memory.md R39). -/

namespace Sys2Proof.Machine

/-- `s` with the command word `w` of `nbits` bits where the next step takes its command from. -/
def State.withFetchWord (s : State) (nbits w : Nat) : State := offerWord s nbits w

/-- One step of the system. -/
def step (s : State) : Host.Outcome State Fault Refusal := runEvent (nextEvent s).1 (nextEvent s).2

end Sys2Proof.Machine
end

