-- ==== Sys2Proof/Machine/Schedule.lean ====
section
/-! DEFINITION. Runs of events, and the eager schedule of 70_reset_and_hazards.md R115. -/

namespace Sys2Proof.Machine

/-- The events of a list, one after the other, stopping at a fault or refusal. -/
def runEvents : List Event → State → Host.Outcome State Fault Refusal
  | [], s => .next s
  | e :: es, s =>
    match runEvent e s with
    | .next t => runEvents es t
    | .fault f => .fault f
    | .refused r => .refused r

/-- ENGINE steps "for as long as the ENGINE has an enabled step" (R115), at most `n` of them. -/
def engineRun : Nat → State → Host.Outcome State Fault Refusal
  | 0, s => .next s
  | n + 1, s =>
    if engineEnabled s then
      match engineTurn s with
      | .next t => engineRun n t
      | .fault f => .fault f
      | .refused r => .refused r
    else .next s

/-- Enough ENGINE steps for one millisecond: three for each waiting byte, and four more. -/
def engineFuel (s : State) : Nat := 3 * s.rxq.length + 4

/-- One millisecond of the eager schedule (R115): HOST steps, LINK deliveries in byte order, ENGINE steps until none is
enabled, one CLOCK step. -/
def eagerMs (host : List Event) (link : List Byte) (s : State) : Host.Outcome State Fault Refusal :=
  match runEvents (host ++ link.map Event.linkByte) s with
  | .next t =>
    match engineRun (engineFuel t) t with
    | .next u => .next (clockTick u)
    | .fault f => .fault f
    | .refused r => .refused r
  | .fault f => .fault f
  | .refused r => .refused r

/-- `n` milliseconds of the eager schedule with no HOST step and no LINK delivery. -/
def eagerQuiet : Nat → State → Host.Outcome State Fault Refusal
  | 0, s => .next s
  | n + 1, s =>
    match eagerMs [] [] s with
    | .next t => eagerQuiet n t
    | .fault f => .fault f
    | .refused r => .refused r

end Sys2Proof.Machine
end

