-- ==== Sys2Proof/Safety.lean ====
section
/-! DEFINITION. What counts as a safe state: the invariant of every run, the form of the transmit stream, and the time
bound of the eager schedule. -/

namespace Sys2Proof.Machine

/-- CMD is its reset value, or the word of a legal command whose operands lie in range (30_encoding.md R46 to R48). -/
def cmdOk (s : State) : Bool :=
  match decode s.cmd with
  | .ok i => i.wellFormed s.cfg.bufSize
  | .error _ => s.cmd == 0#32

/-- The opcode of CMD is one of those that use the FSM state (10_state.md R13). -/
def ownerOk (s : State) : Bool :=
  match s.fsm with
  | .idle => [0x0#4, 0x1#4, 0x2#4, 0x3#4, 0x4#4, 0x5#4, 0x6#4].contains (opField s.cmd)
  | .sent => [0x8#4, 0x9#4, 0xA#4].contains (opField s.cmd)
  | .ah1 => [0x8#4, 0x9#4].contains (opField s.cmd)
  | .ah2 => [0x8#4, 0x9#4].contains (opField s.cmd)
  | .ah3 => [0x8#4, 0x9#4].contains (opField s.cmd)
  | .apay => [0x8#4, 0x9#4].contains (opField s.cmd)
  | .verify => [0x8#4, 0x9#4].contains (opField s.cmd)
  | .success => [0x8#4, 0x9#4].contains (opField s.cmd)
  | .timeout => [0x8#4, 0x9#4, 0xA#4].contains (opField s.cmd)
  | .reading => opField s.cmd == 0x6#4
  | .ack _ => opField s.cmd == 0xA#4
  | .pwrcyc => opField s.cmd == 0xA#4

/-- An active reader call asks for what its owner asked (R69, R74, R79): RDN's operands in READING, 4 bytes in APAY and 1
in the other AWAIT states, with deadline READ_MS. It has not taken all its bytes. In READING a call is always active; in
a state that is neither READING nor AWAIT none is. -/
def readerOk (s : State) : Bool :=
  if s.fsm = .reading then
    s.rdActive && decide (s.rdCount < s.rdN) && s.rdN == aField s.cmd && s.rdDl == immField s.cmd
  else if s.rdActive then
    s.fsm.await && decide (s.rdCount < s.rdN) && s.rdN == (if s.fsm = .apay then 4#8 else 1#8) && s.rdDl == s.cfg.readMs
  else true

/-- The flags of 10_state.md R19 and R28 fit the FSM state: DONE exactly in a resting state after a command, TMO exactly
in TIMEOUT, PWR exactly in PWRCYC, OK in SUCCESS and never in TIMEOUT or while a transaction or RDN runs, SHORT only
after an RDN that did not succeed. -/
def flagsOk (s : State) : Bool :=
  s.done == (!s.busy && s.cmd != 0#32)
    && s.tmo == decide (s.fsm = .timeout)
    && s.pwr == decide (s.fsm = .pwrcyc)
    && (if s.fsm = .success then s.ok
        else if s.fsm = .pwrcyc then s.ok == !s.cfg.compatSilentSuccess
        else if s.fsm = .idle then !s.ok || s.done
        else !s.ok)
    && (!s.short || (decide (s.fsm = .idle) && opField s.cmd == 0x6#4 && !s.ok))

/-- TXF of a query frame (30_encoding.md R51, 41_framer.md R65). -/
def queryTxf (addr : Byte) (reg : Half) : Vector Byte 11 :=
  #v[addr, 0x03#8, highByte reg, lowByte reg, 0x00#8, 0x01#8,
    lowByte (crc16 (queryHead addr reg)), highByte (crc16 (queryHead addr reg)), 0x00#8, 0x00#8, 0x00#8]

/-- TXF of an address-change frame (30_encoding.md R53, 41_framer.md R66). -/
def addrTxf (old new : Byte) : Vector Byte 11 :=
  #v[old, 0x10#8, 0x10#8, 0x00#8, 0x00#8, 0x01#8, 0x02#8, 0x00#8, new,
    lowByte (crc16 (addrHead old new)), highByte (crc16 (addrHead old new))]

/-- TXF and TXLEN hold the frame of CMD, where CMD is a command that builds one, as long as CMD stands (20_memory.md
R41). -/
def frameOk (s : State) : Bool :=
  let op := opField s.cmd
  let a := aField s.cmd
  let imm := immField s.cmd
  if op = 0x4#4 ∨ op = 0x8#4 ∨ op = 0x9#4 then s.txf == queryTxf a imm && s.txlen == 8#4
  else if op = 0x5#4 ∨ op = 0xA#4 then s.txf == addrTxf a (lowByte imm) && s.txlen == 11#4
  else true

/-- The invariant every step keeps. -/
structure Inv (s : State) : Prop where
  /-- The parameters lie in the ranges of 00_scope.md R6 and R7. -/
  cfgLegal : s.cfg.legal = true
  /-- BUF is in canonical form. -/
  bufWf : s.buf.wf = true
  /-- BUF lists no byte at or above BUF_SIZE (20_memory.md R30). -/
  bufBelow : s.buf.below s.cfg.bufSize = true
  /-- RXQ holds at most RX_DEPTH bytes (R29, R36). -/
  fifo : s.rxq.length ≤ s.cfg.rxDepth
  /-- CRC_OUT is the swapped CRC_RAW (10_state.md R15). -/
  crc : s.crcOut = swap16 s.crcRaw
  /-- TXLEN is 0, 8 or 11 (10_state.md R15). -/
  txlen : s.txlen = 0#4 ∨ s.txlen = 8#4 ∨ s.txlen = 11#4
  cmd : cmdOk s = true
  owner : ownerOk s = true
  reader : readerOk s = true
  flags : flagsOk s = true
  frame : frameOk s = true

/-- A frame the block may send: 8 or 11 bytes (30_encoding.md R55) that leave the CRC register at zero, so that the
trailer is correct (40_checksum.md R61). -/
def frameGood (f : TxFrame) : Bool :=
  (f.bytes.length == 8 || f.bytes.length == 11) && crc16 f.bytes == 0x0000#16

/-- Every frame of the transmit stream is one the block may send. -/
def streamOk (s : State) : Bool := s.tx.all frameGood

/-- How long a transaction has run, in ms. -/
def age (s : State) : Nat := (elapsed s s.tStart).toNat

/-- The time bound of 43_sensor_transaction.md R91: in a transaction that has been sent and has not ended, no more than
`OUTER_MS + READ_MS + 1` ms have passed since the SENT step. An active reader call started no later than OUTER_MS after
the SENT step, and has run at most `READ_MS + 1` ms. -/
def timelyOk (s : State) : Bool :=
  if s.fsm.await || decide (s.fsm = .verify) then
    decide (age s ≤ s.cfg.outerMs.toNat + s.cfg.readMs.toNat + 1)
      && (!s.rdActive
        || (decide ((elapsed s s.rdStart).toNat ≤ s.cfg.readMs.toNat + 1)
          && decide (age s ≤ s.cfg.outerMs.toNat + (elapsed s s.rdStart).toNat)))
  else true

/-- The CLOCK ticks only when the ENGINE has no enabled step, as under the eager schedule of 70_reset_and_hazards.md
R115. -/
def eagerTick (e : Event) (s : State) : Bool := e != .tick || !engineEnabled s

end Sys2Proof.Machine
end

