-- ==== Sys2Proof/Certificates/Slice0/Obligations.lean ====
section
/-! DEFINITION. The statements for the provers. -/

open Sys2Proof Sys2Proof.Machine

/-! ## Encoding -/

/-- Every command, with every operand, decodes back from its word (30_encoding.md R43 to R46, R56). -/
def Obligations.DecodeOfEncode : Prop := ∀ i : Instr, decode (encode i) = .ok i

/-- A word that decodes is the word of the command it decodes to, so that no bit of an accepted word is lost
(30_encoding.md R48 `CMD <- w`). -/
def Obligations.EncodeOfDecodedWord : Prop := ∀ (w : Word) (i : Instr), decode w = .ok i → encode i = w

/-- The operands of a decoded word are its A and IMM fields, as numbers, with no scaling, and its OP is the command's
(30_encoding.md R43 to R45). -/
def Obligations.DecodedOperandsAreFields : Prop :=
  ∀ (w : Word) (i : Instr), decode w = .ok i →
    match i with
    | .crc n => w.toNat = 0x10000000 + n.toNat * 0x10000
    | .crca n => w.toNat = 0x20000000 + n.toNat * 0x10000
    | .crcv n => w.toNat = 0x30000000 + n.toNat * 0x10000
    | .frq a r => w.toNat = 0x40000000 + a.toNat * 0x10000 + r.toNat
    | .fra o n => w.toNat = 0x50000000 + o.toNat * 0x10000 + n.toNat
    | .rdn n d => w.toNat = 0x60000000 + n.toNat * 0x10000 + d.toNat
    | .qrys a r => w.toNat = 0x80000000 + a.toNat * 0x10000 + r.toNat
    | .qryd a r => w.toNat = 0x90000000 + a.toNat * 0x10000 + r.toNat
    | .seta o n => w.toNat = 0xA0000000 + o.toNat * 0x10000 + n.toNat

/-- The illegal words are exactly those of 30_encoding.md R46, with OP, RSV and IMM taken from the word by arithmetic. An
illegal word written to CMD while the block rests sets ERR_ILLEGAL and changes nothing else. The all-zero word is
illegal. -/
def Obligations.IllegalWordsExactly : Prop :=
  (∀ w : Word, (∃ e, decode w = .error e) ↔
    (w.toNat / 2 ^ 28 = 0x0 ∨ w.toNat / 2 ^ 28 = 0x7 ∨ 0xB ≤ w.toNat / 2 ^ 28
      ∨ w.toNat / 2 ^ 24 % 16 ≠ 0
      ∨ ((w.toNat / 2 ^ 28 = 0x1 ∨ w.toNat / 2 ^ 28 = 0x2 ∨ w.toNat / 2 ^ 28 = 0x3) ∧ w.toNat % 2 ^ 16 ≠ 0)
      ∨ ((w.toNat / 2 ^ 28 = 0x5 ∨ w.toNat / 2 ^ 28 = 0xA) ∧ w.toNat / 2 ^ 8 % 2 ^ 8 ≠ 0)))
  ∧ (∀ (w : Word) (s : State), s.busy = false → (∃ e, decode w = .error e) →
      runEvent (.hostWrite 0x00#8 w) s = .next { s with errIllegal := true })
  ∧ (∃ e, decode 0x00000000#32 = .error e)

/-- Words written out in 95_test_vectors.md decode to the commands they stand for. -/
def Obligations.WorkedWordsDecode : Prop :=
  decode 0x10090000#32 = .ok (.crc 9#8) ∧ decode 0x20050000#32 = .ok (.crca 5#8)
  ∧ decode 0x30050000#32 = .ok (.crcv 5#8) ∧ decode 0x40FFFFFF#32 = .ok (.frq 0xFF#8 0xFFFF#16)
  ∧ decode 0x50020007#32 = .ok (.fra 0x02#8 0x07#8) ∧ decode 0x6004000A#32 = .ok (.rdn 4#8 10#16)
  ∧ decode 0x80050000#32 = .ok (.qrys 0x05#8 0x0000#16) ∧ decode 0x90070001#32 = .ok (.qryd 0x07#8 0x0001#16)
  ∧ decode 0xA0000005#32 = .ok (.seta 0x00#8 0x05#8)

/-! ## Steps, accept and errors -/

/-- A step whose event writes to CMD the word of a command runs that command, with the event taken off the agenda. So
does the step of a state that `withFetchWord` prepared. (The agenda is the model's own field: log 1, 6.) -/
def Obligations.StepRunsDecodedCommand : Prop :=
  (∀ (s : State) (w : Word) (rest : List Event) (i : Instr), s.agenda = .hostWrite 0x00#8 w :: rest → decode w = .ok i →
    step s = exec i { s with agenda := rest })
  ∧ (∀ (s : State) (n : Nat) (i : Instr), decodeTableWord 32 n = some i → step (s.withFetchWord 32 n) = exec i s)

/-- Each step of the system is one event of one agent: the oldest decided one, or else the free choice of the scheduler
(10_state.md R11, 20_memory.md R39; the model's own fields, log 1, 2). -/
def Obligations.StepIsOneEvent : Prop :=
  (∀ (s : State) (e : Event) (rest : List Event), s.agenda = e :: rest → step s = runEvent e { s with agenda := rest })
  ∧ (∀ s : State, s.agenda = [] → ∃ e : Event, step s = runEvent e { s with turn := s.turn + 1 })

/-- The accept of 30_encoding.md R48: busy first, then illegal, then operand, and only that one bit is set; else the word
is latched, TMO and SHORT are cleared, an immediate command ends in IDLE with DONE, and an engine command leaves a busy
state with DONE and OK clear (RDN of 0 bytes ends at once, R74). -/
def Obligations.AcceptChecksInOrder : Prop :=
  ∀ (w : Word) (s : State),
    (s.busy = true → runEvent (.hostWrite 0x00#8 w) s = .next { s with errBusy := true })
    ∧ (s.busy = false → (∃ e, decode w = .error e) →
        runEvent (.hostWrite 0x00#8 w) s = .next { s with errIllegal := true })
    ∧ (∀ i : Instr, s.busy = false → decode w = .ok i → i.wellFormed s.cfg.bufSize = false →
        runEvent (.hostWrite 0x00#8 w) s = .next { s with errOperand := true })
    ∧ (∀ i : Instr, s.busy = false → decode w = .ok i → i.wellFormed s.cfg.bufSize = true →
        ∃ t : State, runEvent (.hostWrite 0x00#8 w) s = .next t ∧ t.cmd = w ∧ t.tmo = false ∧ t.short = false
          ∧ t.errBusy = s.errBusy ∧ t.errIllegal = s.errIllegal ∧ t.errOperand = s.errOperand
          ∧ match i with
            | .crc _ => t.fsm = .idle ∧ t.done = true
            | .crca _ => t.fsm = .idle ∧ t.done = true
            | .crcv _ => t.fsm = .idle ∧ t.done = true
            | .frq _ _ => t.fsm = .idle ∧ t.done = true
            | .fra _ _ => t.fsm = .idle ∧ t.done = true
            | .rdn n _ => (n = 0#8 → t.fsm = .idle ∧ t.done = true)
                ∧ (n ≠ 0#8 → t.fsm = .reading ∧ t.busy = true ∧ t.done = false ∧ t.ok = false)
            | .qrys _ _ => t.fsm = .sent ∧ t.busy = true ∧ t.done = false ∧ t.ok = false
            | .qryd _ _ => t.fsm = .sent ∧ t.busy = true ∧ t.done = false ∧ t.ok = false
            | .seta _ _ => t.fsm = .sent ∧ t.busy = true ∧ t.done = false ∧ t.ok = false)

/-- The operand checks of 30_encoding.md R47 on a block that rests. In a case of the table the command is refused: only
ERR_OPERAND changes. In every other case it is not refused: the command is latched and ERR_OPERAND stays. -/
def Obligations.OperandChecks : Prop :=
  ∀ (s : State) (i : Instr), s.busy = false →
    let refused : Prop := match i with
      | .crc n => s.cfg.bufSize < n.toNat
      | .rdn n _ => s.cfg.bufSize < n.toNat
      | .crca n => s.cfg.bufSize < n.toNat + 2
      | .crcv n => s.cfg.bufSize < n.toNat + 2
      | .frq a _ => a = 0x00#8
      | .qrys a _ => a = 0x00#8
      | .qryd a _ => a = 0x00#8
      | .fra _ n => n = 0x00#8
      | .seta _ n => n = 0x00#8
    (refused → exec i s = .next { s with errOperand := true })
    ∧ (¬ refused → ∃ t : State, exec i s = .next t ∧ t.cmd = encode i ∧ t.errOperand = s.errOperand)

/-- A command offered while BUSY changes nothing but ERR_BUSY, whatever the command and its operands
(60_exceptions.md R98 to R100). -/
def Obligations.BusyRefusesEveryCommand : Prop :=
  ∀ (s : State) (i : Instr), s.busy = true → exec i s = .next { s with errBusy := true }

/-- The error bits are sticky: no step of any agent clears one, and RESET clears all four (60_exceptions.md R101). -/
def Obligations.ErrorBitsStayUntilReset : Prop :=
  (∀ (s t : State) (e : Event), e ≠ .reset → runEvent e s = .next t →
    (s.errBusy = true → t.errBusy = true) ∧ (s.errIllegal = true → t.errIllegal = true)
    ∧ (s.errOperand = true → t.errOperand = true) ∧ (s.rxovf = true → t.rxovf = true))
  ∧ (∀ s : State, ∃ t : State, runEvent .reset s = .next t
      ∧ t.errBusy = false ∧ t.errIllegal = false ∧ t.errOperand = false ∧ t.rxovf = false)

/-! ## Checksum -/

/-- CRC on a block that rests, with n in range (40_checksum.md R62): the checksum of BUF[0..n) into the CRC register, OK,
DONE, IDLE, the other per-command flags cleared, and nothing else changed. -/
def Obligations.CrcResult : Prop :=
  ∀ (s : State) (n : Byte), s.busy = false → n.toNat ≤ s.cfg.bufSize →
    exec (.crc n) s = .next { s with
      cmd := encode (.crc n), fsm := .idle, done := true, ok := true, tmo := false, short := false
      crcRaw := crc16 ((List.range n.toNat).map s.buf.read)
      crcOut := swap16 (crc16 ((List.range n.toNat).map s.buf.read)) }

/-- CRCA on a block that rests, with n + 2 in range (40_checksum.md R63): as CRC, and BUF reads the raw CRC's low byte at
n, its high byte at n + 1, and everything else as before. -/
def Obligations.CrcaResult : Prop :=
  ∀ (s : State) (n : Byte), s.busy = false → n.toNat + 2 ≤ s.cfg.bufSize → s.buf.wf = true →
    ∃ m : Memory, m.wf = true
      ∧ (∀ a, m.read a =
          if a = n.toNat then lowByte (crc16 ((List.range n.toNat).map s.buf.read))
          else if a = n.toNat + 1 then highByte (crc16 ((List.range n.toNat).map s.buf.read))
          else s.buf.read a)
      ∧ exec (.crca n) s = .next { s with
          cmd := encode (.crca n), fsm := .idle, done := true, ok := true, tmo := false, short := false
          crcRaw := crc16 ((List.range n.toNat).map s.buf.read)
          crcOut := swap16 (crc16 ((List.range n.toNat).map s.buf.read))
          buf := m }

/-- CRCV on a block that rests, with n + 2 in range (40_checksum.md R64): as CRC, but OK says whether
`frame[n]*256 + frame[n+1]` is the swapped CRC. BUF is not changed and no error bit is set. -/
def Obligations.CrcvResult : Prop :=
  ∀ (s : State) (n : Byte), s.busy = false → n.toNat + 2 ≤ s.cfg.bufSize →
    exec (.crcv n) s = .next { s with
      cmd := encode (.crcv n), fsm := .idle, done := true, tmo := false, short := false
      ok := decide ((swap16 (crc16 ((List.range n.toNat).map s.buf.read))).toNat
        = (s.buf.read n.toNat).toNat * 256 + (s.buf.read (n.toNat + 1)).toNat)
      crcRaw := crc16 ((List.range n.toNat).map s.buf.read)
      crcOut := swap16 (crc16 ((List.range n.toNat).map s.buf.read)) }

/-- CRCA n followed by CRCV n always sets OK (40_checksum.md R63, corner cases). -/
def Obligations.AppendThenVerifySucceeds : Prop :=
  ∀ (s : State) (n : Byte), s.busy = false → n.toNat + 2 ≤ s.cfg.bufSize → s.buf.wf = true →
    ∃ t u : State, exec (.crca n) s = .next t ∧ exec (.crcv n) t = .next u ∧ u.ok = true ∧ u.done = true
      ∧ u.buf = t.buf

/-- The three facts of 40_checksum.md R61: the CRC of no bytes, the zero residue of a frame with its trailer, and that
flipping any single bit of a frame or of its trailer makes the check of R64 fail. -/
def Obligations.ChecksumFacts : Prop :=
  crc16 [] = 0xFFFF#16
  ∧ (∀ B : List Byte, crc16 (B ++ [lowByte (crc16 B), highByte (crc16 B)]) = 0x0000#16)
  ∧ (∀ (B F : List Byte) (k j : Nat), k < B.length + 2 → j < 8 →
      F = (B ++ [lowByte (crc16 B), highByte (crc16 B)]).modify k (fun b => b ^^^ (1#8 <<< j)) →
      swap16 (crc16 (F.take B.length)) ≠ u16 (F.getD B.length 0#8) (F.getD (B.length + 1) 0#8))

/-- The write side and the verify side of a trailer agree, and on no other pair of bytes: the swapped CRC is
`{b0, b1}` exactly when b0 is the raw CRC's low byte and b1 its high byte (20_memory.md R34, 30_encoding.md R52). -/
def Obligations.TrailerSidesAgree : Prop :=
  ∀ (B : List Byte) (b0 b1 : Byte),
    (swap16 (crc16 B)).toNat = b0.toNat * 256 + b1.toNat
      ↔ b0.toNat = (crc16 B).toNat % 256 ∧ b1.toNat = (crc16 B).toNat / 256

/-- The byte-wise loop of 40_checksum.md R58 is the bit-serial register: each message bit, least significant bit of each
byte first, is added to the bit shifted out, and that sum selects the polynomial 0xA001. -/
def Obligations.ChecksumIsBitSerial : Prop :=
  ∀ B : List Byte,
    crc16 B = (B.flatMap fun b => (List.range 8).map fun j => b.getLsbD j).foldl
      (fun (c : Half) (m : Bool) => if (c.getLsbD 0 != m) = true then (c >>> 1) ^^^ 0xA001#16 else c >>> 1) 0xFFFF#16

/-- Check values of 95_test_vectors.md section 2.1 (T-CRC-1, 2, 3, 7, 12, 19 and 27). -/
def Obligations.ChecksumVectors : Prop :=
  crc16 [] = 0xFFFF#16
  ∧ crc16 [0x31#8, 0x32#8, 0x33#8, 0x34#8, 0x35#8, 0x36#8, 0x37#8, 0x38#8, 0x39#8] = 0x4B37#16
  ∧ crc16 [0x05#8, 0x03#8, 0x00#8, 0x00#8, 0x00#8, 0x01#8] = 0x8E85#16
  ∧ crc16 [0x05#8, 0x03#8, 0x02#8, 0x01#8, 0x2C#8] = 0xC949#16
  ∧ crc16 [0x00#8, 0x10#8, 0x10#8, 0x00#8, 0x00#8, 0x01#8, 0x02#8, 0x00#8, 0x05#8] = 0x027A#16
  ∧ crc16 [0x80#8] = 0xE0BE#16
  ∧ crc16 [0x05#8, 0x03#8, 0x00#8, 0x00#8, 0x00#8, 0x01#8, 0x85#8, 0x8E#8] = 0x0000#16

/-! ## Framer -/

/-- FRQ on a block that rests, with a device address that is not 0x00 (41_framer.md R65, R67): TXF holds the query frame
of 30_encoding.md R51 and three zeros, TXLEN is 8, the CRC register holds the frame's checksum, and nothing is sent or
otherwise changed. -/
def Obligations.FrqResult : Prop :=
  ∀ (s : State) (a : Byte) (r : Half), s.busy = false → a ≠ 0x00#8 →
    let c := crc16 [a, 0x03#8, highByte r, lowByte r, 0x00#8, 0x01#8]
    exec (.frq a r) s = .next { s with
      cmd := encode (.frq a r), fsm := .idle, done := true, ok := true, tmo := false, short := false
      crcRaw := c, crcOut := swap16 c, txlen := 8#4
      txf := #v[a, 0x03#8, highByte r, lowByte r, 0x00#8, 0x01#8, lowByte c, highByte c, 0x00#8, 0x00#8, 0x00#8] }

/-- FRA on a block that rests, with a new address that is not 0x00 (41_framer.md R66, R68): TXF holds the address-change
frame of 30_encoding.md R53, TXLEN is 11. -/
def Obligations.FraResult : Prop :=
  ∀ (s : State) (o n : Byte), s.busy = false → n ≠ 0x00#8 →
    let c := crc16 [o, 0x10#8, 0x10#8, 0x00#8, 0x00#8, 0x01#8, 0x02#8, 0x00#8, n]
    exec (.fra o n) s = .next { s with
      cmd := encode (.fra o n), fsm := .idle, done := true, ok := true, tmo := false, short := false
      crcRaw := c, crcOut := swap16 c, txlen := 11#4
      txf := #v[o, 0x10#8, 0x10#8, 0x00#8, 0x00#8, 0x01#8, 0x02#8, 0x00#8, n, lowByte c, highByte c] }

/-! ## TimedReader -/

/-- RDN on a block that rests, with n in range (42_timed_reader.md R69, R74): for n = 0 it ends at once with COUNT 0 and
OK; else a reader call of n bytes starts now and the block is READING. RXQ is not touched. -/
def Obligations.RdnResult : Prop :=
  ∀ (s : State) (n : Byte) (d : Half), s.busy = false → n.toNat ≤ s.cfg.bufSize →
    exec (.rdn n d) s = .next
      (if n = 0x00#8 then { s with
          cmd := encode (.rdn n d), fsm := .idle, done := true, ok := true, tmo := false, short := false, count := 0x00#8 }
        else { s with
          cmd := encode (.rdn n d), fsm := .reading, done := false, ok := false, tmo := false, short := false
          rdActive := true, rdStart := s.now, rdN := n, rdCount := 0x00#8, rdDl := d })

/-- One poll of a running RDN with a byte waiting (42_timed_reader.md R70, R71, R75): the oldest byte goes to BUF[k], k
the bytes taken before, and is counted. The call ends with OK when it was the last one asked for, ends with SHORT when the
deadline has passed all the same, and else goes on. -/
def Obligations.RdnPollTakesOneByte : Prop :=
  ∀ (s : State) (b : Byte) (q : List Byte), s.fsm = .reading → s.rdActive = true → s.rdCount.toNat < s.rdN.toNat →
    s.rdN.toNat ≤ s.cfg.bufSize → s.buf.wf = true → s.rxq = b :: q →
    ∃ m : Memory, m.wf = true
      ∧ (∀ a, m.read a = if a = s.rdCount.toNat then b else s.buf.read a)
      ∧ engineTurn s = .next
        (if s.rdCount.toNat + 1 = s.rdN.toNat then { s with
            buf := m, rxq := q, rdCount := s.rdN, rdActive := false
            count := s.rdN, short := false, ok := true, done := true, fsm := .idle }
          else if s.rdDl.toNat < (s.now - s.rdStart).toNat then { s with
            buf := m, rxq := q, rdCount := s.rdCount + 1#8, rdActive := false
            count := s.rdCount + 1#8, short := true, ok := false, done := true, fsm := .idle }
          else { s with buf := m, rxq := q, rdCount := s.rdCount + 1#8 })

/-- A running RDN with no byte waiting: no ENGINE step before the deadline has passed; then the call ends short, with the
count so far (42_timed_reader.md R71, R73, R75, 30_encoding.md R50). -/
def Obligations.RdnPollAtDeadline : Prop :=
  ∀ s : State, s.fsm = .reading → s.rdActive = true → s.rdCount.toNat < s.rdN.toNat → s.rxq = [] →
    (s.rdDl.toNat < (s.now - s.rdStart).toNat →
      engineTurn s = .next { s with
        rdActive := false, count := s.rdCount, short := true, ok := false, done := true, fsm := .idle })
    ∧ ((s.now - s.rdStart).toNat ≤ s.rdDl.toNat → engineEnabled s = false ∧ engineTurn s = .next s)

/-- Under the eager schedule an RDN that starts now and sees no byte runs for RD_DL + 1 ms: the block is still READING
when `now` reaches RD_START + RD_DL + 1, and its next ENGINE step ends the call (42_timed_reader.md R72,
70_reset_and_hazards.md R115). -/
def Obligations.SilentRdnEndsAfterItsDeadline : Prop :=
  ∀ s : State, s.fsm = .reading → s.rdActive = true → s.rdCount.toNat < s.rdN.toNat → s.rxq = [] → s.rdStart = s.now →
    ∃ t u : State, eagerQuiet (s.rdDl.toNat + 1) s = .next t
      ∧ t = { s with now := s.rdStart + BitVec.ofNat 32 (s.rdDl.toNat + 1) }
      ∧ engineTurn t = .next u ∧ u.fsm = .idle ∧ u.count = s.rdCount ∧ u.short = true ∧ u.ok = false ∧ u.now = t.now

/-! ## Sensor transaction and address assigner -/

/-- QRYS and QRYD on a block that rests, with a device address that is not 0x00 (43_sensor_transaction.md R76, R77): the
query frame is built, RXF and RESENDS are cleared, the block is in SENT, and nothing has been sent. -/
def Obligations.QueryStart : Prop :=
  ∀ (s : State) (a : Byte) (r : Half), s.busy = false → a ≠ 0x00#8 →
    let c := crc16 [a, 0x03#8, highByte r, lowByte r, 0x00#8, 0x01#8]
    let started : Word → State := fun w => { s with
      cmd := w, fsm := .sent, done := false, ok := false, tmo := false, short := false
      crcRaw := c, crcOut := swap16 c, txlen := 8#4
      txf := #v[a, 0x03#8, highByte r, lowByte r, 0x00#8, 0x01#8, lowByte c, highByte c, 0x00#8, 0x00#8, 0x00#8]
      rxf := #v[0x00#8, 0x00#8, 0x00#8, 0x00#8, 0x00#8, 0x00#8, 0x00#8], resends := 0x0000#16 }
    exec (.qrys a r) s = .next (started (encode (.qrys a r)))
    ∧ exec (.qryd a r) s = .next (started (encode (.qryd a r)))

/-- SETA on a block that rests, with a new address that is not 0x00 (44_address_assigner.md R92). -/
def Obligations.SetaStart : Prop :=
  ∀ (s : State) (o n : Byte), s.busy = false → n ≠ 0x00#8 →
    let c := crc16 [o, 0x10#8, 0x10#8, 0x00#8, 0x00#8, 0x01#8, 0x02#8, 0x00#8, n]
    exec (.seta o n) s = .next { s with
      cmd := encode (.seta o n), fsm := .sent, done := false, ok := false, tmo := false, short := false
      crcRaw := c, crcOut := swap16 c, txlen := 11#4
      txf := #v[o, 0x10#8, 0x10#8, 0x00#8, 0x00#8, 0x01#8, 0x02#8, 0x00#8, n, lowByte c, highByte c]
      rxf := #v[0x00#8, 0x00#8, 0x00#8, 0x00#8, 0x00#8, 0x00#8, 0x00#8], resends := 0x0000#16 }

/-- The SENT step (43_sensor_transaction.md R78): TXF[0..TXLEN) goes out as one frame stamped with `now`, both times are
stamped, and matching begins at ACK0 for SETA, at AH1 otherwise. -/
def Obligations.SentSendsTheFrame : Prop :=
  ∀ s : State, s.fsm = .sent →
    engineTurn s = .next { s with
      tx := s.tx ++ [{ time := s.now, bytes := s.txf.toList.take s.txlen.toNat }]
      tStart := s.now, tLast := s.now
      fsm := if s.cmd.toNat / 2 ^ 28 = 0xA then .ack 0 else .ah1 }

/-- The loop top (43_sensor_transaction.md R79): in an AWAIT state with no reader call, the outer deadline first, which
ends the transaction; else a resend if the resend interval has passed; then the next call, of 4 bytes in APAY and 1
elsewhere, with deadline READ_MS. RESULT at the end is `timeoutValue`, which is the sentinel of QRYS or QRYD, and 0 for
SETA (R90, 44_address_assigner.md R97); its value for any other opcode, which no run has here, is left unsaid (log 17). -/
def Obligations.LoopTop : Prop :=
  ∀ s : State, s.fsm.await = true → s.rdActive = false →
    (s.cfg.outerMs.toNat < (s.now - s.tStart).toNat →
      engineTurn s = .next { s with
        result := timeoutValue s, ok := false, tmo := true, done := true, fsm := .timeout }
      ∧ (s.cmd.toNat / 2 ^ 28 = 0x8 → timeoutValue s = s.cfg.speedSentinel)
      ∧ (s.cmd.toNat / 2 ^ 28 = 0x9 → timeoutValue s = s.cfg.dirSentinel)
      ∧ (s.cmd.toNat / 2 ^ 28 = 0xA → timeoutValue s = 0x00000000#32))
    ∧ (¬ s.cfg.outerMs.toNat < (s.now - s.tStart).toNat → s.cfg.resendMs.toNat < (s.now - s.tLast).toNat →
      engineTurn s = .next { s with
        tx := s.tx ++ [{ time := s.now, bytes := s.txf.toList.take s.txlen.toNat }]
        tLast := s.now, resends := s.resends + 1#16
        rdActive := true, rdStart := s.now, rdCount := 0x00#8, rdDl := s.cfg.readMs
        rdN := if s.fsm = .apay then 4#8 else 1#8 })
    ∧ (¬ s.cfg.outerMs.toNat < (s.now - s.tStart).toNat → ¬ s.cfg.resendMs.toNat < (s.now - s.tLast).toNat →
      engineTurn s = .next { s with
        rdActive := true, rdStart := s.now, rdCount := 0x00#8, rdDl := s.cfg.readMs
        rdN := if s.fsm = .apay then 4#8 else 1#8 })

/-- The two timeout exits, at the loop top of a transaction past its outer deadline: RESULT is the sentinel of QRYS or
QRYD (43_sensor_transaction.md R90) and 0 for SETA (44_address_assigner.md R97); OK 0, TMO 1, DONE 1, TIMEOUT, and nothing
else changes. -/
def Obligations.TimeoutExits : Prop :=
  ∀ s : State, s.fsm.await = true → s.rdActive = false → s.cfg.outerMs.toNat < (s.now - s.tStart).toNat →
    (s.cmd.toNat / 2 ^ 28 = 0x8 → engineTurn s = .next { s with
      result := s.cfg.speedSentinel, ok := false, tmo := true, done := true, fsm := .timeout })
    ∧ (s.cmd.toNat / 2 ^ 28 = 0x9 → engineTurn s = .next { s with
      result := s.cfg.dirSentinel, ok := false, tmo := true, done := true, fsm := .timeout })
    ∧ (s.cmd.toNat / 2 ^ 28 = 0xA → engineTurn s = .next { s with
      result := 0x00000000#32, ok := false, tmo := true, done := true, fsm := .timeout })

/-- A header poll that takes a byte (43_sensor_transaction.md R82 to R84): the byte goes to CH; the expected byte is
stored and the search advances; any other byte is dropped and the search restarts at AH1. -/
def Obligations.HeaderByteMatching : Prop :=
  ∀ (s : State) (b : Byte) (q : List Byte), s.rdActive = true → s.rdN = 1#8 → s.rdCount = 0#8 → s.rxq = b :: q →
    let u : State := { s with rxq := q, ch := b, rdCount := 1#8, rdActive := false }
    (s.fsm = .ah1 → engineTurn s = .next
      (if b = aField s.cmd then { u with rxf := s.rxf.set 0 b, fsm := .ah2 } else { u with fsm := .ah1 }))
    ∧ (s.fsm = .ah2 → engineTurn s = .next
      (if b = 0x03#8 then { u with rxf := s.rxf.set 1 b, fsm := .ah3 } else { u with fsm := .ah1 }))
    ∧ (s.fsm = .ah3 → engineTurn s = .next
      (if b = 0x02#8 then { u with rxf := s.rxf.set 2 b, fsm := .apay } else { u with fsm := .ah1 }))

/-- A payload poll that takes a byte (42_timed_reader.md R70, 43_sensor_transaction.md R83): the k-th byte goes to
RXF[3 + k]; the fourth moves to VERIFY; else a call past its deadline goes back to AH1. -/
def Obligations.PayloadPoll : Prop :=
  ∀ (s : State) (b : Byte) (q : List Byte) (hk : s.rdCount.toNat < 4), s.fsm = .apay → s.rdActive = true →
    s.rdN = 4#8 → s.rxq = b :: q →
    let u : State := { s with rxq := q, rxf := s.rxf.set (3 + s.rdCount.toNat) b (by omega), rdCount := s.rdCount + 1#8 }
    engineTurn s = .next
      (if s.rdCount.toNat = 3 then { u with rdActive := false, fsm := .verify }
        else if s.rdDl.toNat < (s.now - s.rdStart).toNat then { u with rdActive := false, fsm := .ah1 }
        else u)

/-- A call of a transaction that ends with no byte waiting, past its deadline, sends the search back to its first state,
AH1 or ACK0, and keeps RXF (43_sensor_transaction.md R83, 44_address_assigner.md R94). -/
def Obligations.ShortReadRestartsSearch : Prop :=
  ∀ s : State, s.rdActive = true → s.rdCount.toNat < s.rdN.toNat → s.rdN = (if s.fsm = .apay then 4#8 else 1#8) →
    s.rxq = [] → s.rdDl.toNat < (s.now - s.rdStart).toNat →
    (s.fsm = .ah1 ∨ s.fsm = .ah2 ∨ s.fsm = .ah3 ∨ s.fsm = .apay →
      engineTurn s = .next { s with rdActive := false, fsm := .ah1 })
    ∧ (∀ k : Fin 6, s.fsm = .ack k → engineTurn s = .next { s with rdActive := false, fsm := .ack 0 })

/-- The VERIFY step with its success exit and its mismatch (43_sensor_transaction.md R85 to R89): the CRC register gets
the checksum of RXF[0..5); if its swapped form is RXF[5]*256 + RXF[6], RESULT is RXF[3]*256 + RXF[4] for QRYS and RXF[4]
for QRYD, with OK, DONE and SUCCESS; else the search restarts at AH1 and nothing else changes. -/
def Obligations.VerifyDecidesTheReply : Prop :=
  ∀ s : State, s.fsm = .verify → (s.cmd.toNat / 2 ^ 28 = 0x8 ∨ s.cmd.toNat / 2 ^ 28 = 0x9) →
    let c := crc16 [s.rxf[0], s.rxf[1], s.rxf[2], s.rxf[3], s.rxf[4]]
    ((swap16 c).toNat = s.rxf[5].toNat * 256 + s.rxf[6].toNat → ∃ r : Word,
      r.toNat = (if s.cmd.toNat / 2 ^ 28 = 0x8 then s.rxf[3].toNat * 256 + s.rxf[4].toNat else s.rxf[4].toNat)
      ∧ engineTurn s = .next { s with
          crcRaw := c, crcOut := swap16 c, result := r, ok := true, tmo := false, done := true, fsm := .success })
    ∧ ((swap16 c).toNat ≠ s.rxf[5].toNat * 256 + s.rxf[6].toNat →
      engineTurn s = .next { s with crcRaw := c, crcOut := swap16 c, fsm := .ah1 })

/-- An acknowledgment poll that takes a byte (44_address_assigner.md R93 to R95): the expected byte is stored and the
match advances, the sixth one entering the power-cycle prompt with success signalled unless COMPAT_SILENT_SUCCESS; any
other byte is dropped and the match restarts at ACK0. -/
def Obligations.AckByteMatching : Prop :=
  ∀ (s : State) (b : Byte) (q : List Byte) (k : Fin 6), s.fsm = .ack k → s.rdActive = true → s.rdN = 1#8 →
    s.rdCount = 0#8 → s.rxq = b :: q →
    let u : State := { s with rxq := q, ch := b, rdCount := 1#8, rdActive := false }
    let expected : Byte := [aField s.cmd, 0x10#8, 0x10#8, 0x00#8, 0x00#8, 0x01#8].getD k.val 0#8
    (b ≠ expected → engineTurn s = .next { u with fsm := .ack 0 })
    ∧ (b = expected → ∀ h : k.val + 1 < 6,
        engineTurn s = .next { u with rxf := s.rxf.set k.val b (by omega), fsm := .ack ⟨k.val + 1, h⟩ })
    ∧ (b = expected → k.val = 5 → engineTurn s = .next { u with
        rxf := s.rxf.set 5 b, pwr := true, done := false, fsm := .pwrcyc
        ok := !s.cfg.compatSilentSuccess
        result := if s.cfg.compatSilentSuccess = true then 0x00000000#32 else 0x00000001#32 })

/-- A reply is decoded whatever bytes other than the device address stand before it: a query in SENT with such noise, the
7-byte reply and any further bytes in RXQ ends in SUCCESS, within the millisecond, with the value in RESULT and the
further bytes left in RXQ (43_sensor_transaction.md R78 to R89, 20_memory.md R37). -/
def Obligations.ReplyAfterNoiseIsDecoded : Prop :=
  ∀ (s : State) (noise rest : List Byte) (vh vl : Byte),
    s.fsm = .sent → s.rdActive = false → (s.cmd.toNat / 2 ^ 28 = 0x8 ∨ s.cmd.toNat / 2 ^ 28 = 0x9) →
    (∀ b ∈ noise, b ≠ aField s.cmd) →
    let head : List Byte := [aField s.cmd, 0x03#8, 0x02#8, vh, vl]
    s.rxq = noise ++ head ++ [lowByte (crc16 head), highByte (crc16 head)] ++ rest →
    ∃ t : State, engineRun (engineFuel s) s = .next t ∧ t.fsm = .success ∧ t.ok = true ∧ t.done = true ∧ t.tmo = false
      ∧ t.rxq = rest ∧ t.rxf.toList = head ++ [lowByte (crc16 head), highByte (crc16 head)]
      ∧ t.result.toNat = (if s.cmd.toNat / 2 ^ 28 = 0x8 then vh.toNat * 256 + vl.toNat else vl.toNat)

/-- A spurious address byte right before a reply makes the block miss that reply: the reply's own address byte is dropped
in AH2, and with no further address byte the search waits in AH1 (43_sensor_transaction.md R84, 90_conflicts.md C7). Left
out: device address 0x03, which AH2 takes for the function byte, and a reply that holds the address byte again, which
starts a new search. -/
def Obligations.SpuriousAddressByteLosesTheReply : Prop :=
  ∀ (s : State) (tail : List Byte),
    s.fsm = .sent → s.rdActive = false → (s.cmd.toNat / 2 ^ 28 = 0x8 ∨ s.cmd.toNat / 2 ^ 28 = 0x9) →
    aField s.cmd ≠ 0x03#8 → (∀ b ∈ tail, b ≠ aField s.cmd) → s.rxq = aField s.cmd :: aField s.cmd :: tail →
    ∃ t : State, engineRun (engineFuel s) s = .next t ∧ t.fsm = .ah1 ∧ t.rdActive = true ∧ t.rxq = []
      ∧ t.done = s.done ∧ engineEnabled t = false

/-- SETA succeeds on the echo of its own frame, leaving the echo's last five bytes in RXQ (70_reset_and_hazards.md R119,
95_test_vectors.md T-SA-5). -/
def Obligations.EchoCompletesSeta : Prop :=
  ∀ (s : State) (o n : Byte), s.fsm = .sent → s.rdActive = false → s.cmd = encode (.seta o n) → s.txf = addrTxf o n →
    s.txlen = 11#4 → s.rxq = s.txf.toList →
    ∃ t : State, engineRun (engineFuel s) s = .next t ∧ t.fsm = .pwrcyc ∧ t.pwr = true
      ∧ t.ok = (!s.cfg.compatSilentSuccess) ∧ t.rxq = s.txf.toList.drop 6

/-! ## Host registers -/

/-- STATUS bit by bit (10_state.md R19): the flags at their places, 0 at every other one; a write to it changes nothing. -/
def Obligations.StatusBits : Prop :=
  (∀ (s : State) (w : Word), runEvent (.hostWrite 0x01#8 w) s = .next s)
  ∧ ∀ (s : State) (k : Nat), (readReg s 0x01#8).getLsbD k =
    match k with
    | 0 => s.busy
    | 1 => s.done
    | 2 => s.ok
    | 3 => s.tmo
    | 4 => s.pwr
    | 5 => s.short
    | 8 => s.errBusy
    | 9 => s.errIllegal
    | 10 => s.errOperand
    | 11 => s.rxovf
    | _ => false

/-- STATE field by field (10_state.md R20): the code of `state`, the opcode of CMD, RD_ACTIVE, zeros, CH; a write to it
changes nothing. -/
def Obligations.StateFields : Prop :=
  (∀ (s : State) (w : Word), runEvent (.hostWrite 0x02#8 w) s = .next s)
  ∧ ∀ s : State, (readReg s 0x02#8).toNat =
    s.fsm.code.toNat + 2 ^ 8 * (s.cmd.toNat / 2 ^ 28) + 2 ^ 12 * s.rdActive.toNat + 2 ^ 24 * s.ch.toNat

/-- The codes of `state` by name (10_state.md R13), which tell the states apart, and BUSY as a function of `state` (R14):
1 in SENT, AH1 to AH3, APAY, VERIFY, READING, ACK0 to ACK5 and PWRCYC, 0 in IDLE, SUCCESS and TIMEOUT. -/
def Obligations.StateCodesAndBusy : Prop :=
  ((FsmState.code .idle = 0x00#8 ∧ FsmState.code .sent = 0x01#8 ∧ FsmState.code .ah1 = 0x02#8
      ∧ FsmState.code .ah2 = 0x03#8 ∧ FsmState.code .ah3 = 0x04#8 ∧ FsmState.code .apay = 0x05#8
      ∧ FsmState.code .verify = 0x06#8 ∧ FsmState.code .success = 0x07#8 ∧ FsmState.code .timeout = 0x08#8
      ∧ FsmState.code .reading = 0x09#8 ∧ FsmState.code .pwrcyc = 0x18#8
      ∧ ∀ k : Fin 6, (FsmState.code (.ack k)).toNat = 0x10 + k.val)
    ∧ ∀ f g : FsmState, f.code = g.code → f = g)
  ∧ (∀ s : State, s.busy = true ↔ s.fsm = .sent ∨ s.fsm = .ah1 ∨ s.fsm = .ah2 ∨ s.fsm = .ah3 ∨ s.fsm = .apay
      ∨ s.fsm = .verify ∨ s.fsm = .reading ∨ (∃ k, s.fsm = .ack k) ∨ s.fsm = .pwrcyc)
  ∧ (∀ s : State, s.busy = false ↔ s.fsm = .idle ∨ s.fsm = .success ∨ s.fsm = .timeout)

/-- What every index of the host register space reads, STATUS and STATE among them (10_state.md R18 to R20, R27).
BUF_SIZE is at most 64 (00_scope.md R7). -/
def Obligations.RegisterMap : Prop :=
  ∀ s : State, s.cfg.legal = true →
    readReg s 0x00#8 = s.cmd
    ∧ (readReg s 0x01#8).toNat = s.busy.toNat + 2 ^ 1 * s.done.toNat + 2 ^ 2 * s.ok.toNat + 2 ^ 3 * s.tmo.toNat
        + 2 ^ 4 * s.pwr.toNat + 2 ^ 5 * s.short.toNat + 2 ^ 8 * s.errBusy.toNat + 2 ^ 9 * s.errIllegal.toNat
        + 2 ^ 10 * s.errOperand.toNat + 2 ^ 11 * s.rxovf.toNat
    ∧ (readReg s 0x02#8).toNat = s.fsm.code.toNat + 2 ^ 8 * (s.cmd.toNat / 2 ^ 28) + 2 ^ 12 * s.rdActive.toNat
        + 2 ^ 24 * s.ch.toNat
    ∧ readReg s 0x03#8 = s.result
    ∧ (readReg s 0x04#8).toNat = s.crcRaw.toNat * 2 ^ 16 + s.crcOut.toNat
    ∧ (readReg s 0x05#8).toNat = s.count.toNat ∧ (readReg s 0x06#8).toNat = s.resends.toNat
    ∧ readReg s 0x07#8 = s.tStart ∧ readReg s 0x08#8 = s.tLast ∧ readReg s 0x09#8 = s.rdStart
    ∧ (readReg s 0x0A#8).toNat = s.txlen.toNat ∧ readReg s 0x0B#8 = s.now
    ∧ (s.rxq.length < 2 ^ 32 → (readReg s 0x0C#8).toNat = s.rxq.length)
    ∧ (readReg s 0x0D#8).toNat = s.rdN.toNat + 2 ^ 8 * s.rdCount.toNat + 2 ^ 16 * s.rdDl.toNat
    ∧ (∀ k (h : k < 11), (readReg s (BitVec.ofNat 8 (0x10 + k))).toNat = s.txf[k].toNat)
    ∧ (∀ k (h : k < 7), (readReg s (BitVec.ofNat 8 (0x20 + k))).toNat = s.rxf[k].toNat)
    ∧ (∀ k, k < s.cfg.bufSize → (readReg s (BitVec.ofNat 8 (0x40 + k))).toNat = (s.buf.read k).toNat)
    ∧ (∀ i : Byte, i.toNat = 0x0E ∨ i.toNat = 0x0F ∨ (0x1B ≤ i.toNat ∧ i.toNat < 0x20)
        ∨ (0x27 ≤ i.toNat ∧ i.toNat < 0x40) ∨ 0x40 + s.cfg.bufSize ≤ i.toNat → readReg s i = 0x00000000#32)

/-- A host read gives the HOST the word of its index and changes nothing else (10_state.md R26). -/
def Obligations.HostReadHasNoSideEffect : Prop :=
  ∀ (s : State) (i : Byte), runEvent (.hostRead i) s = .next { s with hostData := readReg s i }

/-- A host write to a BUF index keeps bits 7:0 of the word, changes that byte and no other, and reads back zero-extended;
while BUSY it changes only ERR_BUSY (10_state.md R25, 20_memory.md R32). -/
def Obligations.BufWrite : Prop :=
  ∀ (s : State) (k : Nat) (w : Word), s.cfg.legal = true → k < s.cfg.bufSize → s.buf.wf = true →
    (s.busy = true → runEvent (.hostWrite (BitVec.ofNat 8 (0x40 + k)) w) s = .next { s with errBusy := true })
    ∧ (s.busy = false → ∃ m : Memory, m.wf = true
      ∧ (∀ a, (m.read a).toNat = if a = k then w.toNat % 256 else (s.buf.read a).toNat)
      ∧ runEvent (.hostWrite (BitVec.ofNat 8 (0x40 + k)) w) s = .next { s with buf := m }
      ∧ (readReg { s with buf := m } (BitVec.ofNat 8 (0x40 + k))).toNat = w.toNat % 256)

/-- Reserved and read-only indices (10_state.md R27): a read of a reserved index gives 0, a write to a reserved or a
read-only index changes no state, and the bits of STATUS and STATE that read as 0 always do. -/
def Obligations.OtherWritesAreIgnored : Prop :=
  (∀ (s : State) (i : Byte), i.toNat = 0x0E ∨ i.toNat = 0x0F ∨ (0x1B ≤ i.toNat ∧ i.toNat < 0x20)
      ∨ (0x27 ≤ i.toNat ∧ i.toNat < 0x40) ∨ 0x40 + s.cfg.bufSize ≤ i.toNat → readReg s i = 0x00000000#32)
  ∧ (∀ (s : State) (i : Byte) (w : Word), i.toNat ≠ 0 → (i.toNat < 0x40 ∨ 0x40 + s.cfg.bufSize ≤ i.toNat) →
      runEvent (.hostWrite i w) s = .next s)
  ∧ (∀ (s : State) (k : Nat), k = 6 ∨ k = 7 ∨ 12 ≤ k → (readReg s 0x01#8).getLsbD k = false)
  ∧ (∀ (s : State) (k : Nat), 13 ≤ k → k ≤ 23 → (readReg s 0x02#8).getLsbD k = false)

/-! ## Link, clock, reset -/

/-- The RX FIFO (20_memory.md R36): a LINK delivery appends the byte to RXQ, or, with RX_DEPTH bytes there, loses it and
sets RXOVF, and changes nothing else; and no step but RESET takes a byte out, other than an ENGINE step with an active
reader call, which takes at most the head. -/
def Obligations.LinkDelivery : Prop :=
  (∀ (s : State) (b : Byte),
    (s.rxq.length < s.cfg.rxDepth → runEvent (.linkByte b) s = .next { s with rxq := s.rxq ++ [b] })
    ∧ (s.cfg.rxDepth ≤ s.rxq.length → runEvent (.linkByte b) s = .next { s with rxovf := true }))
  ∧ (∀ (s t : State) (e : Event), e ≠ .reset → runEvent e s = .next t →
      t.rxq = s.rxq ∨ (∃ b, e = .linkByte b ∧ t.rxq = s.rxq ++ [b])
        ∨ (e = .engine ∧ s.rdActive = true ∧ ∃ b, s.rxq = b :: t.rxq))

/-- Any number of deliveries that fit keep their order, and any that do not fit are lost (20_memory.md R36). -/
def Obligations.FifoKeepsOrder : Prop :=
  ∀ (bs : List Byte) (s : State), s.rxq.length ≤ s.cfg.rxDepth →
    runEvents (bs.map Event.linkByte) s = .next { s with
      rxq := (s.rxq ++ bs).take s.cfg.rxDepth
      rxovf := s.rxovf || decide (s.cfg.rxDepth < s.rxq.length + bs.length) }

/-- The clock and its wrap (10_state.md R16, 70_reset_and_hazards.md R122): n ticks change only `now`, by n modulo 2^32,
and an elapsed time that does not reach 2^32 grows by exactly n, wherever `now` wraps. -/
def Obligations.ClockTicks : Prop :=
  ∀ (n : Nat) (s : State), ∃ t : State, runEvents (List.replicate n .tick) s = .next t
    ∧ t = { s with now := t.now } ∧ t.now.toNat = (s.now.toNat + n) % 2 ^ 32
    ∧ ∀ t0 : Word, (elapsed s t0).toNat + n < 2 ^ 32 → (elapsed t t0).toNat = (elapsed s t0).toNat + n

/-- The reset step puts every element of 10_state.md R15 to its reset value in any state, and keeps `now`, the frames
already sent and the parameters (70_reset_and_hazards.md R112). -/
def Obligations.ResetStep : Prop :=
  ∀ s : State, ∃ t : State, runEvent .reset s = .next t
    ∧ t.cmd = 0x00000000#32 ∧ t.fsm.code = 0x00#8 ∧ t.busy = false
    ∧ t.done = false ∧ t.ok = false ∧ t.tmo = false ∧ t.pwr = false ∧ t.short = false
    ∧ t.errBusy = false ∧ t.errIllegal = false ∧ t.errOperand = false ∧ t.rxovf = false
    ∧ t.result = 0x00000000#32 ∧ t.crcRaw = 0x0000#16 ∧ t.crcOut = 0x0000#16 ∧ t.count = 0x00#8 ∧ t.resends = 0x0000#16
    ∧ t.tStart = 0x00000000#32 ∧ t.tLast = 0x00000000#32 ∧ t.rdStart = 0x00000000#32 ∧ t.rdActive = false
    ∧ t.rdN = 0x00#8 ∧ t.rdCount = 0x00#8 ∧ t.rdDl = 0x0000#16 ∧ t.ch = 0x00#8
    ∧ (∀ k (h : k < 11), t.txf[k] = 0x00#8) ∧ t.txlen = 0#4 ∧ (∀ k (h : k < 7), t.rxf[k] = 0x00#8)
    ∧ (∀ a, t.buf.read a = 0x00#8) ∧ t.rxq = []
    ∧ t.now = s.now ∧ t.tx = s.tx ∧ t.cfg = s.cfg
    ∧ readReg t 0x01#8 = 0x00000000#32 ∧ readReg t 0x02#8 = 0x00000000#32 ∧ readReg t 0x0C#8 = 0x00000000#32

/-- PWRCYC with its prompt is terminal until RESET (44_address_assigner.md R96): the ENGINE has no step; every CMD or BUF
write raises ErrBusy alone; host reads work; arriving bytes fill RXQ and then set RXOVF; BUSY and PWRCYC stay 1. RESET
leaves it. -/
def Obligations.PwrcycIsTerminal : Prop :=
  ∀ s : State, s.fsm = .pwrcyc → s.pwr = true →
    engineEnabled s = false ∧ runEvent .engine s = .next s
    ∧ (∀ w, runEvent (.hostWrite 0x00#8 w) s = .next { s with errBusy := true })
    ∧ (∀ (i : Byte) w, 0x40 ≤ i.toNat → i.toNat < 0x40 + s.cfg.bufSize →
        runEvent (.hostWrite i w) s = .next { s with errBusy := true })
    ∧ (∀ i, runEvent (.hostRead i) s = .next { s with hostData := readReg s i })
    ∧ (readReg s 0x01#8).getLsbD 0 = true ∧ (readReg s 0x01#8).getLsbD 4 = true
    ∧ (∀ b, runEvent (.linkByte b) s = .next
        (if s.rxq.length < s.cfg.rxDepth then { s with rxq := s.rxq ++ [b] } else { s with rxovf := true }))
    ∧ (∀ (e : Event) (t : State), e ≠ .reset → runEvent e s = .next t → t.fsm = .pwrcyc ∧ t.pwr = true)
    ∧ (∃ t : State, runEvent .reset s = .next t ∧ t.fsm = .idle ∧ t.pwr = false)

/-- While BUSY, no step but RESET changes the command or the frame in TXF; a HOST write changes nothing but ERR_BUSY, and
a HOST read nothing but the HOST's own read data, the model's field `hostData` (20_memory.md R41, 10_state.md R25, R26;
log 5). -/
def Obligations.CommandIsStableWhileBusy : Prop :=
  ∀ (s t : State) (e : Event), s.busy = true → e ≠ .reset → runEvent e s = .next t →
    t.cmd = s.cmd ∧ t.txf = s.txf ∧ t.txlen = s.txlen
    ∧ (∀ i w, e = .hostWrite i w → t = s ∨ t = { s with errBusy := true })
    ∧ (∀ i, e = .hostRead i → t = { s with hostData := t.hostData })

/-- Once BUSY = 0 the ENGINE has no step, and LINK and CLOCK steps change only RXQ, RXOVF, the stream the LINK takes from
and `now` (70_reset_and_hazards.md R116, 30_encoding.md R50). That the LINK takes the oldest frame is the model's choice
(log 7). -/
def Obligations.RestingBlockIsStill : Prop :=
  ∀ (s t : State) (e : Event), s.busy = false → runEvent e s = .next t →
    engineEnabled s = false
    ∧ (e = .engine → t = s)
    ∧ (e = .tick → t = { s with now := s.now + 1#32 })
    ∧ (∀ b, e = .linkByte b → t = { s with rxq := t.rxq, rxovf := t.rxovf })
    ∧ (e = .linkTake → t = { s with tx := s.tx.tail })

/-- Each agent keeps to its own state, in every state, BUSY or not (10_state.md R11, R12, R15 "written by", R16, R26,
20_memory.md R36, R38). The ENGINE writes neither CMD nor TXF, no error bit, not `now`, and appends at most one frame to the
stream. A LINK delivery writes only RXQ and RXOVF, a LINK take only the stream, from which it takes the oldest frame (the
model's choice, log 7), the CLOCK only `now`. A HOST read writes only the HOST's read data (`hostData`, log 5), a HOST
write neither RXQ, RXOVF, `now` nor the stream. No step writes the parameters (log 4), and no event the schedule (`agenda`
and `turn`, log 1, 2). The fields `agenda`, `turn` and `hostData` are the model's own. -/
def Obligations.AgentsKeepToTheirState : Prop :=
  ∀ (s t : State) (e : Event), runEvent e s = .next t → e ≠ .reset →
    t.cfg = s.cfg ∧ t.agenda = s.agenda ∧ t.turn = s.turn
    ∧ (e ≠ .tick → t.now = s.now)
    ∧ (e ≠ .engine → e ≠ .linkTake → t.tx = s.tx)
    ∧ (e = .engine → t.tx = s.tx ∨ ∃ f, t.tx = s.tx ++ [f])
    ∧ ((∀ i, e ≠ .hostRead i) → t.hostData = s.hostData)
    ∧ (e = .engine → t.cmd = s.cmd ∧ t.errBusy = s.errBusy ∧ t.errIllegal = s.errIllegal
        ∧ t.errOperand = s.errOperand ∧ t.rxovf = s.rxovf ∧ t.txf = s.txf ∧ t.txlen = s.txlen)
    ∧ (∀ i w, e = .hostWrite i w → t.rxq = s.rxq ∧ t.rxovf = s.rxovf)
    ∧ (∀ i, e = .hostRead i → t = { s with hostData := t.hostData })
    ∧ (∀ b, e = .linkByte b → t = { s with rxq := t.rxq, rxovf := t.rxovf })
    ∧ (e = .linkTake → t = { s with tx := s.tx.tail })
    ∧ (e = .tick → t = { s with now := s.now + 1#32 })

/-! ## Whole machine -/

/-- The machine after power-up and reset satisfies the invariant, whatever `now` is; so does State.reset (the parameters at
R6's defaults). That the transmit stream is empty at power-up, on which `streamOk` here rests, is the model's choice
(log 7). -/
def Obligations.InvAtReset : Prop :=
  (∀ t : Word, Inv (State.resetAt t) ∧ streamOk (State.resetAt t) = true ∧ timelyOk (State.resetAt t) = true)
  ∧ Inv State.reset

/-- Every step of every agent, in any order, keeps the invariant. -/
def Obligations.InvKeptByEveryStep : Prop := ∀ s t : State, Inv s → step s = .next t → Inv t

/-- Under the invariant no step stops: the block has no fatal path (60_exceptions.md R103), and the model's own faults
never arise (log 8). -/
def Obligations.EveryStepAnswers : Prop := ∀ s : State, Inv s → ∃ t : State, step s = .next t

/-- Every frame the block ever sends is 8 or 11 bytes long and carries its correct trailer (30_encoding.md R55,
40_checksum.md R61, R63). -/
def Obligations.EveryFrameSentIsGood : Prop :=
  ∀ s t : State, Inv s → streamOk s = true → step s = .next t → streamOk t = true

/-- Where the CLOCK ticks only while the ENGINE has no step, a transaction that does not succeed first ends between
OUTER_MS + 1 and OUTER_MS + READ_MS + 1 ms after its SENT step (43_sensor_transaction.md R91, 90_conflicts.md C11). -/
def Obligations.TransactionTimeBound : Prop :=
  ∀ (s t : State) (e : Event), Inv s → timelyOk s = true → eagerTick e s = true → runEvent e s = .next t →
    timelyOk t = true
    ∧ (s.fsm ≠ .timeout → t.fsm = .timeout →
        s.cfg.outerMs.toNat + 1 ≤ age s ∧ age s ≤ s.cfg.outerMs.toNat + s.cfg.readMs.toNat + 1)

/-- With no further byte and no tick, the ENGINE comes to rest within three steps for each waiting byte and four more, so
that the eager schedule's ENGINE phase ends (70_reset_and_hazards.md R115). -/
def Obligations.EngineComesToRest : Prop :=
  ∀ s : State, Inv s → ∃ t : State, engineRun (engineFuel s) s = .next t ∧ engineEnabled t = false ∧ t.now = s.now

/-- With the default deadlines, under the eager schedule and with no byte ever arriving, a transaction sent at `now = t`
sends ten frames, at t, t + 101, ..., t + 909, and ends in TIMEOUT at t + 1010 with RESENDS = 9
(43_sensor_transaction.md R91, 95_test_vectors.md T-ST-1, T-SA-2). -/
def Obligations.SilentTransactionTimesOutAt1010 : Prop :=
  ∀ s : State, s.fsm = .sent → s.rdActive = false → s.rxq = [] → s.resends = 0#16 →
    s.cfg.readMs = 100#16 → s.cfg.resendMs = 100#32 → s.cfg.outerMs = 1000#32 →
    ∃ u v : State, eagerQuiet 1010 s = .next u ∧ u.busy = true ∧ u.now = s.now + 1010#32
      ∧ engineRun (engineFuel u) u = .next v ∧ v.fsm = .timeout ∧ v.now = s.now + 1010#32 ∧ v.resends = 9#16
      ∧ v.tStart = s.now ∧ v.tLast = s.now + 909#32 ∧ v.rxf = s.rxf
      ∧ v.tx = s.tx ++ (List.range 10).map (fun k =>
          { time := s.now + BitVec.ofNat 32 (101 * k), bytes := s.txf.toList.take s.txlen.toNat })
end

