-- ==== Sys2Proof/Laws/Decode.lean ====
section
/-! SUPPORT. The fields of a built command word, and the halves of a 16-bit value. -/

namespace Sys2Proof

theorem opField_encodeFields (op : BitVec 4) (a : Byte) (imm : Half) :
    opField (encodeFields op a imm) = op := by
  unfold opField encodeFields
  ext i hi
  have h1 : ¬ 28 + i < 28 := by omega
  have h2 : ¬ 28 + i < 16 := by omega
  have h3 : 28 + i < 32 := by omega
  have h4 : a.getLsbD (28 + i - 16) = false := BitVec.getLsbD_of_ge _ _ (by omega)
  have h5 : imm.getLsbD (28 + i) = false := BitVec.getLsbD_of_ge _ _ (by omega)
  have h6 : 28 + i - 28 = i := by omega
  simp [h1, h2, h3, h4, h5, h6, hi]

theorem rsvField_encodeFields (op : BitVec 4) (a : Byte) (imm : Half) :
    rsvField (encodeFields op a imm) = 0x0#4 := by
  unfold rsvField encodeFields
  ext i hi
  have h1 : 24 + i < 28 := by omega
  have h4 : a.getLsbD (24 + i - 16) = false := BitVec.getLsbD_of_ge _ _ (by omega)
  have h5 : imm.getLsbD (24 + i) = false := BitVec.getLsbD_of_ge _ _ (by omega)
  simp [h1, h4, h5]

theorem aField_encodeFields (op : BitVec 4) (a : Byte) (imm : Half) :
    aField (encodeFields op a imm) = a := by
  unfold aField encodeFields
  ext i hi
  have h1 : 16 + i < 28 := by omega
  have h2 : ¬ 16 + i < 16 := by omega
  have h3 : 16 + i < 32 := by omega
  simp [h1, h2, h3, hi]

theorem immField_encodeFields (op : BitVec 4) (a : Byte) (imm : Half) :
    immField (encodeFields op a imm) = imm := by
  unfold immField encodeFields
  ext i hi
  have h1 : i < 28 := by omega
  have h3 : i < 32 := by omega
  simp [h1, h3, hi]

/-- A word whose RSV is 0 is built from its own fields. -/
theorem encodeFields_fields (w : Word) (h : rsvField w = 0x0#4) :
    encodeFields (opField w) (aField w) (immField w) = w := by
  have hr : ∀ k, k < 4 → w.getLsbD (24 + k) = false := fun k hk => by
    have := congrArg (fun v => v.getLsbD k) h
    simpa [rsvField, hk] using this
  unfold encodeFields opField aField immField
  ext i hi
  by_cases h16 : i < 16
  · have h28 : i < 28 := by omega
    simp [h16, h28, hi]
  · by_cases h24 : i < 24
    · have h28 : i < 28 := by omega
      have h8 : i - 16 < 8 := by omega
      have e : 16 + (i - 16) = i := by omega
      simp [h16, h28, hi, h8, e]
    · by_cases h28 : i < 28
      · have h8 : ¬ i - 16 < 8 := by omega
        have := hr (i - 24) (by omega)
        rw [show 24 + (i - 24) = i by omega, BitVec.getLsbD_eq_getElem hi] at this
        simp [h16, h28, hi, h8, this]
      · have h8 : ¬ i - 16 < 8 := by omega
        have h4 : i - 28 < 4 := by omega
        have e : 28 + (i - 28) = i := by omega
        simp [h16, h28, hi, h8, h4, e]

/-- Two words with the same fields are the same word. -/
theorem word_ext_fields (v w : Word) (ho : opField v = opField w) (hr : rsvField v = rsvField w)
    (ha : aField v = aField w) (hi : immField v = immField w) : v = w := by
  ext k hk
  by_cases h16 : k < 16
  · simpa [immField, h16, hk] using congrArg (fun x => x.getLsbD k) hi
  · by_cases h24 : k < 24
    · have e : 16 + (k - 16) = k := by omega
      have h8 : k - 16 < 8 := by omega
      simpa [aField, h8, e, hk] using congrArg (fun x => x.getLsbD (k - 16)) ha
    · by_cases h28 : k < 28
      · have e : 24 + (k - 24) = k := by omega
        have h8 : k - 24 < 4 := by omega
        simpa [rsvField, h8, e, hk] using congrArg (fun x => x.getLsbD (k - 24)) hr
      · have e : 28 + (k - 28) = k := by omega
        have h8 : k - 28 < 4 := by omega
        simpa [opField, h8, e, hk] using congrArg (fun x => x.getLsbD (k - 28)) ho

theorem lowHalf_setWidth (n : Byte) : (n.setWidth 16).extractLsb' 0 8 = n := by
  ext i hi
  have : i < 16 := by omega
  simp [hi, this]

theorem highHalf_setWidth (n : Byte) : (n.setWidth 16).extractLsb' 8 8 = 0x00#8 := by
  ext i hi
  simp

/-- A 16-bit value with high byte 0 is its low byte, zero-extended. -/
theorem setWidth_lowHalf (v : Half) (h : v.extractLsb' 8 8 = 0x00#8) : (v.extractLsb' 0 8).setWidth 16 = v := by
  ext i hi
  by_cases h8 : i < 8
  · simp [h8, hi]
  · have := congrArg (fun x => x.getLsbD (i - 8)) h
    have e : 8 + (i - 8) = i := by omega
    have h9 : i - 8 < 8 := by omega
    simp [h9, e, hi] at this
    simp [h8, this]

/-- The opcode of a word as a number. -/
theorem opField_eq_iff (w : Word) (k : BitVec 4) : opField w = k ↔ w.toNat / 2 ^ 28 = k.toNat := by
  have := w.isLt
  rw [← BitVec.toNat_inj]
  simp only [opField, BitVec.extractLsb'_toNat, Nat.shiftRight_eq_div_pow]
  omega

namespace Machine

/-- `u16(hi, lo)` as a number. -/
theorem u16_toNat (hi lo : Byte) : (u16 hi lo).toNat = hi.toNat * 256 + lo.toNat := by
  unfold u16
  rw [BitVec.toNat_append, ← Nat.shiftLeft_add_eq_or_of_lt lo.isLt, Nat.shiftLeft_eq]

/-- The bits of `u16(hi, lo)`. -/
theorem u16_getLsbD (hi lo : Byte) (i : Nat) :
    (u16 hi lo).getLsbD i = if i < 8 then lo.getLsbD i else hi.getLsbD (i - 8) :=
  BitVec.getLsbD_append

@[simp] theorem lowByte_u16 (hi lo : Byte) : lowByte (u16 hi lo) = lo := by
  unfold lowByte
  ext i h
  simp [h, u16_getLsbD]

@[simp] theorem highByte_u16 (hi lo : Byte) : highByte (u16 hi lo) = hi := by
  unfold highByte
  ext i h
  simp [h, u16_getLsbD]

@[simp] theorem u16_halves (v : Half) : u16 (highByte v) (lowByte v) = v := by
  ext i h
  rw [← BitVec.getLsbD_eq_getElem, u16_getLsbD]
  by_cases h8 : i < 8
  · simp [h8, lowByte, h]
  · have e : 8 + (i - 8) = i := by omega
    have h9 : i - 8 < 8 := by omega
    simp [h8, highByte, h9, e, h]

@[simp] theorem lowByte_swap16 (v : Half) : lowByte (swap16 v) = highByte v := lowByte_u16 _ _

@[simp] theorem highByte_swap16 (v : Half) : highByte (swap16 v) = lowByte v := highByte_u16 _ _

@[simp] theorem swap16_swap16 (v : Half) : swap16 (swap16 v) = v := by
  rw [swap16, lowByte_swap16, highByte_swap16, u16_halves]

/-- `u16` is injective. -/
theorem u16_inj (a b c d : Byte) : u16 a b = u16 c d ↔ a = c ∧ b = d := by
  constructor
  · intro h
    exact ⟨by simpa using congrArg highByte h, by simpa using congrArg lowByte h⟩
  · rintro ⟨rfl, rfl⟩
    rfl

@[simp] theorem lowByte_setWidth (n : Byte) : lowByte (n.setWidth 16) = n := lowHalf_setWidth n

end Machine

end Sys2Proof
end

