-- ==== Sys2Proof/Laws/Crc.lean ====
section
/-! SUPPORT. The checksum function: each turn of its loop loses nothing, and the register's own low byte shifts it out. -/

namespace Sys2Proof.Machine

theorem crcBit_even (c : Half) (h : c.getLsbD 0 = false) : crcBit c = c >>> 1 := by
  simp only [crcBit, h, Bool.false_eq_true, if_false]

theorem crcBit_odd (c : Half) (h : c.getLsbD 0 = true) : crcBit c = (c >>> 1) ^^^ 0xA001#16 := by
  simp only [crcBit, h, if_true]

@[simp] theorem crc16_nil : crc16 [] = 0xFFFF#16 := rfl

theorem crc16_append (xs ys : List Byte) : crc16 (xs ++ ys) = ys.foldl crcByte (crc16 xs) := by
  simp [crc16, List.foldl_append]

/-- Bit 15 of the register after a turn is the bit the turn shifted out. -/
theorem crcBit_top (c : Half) : (crcBit c).getLsbD 15 = c.getLsbD 0 := by
  cases h : c.getLsbD 0
  · simp [crcBit_even c h]
  · simp [crcBit_odd c h]

/-- A turn of the loop is injective. -/
theorem crcBit_inj (c d : Half) (h : crcBit c = crcBit d) : c = d := by
  have h0 : c.getLsbD 0 = d.getLsbD 0 := by rw [← crcBit_top, ← crcBit_top, h]
  have hs : c >>> 1 = d >>> 1 := by
    cases hd : d.getLsbD 0
    · rwa [crcBit_even c (h0.trans hd), crcBit_even d hd] at h
    · rw [crcBit_odd c (h0.trans hd), crcBit_odd d hd] at h
      simpa using h
  ext i hi
  rw [← BitVec.getLsbD_eq_getElem, ← BitVec.getLsbD_eq_getElem]
  rcases Nat.eq_zero_or_pos i with rfl | hp
  · exact h0
  · have := congrArg (fun x => x.getLsbD (i - 1)) hs
    have e : 1 + (i - 1) = i := by omega
    simpa [e] using this

/-- Repeating an injective function is injective. -/
theorem repeat_inj {α : Type} (f : α → α) (hf : ∀ a b, f a = f b → a = b) :
    ∀ n a b, Nat.repeat f n a = Nat.repeat f n b → a = b
  | 0, _, _, h => h
  | n + 1, a, b, h => repeat_inj f hf n a b (hf _ _ h)

/-- Two registers that differ still differ after the same byte. -/
theorem crcByte_inj_left (c d : Half) (b : Byte) (h : crcByte c b = crcByte d b) : c = d := by
  have := repeat_inj crcBit crcBit_inj 8 _ _ h
  simpa using this

/-- Two bytes that differ leave the same register in different states. -/
theorem crcByte_inj_right (c : Half) (a b : Byte) (h : crcByte c a = crcByte c b) : a = b := by
  have h1 := repeat_inj crcBit crcBit_inj 8 _ _ h
  have h2 : a.setWidth 16 = b.setWidth 16 := by simpa using h1
  ext i hi
  have := congrArg (fun x => x.getLsbD i) h2
  have h16 : i < 16 := by omega
  simpa [h16, hi] using this

/-- Two registers that differ still differ after the same bytes. -/
theorem foldl_crcByte_inj : ∀ (bs : List Byte) (c d : Half), bs.foldl crcByte c = bs.foldl crcByte d → c = d
  | [], _, _, h => h
  | b :: bs, c, d, h => crcByte_inj_left c d b (foldl_crcByte_inj bs _ _ h)

/-- Turns on a register whose low bits are clear only shift it. -/
theorem crcBit_repeat_shift : ∀ (n : Nat) (c : Half), (∀ i, i < n → c.getLsbD i = false) →
    Nat.repeat crcBit n c = c >>> n
  | 0, c, _ => by simp [Nat.repeat]
  | n + 1, c, h => by
    rw [Nat.repeat, crcBit_repeat_shift n c fun i hi => h i (by omega)]
    rw [crcBit_even _ (by simpa using h n (by omega)), BitVec.shiftRight_add]

/-- The register's own low byte shifts it out: what is left is the high byte. -/
theorem crcByte_lowByte (c : Half) : crcByte c (lowByte c) = (highByte c).setWidth 16 := by
  have hx : ∀ i, (c ^^^ (lowByte c).setWidth 16).getLsbD i = (!decide (i < 8) && c.getLsbD i) := by
    intro i
    by_cases h8 : i < 8
    · have h16 : i < 16 := by omega
      simp [lowByte, h8, h16]
    · simp [lowByte, h8]
  unfold crcByte
  rw [crcBit_repeat_shift 8 _ fun i hi => by simp [hx, hi]]
  ext i hi
  rw [← BitVec.getLsbD_eq_getElem, BitVec.getLsbD_ushiftRight, hx]
  by_cases h8 : i < 8
  · simp [highByte, h8]
  · simp [highByte, h8, BitVec.getLsbD_of_ge c (8 + i) (by omega)]

/-- A register whose high byte is clear is emptied by its low byte. -/
theorem crcByte_cancel (b : Byte) : crcByte (b.setWidth 16) b = 0x0000#16 := by
  unfold crcByte
  rw [BitVec.xor_self]
  rfl

end Sys2Proof.Machine
end

