-- ==== Sys2Proof/Laws/Memory.lean ====
section
/-! SUPPORT. The laws of byte memory: read after write, and the canonical form. -/

namespace Sys2Proof.Machine

@[simp] theorem Memory.read_nil (a : Nat) : Memory.read [] a = Memory.unlisted := rfl

theorem Memory.wf_cons (c : Host.Cell) (m : Memory) :
    Memory.wf (c :: m) = true ↔ c.2 ≠ Memory.unlisted ∧ (∀ d ∈ m, c.1 < d.1) ∧ Memory.wf m = true := by
  simp [Memory.wf, and_assoc]

/-- An address below every listed one reads as unlisted. -/
theorem Memory.read_of_lt : ∀ (m : Memory) (a : Nat), (∀ d ∈ m, a < d.1) → m.read a = Memory.unlisted
  | [], _, _ => rfl
  | c :: m, a, h => by
    have hc : a < c.1 := h c (by simp)
    have : ¬ c.1 = a := by omega
    simp only [Memory.read, this, if_false]
    exact Memory.read_of_lt m a fun d hd => h d (by simp [hd])

/-- A read after a write to the same address gives the value written. -/
theorem Memory.read_write_same : ∀ (m : Memory) (a : Nat) (v : Byte), m.wf = true → (m.write a v).read a = v
  | [], a, v, _ => by
    by_cases hv : v = Memory.unlisted <;> simp [Memory.write, Memory.read, hv]
  | c :: m, a, v, h => by
    obtain ⟨-, hlt, hm⟩ := (Memory.wf_cons c m).1 h
    by_cases h1 : a < c.1
    · have hne : ¬ c.1 = a := by omega
      have hread : Memory.read m a = Memory.unlisted :=
        Memory.read_of_lt m a fun d hd => by have := hlt d hd; omega
      by_cases hv : v = Memory.unlisted <;> simp [Memory.write, Memory.read, h1, hv, hne, hread]
    · by_cases h2 : a = c.1
      · subst h2
        have hread := Memory.read_of_lt m c.1 hlt
        by_cases hv : v = Memory.unlisted <;> simp [Memory.write, Memory.read, hv, hread]
      · have hne : ¬ c.1 = a := fun e => h2 e.symm
        simp only [Memory.write, h1, h2, if_false, Memory.read, hne]
        exact Memory.read_write_same m a v hm

/-- A write leaves every other address alone. -/
theorem Memory.read_write_other : ∀ (m : Memory) (a b : Nat) (v : Byte), m.wf = true → b ≠ a →
    (m.write a v).read b = m.read b
  | [], a, b, v, _, hb => by
    by_cases hv : v = Memory.unlisted <;> simp [Memory.write, Memory.read, hv, hb.symm]
  | c :: m, a, b, v, h, hb => by
    obtain ⟨-, hlt, hm⟩ := (Memory.wf_cons c m).1 h
    by_cases h1 : a < c.1
    · by_cases hv : v = Memory.unlisted <;> simp [Memory.write, Memory.read, h1, hv, hb.symm]
    · by_cases h2 : a = c.1
      · subst h2
        by_cases hv : v = Memory.unlisted <;> simp [Memory.write, Memory.read, hv, hb.symm]
      · simp only [Memory.write, h1, h2, if_false, Memory.read]
        rw [Memory.read_write_other m a b v hm hb]

/-- One law for both: what an address reads after a write. -/
theorem Memory.read_write (m : Memory) (a b : Nat) (v : Byte) (h : m.wf = true) :
    (m.write a v).read b = if b = a then v else m.read b := by
  by_cases hb : b = a
  · subst hb; simp [Memory.read_write_same m b v h]
  · simp [hb, Memory.read_write_other m a b v h hb]

/-- A bound on the listed addresses survives a write below it. -/
theorem Memory.forall_write (p : Nat → Prop) : ∀ (m : Memory) (a : Nat) (v : Byte), (∀ d ∈ m, p d.1) → p a →
    ∀ d ∈ m.write a v, p d.1
  | [], a, v, _, ha => by
    by_cases hv : v = Memory.unlisted <;> simp [Memory.write, hv, ha]
  | c :: m, a, v, h, ha => by
    have hc := h c (by simp)
    have hm : ∀ d ∈ m, p d.1 := fun d hd => h d (by simp [hd])
    intro d hd
    by_cases h1 : a < c.1
    · by_cases hv : v = Memory.unlisted
      · simp only [Memory.write, h1, hv, if_true] at hd
        exact h d hd
      · simp only [Memory.write, h1, hv, if_true, if_false, List.mem_cons] at hd
        rcases hd with rfl | rfl | hd
        · exact ha
        · exact hc
        · exact hm d hd
    · by_cases h2 : a = c.1
      · by_cases hv : v = Memory.unlisted
        · simp only [Memory.write, h2, hv, Nat.lt_irrefl, if_true, if_false] at hd
          exact hm d hd
        · simp only [Memory.write, h2, hv, Nat.lt_irrefl, if_true, if_false, List.mem_cons] at hd
          rcases hd with rfl | hd
          · exact hc
          · exact hm d hd
      · simp only [Memory.write, h1, h2, if_false, List.mem_cons] at hd
        rcases hd with rfl | hd
        · exact hc
        · exact Memory.forall_write p m a v hm ha d hd

/-- A write keeps the canonical form. -/
theorem Memory.write_wf : ∀ (m : Memory) (a : Nat) (v : Byte), m.wf = true → (m.write a v).wf = true
  | [], a, v, _ => by
    by_cases hv : v = Memory.unlisted <;> simp [Memory.write, Memory.wf, hv]
  | c :: m, a, v, h => by
    obtain ⟨hc, hlt, hm⟩ := (Memory.wf_cons c m).1 h
    by_cases h1 : a < c.1
    · by_cases hv : v = Memory.unlisted
      · simpa only [Memory.write, h1, hv, if_true] using h
      · simp only [Memory.write, h1, hv, if_true, if_false]
        refine (Memory.wf_cons _ _).2 ⟨hv, ?_, h⟩
        intro d hd
        rcases List.mem_cons.1 hd with rfl | hd
        · exact h1
        · exact Nat.lt_trans h1 (hlt d hd)
    · by_cases h2 : a = c.1
      · by_cases hv : v = Memory.unlisted
        · simpa only [Memory.write, h2, hv, Nat.lt_irrefl, if_true, if_false] using hm
        · simp only [Memory.write, h2, hv, Nat.lt_irrefl, if_true, if_false]
          exact (Memory.wf_cons _ _).2 ⟨hv, hlt, hm⟩
      · simp only [Memory.write, h1, h2, if_false]
        refine (Memory.wf_cons _ _).2 ⟨hc, ?_, Memory.write_wf m a v hm⟩
        exact Memory.forall_write (fun k => c.1 < k) m a v hlt (by omega)

/-- A write below `n` keeps every listed address below `n`. -/
theorem Memory.write_below (n : Nat) (m : Memory) (a : Nat) (v : Byte) (h : m.below n = true) (ha : a < n) :
    (m.write a v).below n = true := by
  simp only [Memory.below, List.all_eq_true, decide_eq_true_eq] at h ⊢
  exact Memory.forall_write (fun k => k < n) m a v h ha

/-- Two memories in canonical form that read alike are the same data. -/
theorem Memory.eq_of_read : ∀ m n : Memory, m.wf = true → n.wf = true → (∀ a, m.read a = n.read a) → m = n
  | [], [], _, _, _ => rfl
  | [], d :: n, _, hn, h => by
    have := h d.1
    rw [Memory.read_nil, Memory.read, if_pos rfl] at this
    exact absurd this.symm ((Memory.wf_cons d n).1 hn).1
  | c :: m, [], hm, _, h => by
    have := h c.1
    rw [Memory.read_nil, Memory.read, if_pos rfl] at this
    exact absurd this ((Memory.wf_cons c m).1 hm).1
  | c :: m, d :: n, hm, hn, h => by
    obtain ⟨hc, hcm, hm'⟩ := (Memory.wf_cons c m).1 hm
    obtain ⟨hd, hdn, hn'⟩ := (Memory.wf_cons d n).1 hn
    have hle : ¬ c.1 < d.1 := fun hlt => by
      have := h c.1
      rw [Memory.read, if_pos rfl, Memory.read_of_lt (d :: n) c.1 fun e he => by
        rcases List.mem_cons.1 he with rfl | he
        · exact hlt
        · exact Nat.lt_trans hlt (hdn e he)] at this
      exact hc this
    have hge : ¬ d.1 < c.1 := fun hlt => by
      have := h d.1
      rw [Memory.read_of_lt (c :: m) d.1 fun e he => by
        rcases List.mem_cons.1 he with rfl | he
        · exact hlt
        · exact Nat.lt_trans hlt (hcm e he), Memory.read, if_pos rfl] at this
      exact hd this.symm
    have ha : c.1 = d.1 := by omega
    have hv : c.2 = d.2 := by
      have := h c.1
      rwa [Memory.read, if_pos rfl, Memory.read, if_pos ha.symm] at this
    have htail : m = n := Memory.eq_of_read m n hm' hn' fun a => by
      by_cases he : c.1 = a
      · rw [Memory.read_of_lt m a (he ▸ hcm), Memory.read_of_lt n a (he ▸ ha ▸ hdn)]
      · have := h a
        rwa [Memory.read, if_neg he, Memory.read, if_neg (ha ▸ he)] at this
    rw [htail, Prod.ext ha hv]

end Sys2Proof.Machine
end

