-- ==== Sys2Proof/Laws/State.lean ====
section
/-! SUPPORT. One lemma per field for each named update of the state. -/

namespace Sys2Proof.Machine

section

variable (s : State)

@[simp] theorem clearFlags_cmd : (clearFlags s).cmd = s.cmd := rfl
@[simp] theorem clearFlags_fsm : (clearFlags s).fsm = s.fsm := rfl
@[simp] theorem clearFlags_done : (clearFlags s).done = false := rfl
@[simp] theorem clearFlags_ok : (clearFlags s).ok = false := rfl
@[simp] theorem clearFlags_tmo : (clearFlags s).tmo = false := rfl
@[simp] theorem clearFlags_pwr : (clearFlags s).pwr = s.pwr := rfl
@[simp] theorem clearFlags_short : (clearFlags s).short = false := rfl
@[simp] theorem clearFlags_errBusy : (clearFlags s).errBusy = s.errBusy := rfl
@[simp] theorem clearFlags_errIllegal : (clearFlags s).errIllegal = s.errIllegal := rfl
@[simp] theorem clearFlags_errOperand : (clearFlags s).errOperand = s.errOperand := rfl
@[simp] theorem clearFlags_rxovf : (clearFlags s).rxovf = s.rxovf := rfl
@[simp] theorem clearFlags_result : (clearFlags s).result = s.result := rfl
@[simp] theorem clearFlags_crcRaw : (clearFlags s).crcRaw = s.crcRaw := rfl
@[simp] theorem clearFlags_crcOut : (clearFlags s).crcOut = s.crcOut := rfl
@[simp] theorem clearFlags_count : (clearFlags s).count = s.count := rfl
@[simp] theorem clearFlags_resends : (clearFlags s).resends = s.resends := rfl
@[simp] theorem clearFlags_tStart : (clearFlags s).tStart = s.tStart := rfl
@[simp] theorem clearFlags_tLast : (clearFlags s).tLast = s.tLast := rfl
@[simp] theorem clearFlags_rdActive : (clearFlags s).rdActive = s.rdActive := rfl
@[simp] theorem clearFlags_rdStart : (clearFlags s).rdStart = s.rdStart := rfl
@[simp] theorem clearFlags_rdN : (clearFlags s).rdN = s.rdN := rfl
@[simp] theorem clearFlags_rdCount : (clearFlags s).rdCount = s.rdCount := rfl
@[simp] theorem clearFlags_rdDl : (clearFlags s).rdDl = s.rdDl := rfl
@[simp] theorem clearFlags_ch : (clearFlags s).ch = s.ch := rfl
@[simp] theorem clearFlags_txf : (clearFlags s).txf = s.txf := rfl
@[simp] theorem clearFlags_txlen : (clearFlags s).txlen = s.txlen := rfl
@[simp] theorem clearFlags_rxf : (clearFlags s).rxf = s.rxf := rfl
@[simp] theorem clearFlags_buf : (clearFlags s).buf = s.buf := rfl
@[simp] theorem clearFlags_rxq : (clearFlags s).rxq = s.rxq := rfl
@[simp] theorem clearFlags_now : (clearFlags s).now = s.now := rfl
@[simp] theorem clearFlags_tx : (clearFlags s).tx = s.tx := rfl
@[simp] theorem clearFlags_cfg : (clearFlags s).cfg = s.cfg := rfl
@[simp] theorem clearFlags_agenda : (clearFlags s).agenda = s.agenda := rfl
@[simp] theorem clearFlags_turn : (clearFlags s).turn = s.turn := rfl
@[simp] theorem clearFlags_hostData : (clearFlags s).hostData = s.hostData := rfl

@[simp] theorem finishIdle_cmd (b : Bool) : (finishIdle b s).cmd = s.cmd := rfl
@[simp] theorem finishIdle_fsm (b : Bool) : (finishIdle b s).fsm = .idle := rfl
@[simp] theorem finishIdle_done (b : Bool) : (finishIdle b s).done = true := rfl
@[simp] theorem finishIdle_ok (b : Bool) : (finishIdle b s).ok = b := rfl
@[simp] theorem finishIdle_tmo (b : Bool) : (finishIdle b s).tmo = s.tmo := rfl
@[simp] theorem finishIdle_pwr (b : Bool) : (finishIdle b s).pwr = s.pwr := rfl
@[simp] theorem finishIdle_short (b : Bool) : (finishIdle b s).short = s.short := rfl
@[simp] theorem finishIdle_errBusy (b : Bool) : (finishIdle b s).errBusy = s.errBusy := rfl
@[simp] theorem finishIdle_errIllegal (b : Bool) : (finishIdle b s).errIllegal = s.errIllegal := rfl
@[simp] theorem finishIdle_errOperand (b : Bool) : (finishIdle b s).errOperand = s.errOperand := rfl
@[simp] theorem finishIdle_rxovf (b : Bool) : (finishIdle b s).rxovf = s.rxovf := rfl
@[simp] theorem finishIdle_result (b : Bool) : (finishIdle b s).result = s.result := rfl
@[simp] theorem finishIdle_crcRaw (b : Bool) : (finishIdle b s).crcRaw = s.crcRaw := rfl
@[simp] theorem finishIdle_crcOut (b : Bool) : (finishIdle b s).crcOut = s.crcOut := rfl
@[simp] theorem finishIdle_count (b : Bool) : (finishIdle b s).count = s.count := rfl
@[simp] theorem finishIdle_resends (b : Bool) : (finishIdle b s).resends = s.resends := rfl
@[simp] theorem finishIdle_tStart (b : Bool) : (finishIdle b s).tStart = s.tStart := rfl
@[simp] theorem finishIdle_tLast (b : Bool) : (finishIdle b s).tLast = s.tLast := rfl
@[simp] theorem finishIdle_rdActive (b : Bool) : (finishIdle b s).rdActive = s.rdActive := rfl
@[simp] theorem finishIdle_rdStart (b : Bool) : (finishIdle b s).rdStart = s.rdStart := rfl
@[simp] theorem finishIdle_rdN (b : Bool) : (finishIdle b s).rdN = s.rdN := rfl
@[simp] theorem finishIdle_rdCount (b : Bool) : (finishIdle b s).rdCount = s.rdCount := rfl
@[simp] theorem finishIdle_rdDl (b : Bool) : (finishIdle b s).rdDl = s.rdDl := rfl
@[simp] theorem finishIdle_ch (b : Bool) : (finishIdle b s).ch = s.ch := rfl
@[simp] theorem finishIdle_txf (b : Bool) : (finishIdle b s).txf = s.txf := rfl
@[simp] theorem finishIdle_txlen (b : Bool) : (finishIdle b s).txlen = s.txlen := rfl
@[simp] theorem finishIdle_rxf (b : Bool) : (finishIdle b s).rxf = s.rxf := rfl
@[simp] theorem finishIdle_buf (b : Bool) : (finishIdle b s).buf = s.buf := rfl
@[simp] theorem finishIdle_rxq (b : Bool) : (finishIdle b s).rxq = s.rxq := rfl
@[simp] theorem finishIdle_now (b : Bool) : (finishIdle b s).now = s.now := rfl
@[simp] theorem finishIdle_tx (b : Bool) : (finishIdle b s).tx = s.tx := rfl
@[simp] theorem finishIdle_cfg (b : Bool) : (finishIdle b s).cfg = s.cfg := rfl
@[simp] theorem finishIdle_agenda (b : Bool) : (finishIdle b s).agenda = s.agenda := rfl
@[simp] theorem finishIdle_turn (b : Bool) : (finishIdle b s).turn = s.turn := rfl
@[simp] theorem finishIdle_hostData (b : Bool) : (finishIdle b s).hostData = s.hostData := rfl

@[simp] theorem setCrc_cmd (c : Half) : (setCrc c s).cmd = s.cmd := rfl
@[simp] theorem setCrc_fsm (c : Half) : (setCrc c s).fsm = s.fsm := rfl
@[simp] theorem setCrc_done (c : Half) : (setCrc c s).done = s.done := rfl
@[simp] theorem setCrc_ok (c : Half) : (setCrc c s).ok = s.ok := rfl
@[simp] theorem setCrc_tmo (c : Half) : (setCrc c s).tmo = s.tmo := rfl
@[simp] theorem setCrc_pwr (c : Half) : (setCrc c s).pwr = s.pwr := rfl
@[simp] theorem setCrc_short (c : Half) : (setCrc c s).short = s.short := rfl
@[simp] theorem setCrc_errBusy (c : Half) : (setCrc c s).errBusy = s.errBusy := rfl
@[simp] theorem setCrc_errIllegal (c : Half) : (setCrc c s).errIllegal = s.errIllegal := rfl
@[simp] theorem setCrc_errOperand (c : Half) : (setCrc c s).errOperand = s.errOperand := rfl
@[simp] theorem setCrc_rxovf (c : Half) : (setCrc c s).rxovf = s.rxovf := rfl
@[simp] theorem setCrc_result (c : Half) : (setCrc c s).result = s.result := rfl
@[simp] theorem setCrc_crcRaw (c : Half) : (setCrc c s).crcRaw = c := rfl
@[simp] theorem setCrc_crcOut (c : Half) : (setCrc c s).crcOut = swap16 c := rfl
@[simp] theorem setCrc_count (c : Half) : (setCrc c s).count = s.count := rfl
@[simp] theorem setCrc_resends (c : Half) : (setCrc c s).resends = s.resends := rfl
@[simp] theorem setCrc_tStart (c : Half) : (setCrc c s).tStart = s.tStart := rfl
@[simp] theorem setCrc_tLast (c : Half) : (setCrc c s).tLast = s.tLast := rfl
@[simp] theorem setCrc_rdActive (c : Half) : (setCrc c s).rdActive = s.rdActive := rfl
@[simp] theorem setCrc_rdStart (c : Half) : (setCrc c s).rdStart = s.rdStart := rfl
@[simp] theorem setCrc_rdN (c : Half) : (setCrc c s).rdN = s.rdN := rfl
@[simp] theorem setCrc_rdCount (c : Half) : (setCrc c s).rdCount = s.rdCount := rfl
@[simp] theorem setCrc_rdDl (c : Half) : (setCrc c s).rdDl = s.rdDl := rfl
@[simp] theorem setCrc_ch (c : Half) : (setCrc c s).ch = s.ch := rfl
@[simp] theorem setCrc_txf (c : Half) : (setCrc c s).txf = s.txf := rfl
@[simp] theorem setCrc_txlen (c : Half) : (setCrc c s).txlen = s.txlen := rfl
@[simp] theorem setCrc_rxf (c : Half) : (setCrc c s).rxf = s.rxf := rfl
@[simp] theorem setCrc_buf (c : Half) : (setCrc c s).buf = s.buf := rfl
@[simp] theorem setCrc_rxq (c : Half) : (setCrc c s).rxq = s.rxq := rfl
@[simp] theorem setCrc_now (c : Half) : (setCrc c s).now = s.now := rfl
@[simp] theorem setCrc_tx (c : Half) : (setCrc c s).tx = s.tx := rfl
@[simp] theorem setCrc_cfg (c : Half) : (setCrc c s).cfg = s.cfg := rfl
@[simp] theorem setCrc_agenda (c : Half) : (setCrc c s).agenda = s.agenda := rfl
@[simp] theorem setCrc_turn (c : Half) : (setCrc c s).turn = s.turn := rfl
@[simp] theorem setCrc_hostData (c : Half) : (setCrc c s).hostData = s.hostData := rfl

@[simp] theorem bufStore_cmd (a : Nat) (v : Byte) : (bufStore a v s).cmd = s.cmd := rfl
@[simp] theorem bufStore_fsm (a : Nat) (v : Byte) : (bufStore a v s).fsm = s.fsm := rfl
@[simp] theorem bufStore_done (a : Nat) (v : Byte) : (bufStore a v s).done = s.done := rfl
@[simp] theorem bufStore_ok (a : Nat) (v : Byte) : (bufStore a v s).ok = s.ok := rfl
@[simp] theorem bufStore_tmo (a : Nat) (v : Byte) : (bufStore a v s).tmo = s.tmo := rfl
@[simp] theorem bufStore_pwr (a : Nat) (v : Byte) : (bufStore a v s).pwr = s.pwr := rfl
@[simp] theorem bufStore_short (a : Nat) (v : Byte) : (bufStore a v s).short = s.short := rfl
@[simp] theorem bufStore_errBusy (a : Nat) (v : Byte) : (bufStore a v s).errBusy = s.errBusy := rfl
@[simp] theorem bufStore_errIllegal (a : Nat) (v : Byte) : (bufStore a v s).errIllegal = s.errIllegal := rfl
@[simp] theorem bufStore_errOperand (a : Nat) (v : Byte) : (bufStore a v s).errOperand = s.errOperand := rfl
@[simp] theorem bufStore_rxovf (a : Nat) (v : Byte) : (bufStore a v s).rxovf = s.rxovf := rfl
@[simp] theorem bufStore_result (a : Nat) (v : Byte) : (bufStore a v s).result = s.result := rfl
@[simp] theorem bufStore_crcRaw (a : Nat) (v : Byte) : (bufStore a v s).crcRaw = s.crcRaw := rfl
@[simp] theorem bufStore_crcOut (a : Nat) (v : Byte) : (bufStore a v s).crcOut = s.crcOut := rfl
@[simp] theorem bufStore_count (a : Nat) (v : Byte) : (bufStore a v s).count = s.count := rfl
@[simp] theorem bufStore_resends (a : Nat) (v : Byte) : (bufStore a v s).resends = s.resends := rfl
@[simp] theorem bufStore_tStart (a : Nat) (v : Byte) : (bufStore a v s).tStart = s.tStart := rfl
@[simp] theorem bufStore_tLast (a : Nat) (v : Byte) : (bufStore a v s).tLast = s.tLast := rfl
@[simp] theorem bufStore_rdActive (a : Nat) (v : Byte) : (bufStore a v s).rdActive = s.rdActive := rfl
@[simp] theorem bufStore_rdStart (a : Nat) (v : Byte) : (bufStore a v s).rdStart = s.rdStart := rfl
@[simp] theorem bufStore_rdN (a : Nat) (v : Byte) : (bufStore a v s).rdN = s.rdN := rfl
@[simp] theorem bufStore_rdCount (a : Nat) (v : Byte) : (bufStore a v s).rdCount = s.rdCount := rfl
@[simp] theorem bufStore_rdDl (a : Nat) (v : Byte) : (bufStore a v s).rdDl = s.rdDl := rfl
@[simp] theorem bufStore_ch (a : Nat) (v : Byte) : (bufStore a v s).ch = s.ch := rfl
@[simp] theorem bufStore_txf (a : Nat) (v : Byte) : (bufStore a v s).txf = s.txf := rfl
@[simp] theorem bufStore_txlen (a : Nat) (v : Byte) : (bufStore a v s).txlen = s.txlen := rfl
@[simp] theorem bufStore_rxf (a : Nat) (v : Byte) : (bufStore a v s).rxf = s.rxf := rfl
@[simp] theorem bufStore_buf (a : Nat) (v : Byte) : (bufStore a v s).buf = s.buf.write a v := rfl
@[simp] theorem bufStore_rxq (a : Nat) (v : Byte) : (bufStore a v s).rxq = s.rxq := rfl
@[simp] theorem bufStore_now (a : Nat) (v : Byte) : (bufStore a v s).now = s.now := rfl
@[simp] theorem bufStore_tx (a : Nat) (v : Byte) : (bufStore a v s).tx = s.tx := rfl
@[simp] theorem bufStore_cfg (a : Nat) (v : Byte) : (bufStore a v s).cfg = s.cfg := rfl
@[simp] theorem bufStore_agenda (a : Nat) (v : Byte) : (bufStore a v s).agenda = s.agenda := rfl
@[simp] theorem bufStore_turn (a : Nat) (v : Byte) : (bufStore a v s).turn = s.turn := rfl
@[simp] theorem bufStore_hostData (a : Nat) (v : Byte) : (bufStore a v s).hostData = s.hostData := rfl

@[simp] theorem transmit_cmd : (transmit s).cmd = s.cmd := rfl
@[simp] theorem transmit_fsm : (transmit s).fsm = s.fsm := rfl
@[simp] theorem transmit_done : (transmit s).done = s.done := rfl
@[simp] theorem transmit_ok : (transmit s).ok = s.ok := rfl
@[simp] theorem transmit_tmo : (transmit s).tmo = s.tmo := rfl
@[simp] theorem transmit_pwr : (transmit s).pwr = s.pwr := rfl
@[simp] theorem transmit_short : (transmit s).short = s.short := rfl
@[simp] theorem transmit_errBusy : (transmit s).errBusy = s.errBusy := rfl
@[simp] theorem transmit_errIllegal : (transmit s).errIllegal = s.errIllegal := rfl
@[simp] theorem transmit_errOperand : (transmit s).errOperand = s.errOperand := rfl
@[simp] theorem transmit_rxovf : (transmit s).rxovf = s.rxovf := rfl
@[simp] theorem transmit_result : (transmit s).result = s.result := rfl
@[simp] theorem transmit_crcRaw : (transmit s).crcRaw = s.crcRaw := rfl
@[simp] theorem transmit_crcOut : (transmit s).crcOut = s.crcOut := rfl
@[simp] theorem transmit_count : (transmit s).count = s.count := rfl
@[simp] theorem transmit_resends : (transmit s).resends = s.resends := rfl
@[simp] theorem transmit_tStart : (transmit s).tStart = s.tStart := rfl
@[simp] theorem transmit_tLast : (transmit s).tLast = s.tLast := rfl
@[simp] theorem transmit_rdActive : (transmit s).rdActive = s.rdActive := rfl
@[simp] theorem transmit_rdStart : (transmit s).rdStart = s.rdStart := rfl
@[simp] theorem transmit_rdN : (transmit s).rdN = s.rdN := rfl
@[simp] theorem transmit_rdCount : (transmit s).rdCount = s.rdCount := rfl
@[simp] theorem transmit_rdDl : (transmit s).rdDl = s.rdDl := rfl
@[simp] theorem transmit_ch : (transmit s).ch = s.ch := rfl
@[simp] theorem transmit_txf : (transmit s).txf = s.txf := rfl
@[simp] theorem transmit_txlen : (transmit s).txlen = s.txlen := rfl
@[simp] theorem transmit_rxf : (transmit s).rxf = s.rxf := rfl
@[simp] theorem transmit_buf : (transmit s).buf = s.buf := rfl
@[simp] theorem transmit_rxq : (transmit s).rxq = s.rxq := rfl
@[simp] theorem transmit_now : (transmit s).now = s.now := rfl
@[simp] theorem transmit_tx : (transmit s).tx = s.tx ++ [{ time := s.now, bytes := s.txf.toList.take s.txlen.toNat }] := rfl
@[simp] theorem transmit_cfg : (transmit s).cfg = s.cfg := rfl
@[simp] theorem transmit_agenda : (transmit s).agenda = s.agenda := rfl
@[simp] theorem transmit_turn : (transmit s).turn = s.turn := rfl
@[simp] theorem transmit_hostData : (transmit s).hostData = s.hostData := rfl

@[simp] theorem linkTakeFrame_cmd : (linkTakeFrame s).cmd = s.cmd := rfl
@[simp] theorem linkTakeFrame_fsm : (linkTakeFrame s).fsm = s.fsm := rfl
@[simp] theorem linkTakeFrame_done : (linkTakeFrame s).done = s.done := rfl
@[simp] theorem linkTakeFrame_ok : (linkTakeFrame s).ok = s.ok := rfl
@[simp] theorem linkTakeFrame_tmo : (linkTakeFrame s).tmo = s.tmo := rfl
@[simp] theorem linkTakeFrame_pwr : (linkTakeFrame s).pwr = s.pwr := rfl
@[simp] theorem linkTakeFrame_short : (linkTakeFrame s).short = s.short := rfl
@[simp] theorem linkTakeFrame_errBusy : (linkTakeFrame s).errBusy = s.errBusy := rfl
@[simp] theorem linkTakeFrame_errIllegal : (linkTakeFrame s).errIllegal = s.errIllegal := rfl
@[simp] theorem linkTakeFrame_errOperand : (linkTakeFrame s).errOperand = s.errOperand := rfl
@[simp] theorem linkTakeFrame_rxovf : (linkTakeFrame s).rxovf = s.rxovf := rfl
@[simp] theorem linkTakeFrame_result : (linkTakeFrame s).result = s.result := rfl
@[simp] theorem linkTakeFrame_crcRaw : (linkTakeFrame s).crcRaw = s.crcRaw := rfl
@[simp] theorem linkTakeFrame_crcOut : (linkTakeFrame s).crcOut = s.crcOut := rfl
@[simp] theorem linkTakeFrame_count : (linkTakeFrame s).count = s.count := rfl
@[simp] theorem linkTakeFrame_resends : (linkTakeFrame s).resends = s.resends := rfl
@[simp] theorem linkTakeFrame_tStart : (linkTakeFrame s).tStart = s.tStart := rfl
@[simp] theorem linkTakeFrame_tLast : (linkTakeFrame s).tLast = s.tLast := rfl
@[simp] theorem linkTakeFrame_rdActive : (linkTakeFrame s).rdActive = s.rdActive := rfl
@[simp] theorem linkTakeFrame_rdStart : (linkTakeFrame s).rdStart = s.rdStart := rfl
@[simp] theorem linkTakeFrame_rdN : (linkTakeFrame s).rdN = s.rdN := rfl
@[simp] theorem linkTakeFrame_rdCount : (linkTakeFrame s).rdCount = s.rdCount := rfl
@[simp] theorem linkTakeFrame_rdDl : (linkTakeFrame s).rdDl = s.rdDl := rfl
@[simp] theorem linkTakeFrame_ch : (linkTakeFrame s).ch = s.ch := rfl
@[simp] theorem linkTakeFrame_txf : (linkTakeFrame s).txf = s.txf := rfl
@[simp] theorem linkTakeFrame_txlen : (linkTakeFrame s).txlen = s.txlen := rfl
@[simp] theorem linkTakeFrame_rxf : (linkTakeFrame s).rxf = s.rxf := rfl
@[simp] theorem linkTakeFrame_buf : (linkTakeFrame s).buf = s.buf := rfl
@[simp] theorem linkTakeFrame_rxq : (linkTakeFrame s).rxq = s.rxq := rfl
@[simp] theorem linkTakeFrame_now : (linkTakeFrame s).now = s.now := rfl
@[simp] theorem linkTakeFrame_tx : (linkTakeFrame s).tx = s.tx.tail := rfl
@[simp] theorem linkTakeFrame_cfg : (linkTakeFrame s).cfg = s.cfg := rfl
@[simp] theorem linkTakeFrame_agenda : (linkTakeFrame s).agenda = s.agenda := rfl
@[simp] theorem linkTakeFrame_turn : (linkTakeFrame s).turn = s.turn := rfl
@[simp] theorem linkTakeFrame_hostData : (linkTakeFrame s).hostData = s.hostData := rfl

@[simp] theorem clockTick_cmd : (clockTick s).cmd = s.cmd := rfl
@[simp] theorem clockTick_fsm : (clockTick s).fsm = s.fsm := rfl
@[simp] theorem clockTick_done : (clockTick s).done = s.done := rfl
@[simp] theorem clockTick_ok : (clockTick s).ok = s.ok := rfl
@[simp] theorem clockTick_tmo : (clockTick s).tmo = s.tmo := rfl
@[simp] theorem clockTick_pwr : (clockTick s).pwr = s.pwr := rfl
@[simp] theorem clockTick_short : (clockTick s).short = s.short := rfl
@[simp] theorem clockTick_errBusy : (clockTick s).errBusy = s.errBusy := rfl
@[simp] theorem clockTick_errIllegal : (clockTick s).errIllegal = s.errIllegal := rfl
@[simp] theorem clockTick_errOperand : (clockTick s).errOperand = s.errOperand := rfl
@[simp] theorem clockTick_rxovf : (clockTick s).rxovf = s.rxovf := rfl
@[simp] theorem clockTick_result : (clockTick s).result = s.result := rfl
@[simp] theorem clockTick_crcRaw : (clockTick s).crcRaw = s.crcRaw := rfl
@[simp] theorem clockTick_crcOut : (clockTick s).crcOut = s.crcOut := rfl
@[simp] theorem clockTick_count : (clockTick s).count = s.count := rfl
@[simp] theorem clockTick_resends : (clockTick s).resends = s.resends := rfl
@[simp] theorem clockTick_tStart : (clockTick s).tStart = s.tStart := rfl
@[simp] theorem clockTick_tLast : (clockTick s).tLast = s.tLast := rfl
@[simp] theorem clockTick_rdActive : (clockTick s).rdActive = s.rdActive := rfl
@[simp] theorem clockTick_rdStart : (clockTick s).rdStart = s.rdStart := rfl
@[simp] theorem clockTick_rdN : (clockTick s).rdN = s.rdN := rfl
@[simp] theorem clockTick_rdCount : (clockTick s).rdCount = s.rdCount := rfl
@[simp] theorem clockTick_rdDl : (clockTick s).rdDl = s.rdDl := rfl
@[simp] theorem clockTick_ch : (clockTick s).ch = s.ch := rfl
@[simp] theorem clockTick_txf : (clockTick s).txf = s.txf := rfl
@[simp] theorem clockTick_txlen : (clockTick s).txlen = s.txlen := rfl
@[simp] theorem clockTick_rxf : (clockTick s).rxf = s.rxf := rfl
@[simp] theorem clockTick_buf : (clockTick s).buf = s.buf := rfl
@[simp] theorem clockTick_rxq : (clockTick s).rxq = s.rxq := rfl
@[simp] theorem clockTick_now : (clockTick s).now = s.now + 1#32 := rfl
@[simp] theorem clockTick_tx : (clockTick s).tx = s.tx := rfl
@[simp] theorem clockTick_cfg : (clockTick s).cfg = s.cfg := rfl
@[simp] theorem clockTick_agenda : (clockTick s).agenda = s.agenda := rfl
@[simp] theorem clockTick_turn : (clockTick s).turn = s.turn := rfl
@[simp] theorem clockTick_hostData : (clockTick s).hostData = s.hostData := rfl

@[simp] theorem enterSent_cmd : (enterSent s).cmd = s.cmd := rfl
@[simp] theorem enterSent_fsm : (enterSent s).fsm = .sent := rfl
@[simp] theorem enterSent_done : (enterSent s).done = s.done := rfl
@[simp] theorem enterSent_ok : (enterSent s).ok = s.ok := rfl
@[simp] theorem enterSent_tmo : (enterSent s).tmo = s.tmo := rfl
@[simp] theorem enterSent_pwr : (enterSent s).pwr = s.pwr := rfl
@[simp] theorem enterSent_short : (enterSent s).short = s.short := rfl
@[simp] theorem enterSent_errBusy : (enterSent s).errBusy = s.errBusy := rfl
@[simp] theorem enterSent_errIllegal : (enterSent s).errIllegal = s.errIllegal := rfl
@[simp] theorem enterSent_errOperand : (enterSent s).errOperand = s.errOperand := rfl
@[simp] theorem enterSent_rxovf : (enterSent s).rxovf = s.rxovf := rfl
@[simp] theorem enterSent_result : (enterSent s).result = s.result := rfl
@[simp] theorem enterSent_crcRaw : (enterSent s).crcRaw = s.crcRaw := rfl
@[simp] theorem enterSent_crcOut : (enterSent s).crcOut = s.crcOut := rfl
@[simp] theorem enterSent_count : (enterSent s).count = s.count := rfl
@[simp] theorem enterSent_resends : (enterSent s).resends = 0x0000#16 := rfl
@[simp] theorem enterSent_tStart : (enterSent s).tStart = s.tStart := rfl
@[simp] theorem enterSent_tLast : (enterSent s).tLast = s.tLast := rfl
@[simp] theorem enterSent_rdActive : (enterSent s).rdActive = s.rdActive := rfl
@[simp] theorem enterSent_rdStart : (enterSent s).rdStart = s.rdStart := rfl
@[simp] theorem enterSent_rdN : (enterSent s).rdN = s.rdN := rfl
@[simp] theorem enterSent_rdCount : (enterSent s).rdCount = s.rdCount := rfl
@[simp] theorem enterSent_rdDl : (enterSent s).rdDl = s.rdDl := rfl
@[simp] theorem enterSent_ch : (enterSent s).ch = s.ch := rfl
@[simp] theorem enterSent_txf : (enterSent s).txf = s.txf := rfl
@[simp] theorem enterSent_txlen : (enterSent s).txlen = s.txlen := rfl
@[simp] theorem enterSent_rxf : (enterSent s).rxf = #v[0, 0, 0, 0, 0, 0, 0] := rfl
@[simp] theorem enterSent_buf : (enterSent s).buf = s.buf := rfl
@[simp] theorem enterSent_rxq : (enterSent s).rxq = s.rxq := rfl
@[simp] theorem enterSent_now : (enterSent s).now = s.now := rfl
@[simp] theorem enterSent_tx : (enterSent s).tx = s.tx := rfl
@[simp] theorem enterSent_cfg : (enterSent s).cfg = s.cfg := rfl
@[simp] theorem enterSent_agenda : (enterSent s).agenda = s.agenda := rfl
@[simp] theorem enterSent_turn : (enterSent s).turn = s.turn := rfl
@[simp] theorem enterSent_hostData : (enterSent s).hostData = s.hostData := rfl

@[simp] theorem latch_cmd (i : Instr) : (latch i s).cmd = encode i := rfl
@[simp] theorem latch_fsm (i : Instr) : (latch i s).fsm = s.fsm := rfl
@[simp] theorem latch_done (i : Instr) : (latch i s).done = false := rfl
@[simp] theorem latch_ok (i : Instr) : (latch i s).ok = false := rfl
@[simp] theorem latch_tmo (i : Instr) : (latch i s).tmo = false := rfl
@[simp] theorem latch_pwr (i : Instr) : (latch i s).pwr = s.pwr := rfl
@[simp] theorem latch_short (i : Instr) : (latch i s).short = false := rfl
@[simp] theorem latch_errBusy (i : Instr) : (latch i s).errBusy = s.errBusy := rfl
@[simp] theorem latch_errIllegal (i : Instr) : (latch i s).errIllegal = s.errIllegal := rfl
@[simp] theorem latch_errOperand (i : Instr) : (latch i s).errOperand = s.errOperand := rfl
@[simp] theorem latch_rxovf (i : Instr) : (latch i s).rxovf = s.rxovf := rfl
@[simp] theorem latch_result (i : Instr) : (latch i s).result = s.result := rfl
@[simp] theorem latch_crcRaw (i : Instr) : (latch i s).crcRaw = s.crcRaw := rfl
@[simp] theorem latch_crcOut (i : Instr) : (latch i s).crcOut = s.crcOut := rfl
@[simp] theorem latch_count (i : Instr) : (latch i s).count = s.count := rfl
@[simp] theorem latch_resends (i : Instr) : (latch i s).resends = s.resends := rfl
@[simp] theorem latch_tStart (i : Instr) : (latch i s).tStart = s.tStart := rfl
@[simp] theorem latch_tLast (i : Instr) : (latch i s).tLast = s.tLast := rfl
@[simp] theorem latch_rdActive (i : Instr) : (latch i s).rdActive = s.rdActive := rfl
@[simp] theorem latch_rdStart (i : Instr) : (latch i s).rdStart = s.rdStart := rfl
@[simp] theorem latch_rdN (i : Instr) : (latch i s).rdN = s.rdN := rfl
@[simp] theorem latch_rdCount (i : Instr) : (latch i s).rdCount = s.rdCount := rfl
@[simp] theorem latch_rdDl (i : Instr) : (latch i s).rdDl = s.rdDl := rfl
@[simp] theorem latch_ch (i : Instr) : (latch i s).ch = s.ch := rfl
@[simp] theorem latch_txf (i : Instr) : (latch i s).txf = s.txf := rfl
@[simp] theorem latch_txlen (i : Instr) : (latch i s).txlen = s.txlen := rfl
@[simp] theorem latch_rxf (i : Instr) : (latch i s).rxf = s.rxf := rfl
@[simp] theorem latch_buf (i : Instr) : (latch i s).buf = s.buf := rfl
@[simp] theorem latch_rxq (i : Instr) : (latch i s).rxq = s.rxq := rfl
@[simp] theorem latch_now (i : Instr) : (latch i s).now = s.now := rfl
@[simp] theorem latch_tx (i : Instr) : (latch i s).tx = s.tx := rfl
@[simp] theorem latch_cfg (i : Instr) : (latch i s).cfg = s.cfg := rfl
@[simp] theorem latch_agenda (i : Instr) : (latch i s).agenda = s.agenda := rfl
@[simp] theorem latch_turn (i : Instr) : (latch i s).turn = s.turn := rfl
@[simp] theorem latch_hostData (i : Instr) : (latch i s).hostData = s.hostData := rfl

@[simp] theorem readerStart_cmd (n : Byte) (dl : Half) : (readerStart n dl s).cmd = s.cmd := rfl
@[simp] theorem readerStart_fsm (n : Byte) (dl : Half) : (readerStart n dl s).fsm = s.fsm := rfl
@[simp] theorem readerStart_done (n : Byte) (dl : Half) : (readerStart n dl s).done = s.done := rfl
@[simp] theorem readerStart_ok (n : Byte) (dl : Half) : (readerStart n dl s).ok = s.ok := rfl
@[simp] theorem readerStart_tmo (n : Byte) (dl : Half) : (readerStart n dl s).tmo = s.tmo := rfl
@[simp] theorem readerStart_pwr (n : Byte) (dl : Half) : (readerStart n dl s).pwr = s.pwr := rfl
@[simp] theorem readerStart_short (n : Byte) (dl : Half) : (readerStart n dl s).short = s.short := rfl
@[simp] theorem readerStart_errBusy (n : Byte) (dl : Half) : (readerStart n dl s).errBusy = s.errBusy := rfl
@[simp] theorem readerStart_errIllegal (n : Byte) (dl : Half) : (readerStart n dl s).errIllegal = s.errIllegal := rfl
@[simp] theorem readerStart_errOperand (n : Byte) (dl : Half) : (readerStart n dl s).errOperand = s.errOperand := rfl
@[simp] theorem readerStart_rxovf (n : Byte) (dl : Half) : (readerStart n dl s).rxovf = s.rxovf := rfl
@[simp] theorem readerStart_result (n : Byte) (dl : Half) : (readerStart n dl s).result = s.result := rfl
@[simp] theorem readerStart_crcRaw (n : Byte) (dl : Half) : (readerStart n dl s).crcRaw = s.crcRaw := rfl
@[simp] theorem readerStart_crcOut (n : Byte) (dl : Half) : (readerStart n dl s).crcOut = s.crcOut := rfl
@[simp] theorem readerStart_count (n : Byte) (dl : Half) : (readerStart n dl s).count = s.count := rfl
@[simp] theorem readerStart_resends (n : Byte) (dl : Half) : (readerStart n dl s).resends = s.resends := rfl
@[simp] theorem readerStart_tStart (n : Byte) (dl : Half) : (readerStart n dl s).tStart = s.tStart := rfl
@[simp] theorem readerStart_tLast (n : Byte) (dl : Half) : (readerStart n dl s).tLast = s.tLast := rfl
@[simp] theorem readerStart_rdActive (n : Byte) (dl : Half) : (readerStart n dl s).rdActive = true := rfl
@[simp] theorem readerStart_rdStart (n : Byte) (dl : Half) : (readerStart n dl s).rdStart = s.now := rfl
@[simp] theorem readerStart_rdN (n : Byte) (dl : Half) : (readerStart n dl s).rdN = n := rfl
@[simp] theorem readerStart_rdCount (n : Byte) (dl : Half) : (readerStart n dl s).rdCount = 0x00#8 := rfl
@[simp] theorem readerStart_rdDl (n : Byte) (dl : Half) : (readerStart n dl s).rdDl = dl := rfl
@[simp] theorem readerStart_ch (n : Byte) (dl : Half) : (readerStart n dl s).ch = s.ch := rfl
@[simp] theorem readerStart_txf (n : Byte) (dl : Half) : (readerStart n dl s).txf = s.txf := rfl
@[simp] theorem readerStart_txlen (n : Byte) (dl : Half) : (readerStart n dl s).txlen = s.txlen := rfl
@[simp] theorem readerStart_rxf (n : Byte) (dl : Half) : (readerStart n dl s).rxf = s.rxf := rfl
@[simp] theorem readerStart_buf (n : Byte) (dl : Half) : (readerStart n dl s).buf = s.buf := rfl
@[simp] theorem readerStart_rxq (n : Byte) (dl : Half) : (readerStart n dl s).rxq = s.rxq := rfl
@[simp] theorem readerStart_now (n : Byte) (dl : Half) : (readerStart n dl s).now = s.now := rfl
@[simp] theorem readerStart_tx (n : Byte) (dl : Half) : (readerStart n dl s).tx = s.tx := rfl
@[simp] theorem readerStart_cfg (n : Byte) (dl : Half) : (readerStart n dl s).cfg = s.cfg := rfl
@[simp] theorem readerStart_agenda (n : Byte) (dl : Half) : (readerStart n dl s).agenda = s.agenda := rfl
@[simp] theorem readerStart_turn (n : Byte) (dl : Half) : (readerStart n dl s).turn = s.turn := rfl
@[simp] theorem readerStart_hostData (n : Byte) (dl : Half) : (readerStart n dl s).hostData = s.hostData := rfl

@[simp] theorem buildQuery_cmd (a : Byte) (r : Half) : (buildQuery a r s).cmd = s.cmd := rfl
@[simp] theorem buildQuery_fsm (a : Byte) (r : Half) : (buildQuery a r s).fsm = s.fsm := rfl
@[simp] theorem buildQuery_done (a : Byte) (r : Half) : (buildQuery a r s).done = s.done := rfl
@[simp] theorem buildQuery_ok (a : Byte) (r : Half) : (buildQuery a r s).ok = s.ok := rfl
@[simp] theorem buildQuery_tmo (a : Byte) (r : Half) : (buildQuery a r s).tmo = s.tmo := rfl
@[simp] theorem buildQuery_pwr (a : Byte) (r : Half) : (buildQuery a r s).pwr = s.pwr := rfl
@[simp] theorem buildQuery_short (a : Byte) (r : Half) : (buildQuery a r s).short = s.short := rfl
@[simp] theorem buildQuery_errBusy (a : Byte) (r : Half) : (buildQuery a r s).errBusy = s.errBusy := rfl
@[simp] theorem buildQuery_errIllegal (a : Byte) (r : Half) : (buildQuery a r s).errIllegal = s.errIllegal := rfl
@[simp] theorem buildQuery_errOperand (a : Byte) (r : Half) : (buildQuery a r s).errOperand = s.errOperand := rfl
@[simp] theorem buildQuery_rxovf (a : Byte) (r : Half) : (buildQuery a r s).rxovf = s.rxovf := rfl
@[simp] theorem buildQuery_result (a : Byte) (r : Half) : (buildQuery a r s).result = s.result := rfl
@[simp] theorem buildQuery_crcRaw (a : Byte) (r : Half) : (buildQuery a r s).crcRaw = crc16 (queryHead a r) := rfl
@[simp] theorem buildQuery_crcOut (a : Byte) (r : Half) : (buildQuery a r s).crcOut = swap16 (crc16 (queryHead a r)) := rfl
@[simp] theorem buildQuery_count (a : Byte) (r : Half) : (buildQuery a r s).count = s.count := rfl
@[simp] theorem buildQuery_resends (a : Byte) (r : Half) : (buildQuery a r s).resends = s.resends := rfl
@[simp] theorem buildQuery_tStart (a : Byte) (r : Half) : (buildQuery a r s).tStart = s.tStart := rfl
@[simp] theorem buildQuery_tLast (a : Byte) (r : Half) : (buildQuery a r s).tLast = s.tLast := rfl
@[simp] theorem buildQuery_rdActive (a : Byte) (r : Half) : (buildQuery a r s).rdActive = s.rdActive := rfl
@[simp] theorem buildQuery_rdStart (a : Byte) (r : Half) : (buildQuery a r s).rdStart = s.rdStart := rfl
@[simp] theorem buildQuery_rdN (a : Byte) (r : Half) : (buildQuery a r s).rdN = s.rdN := rfl
@[simp] theorem buildQuery_rdCount (a : Byte) (r : Half) : (buildQuery a r s).rdCount = s.rdCount := rfl
@[simp] theorem buildQuery_rdDl (a : Byte) (r : Half) : (buildQuery a r s).rdDl = s.rdDl := rfl
@[simp] theorem buildQuery_ch (a : Byte) (r : Half) : (buildQuery a r s).ch = s.ch := rfl
@[simp] theorem buildQuery_txf (a : Byte) (r : Half) : (buildQuery a r s).txf = queryTxf a r := rfl
@[simp] theorem buildQuery_txlen (a : Byte) (r : Half) : (buildQuery a r s).txlen = 8#4 := rfl
@[simp] theorem buildQuery_rxf (a : Byte) (r : Half) : (buildQuery a r s).rxf = s.rxf := rfl
@[simp] theorem buildQuery_buf (a : Byte) (r : Half) : (buildQuery a r s).buf = s.buf := rfl
@[simp] theorem buildQuery_rxq (a : Byte) (r : Half) : (buildQuery a r s).rxq = s.rxq := rfl
@[simp] theorem buildQuery_now (a : Byte) (r : Half) : (buildQuery a r s).now = s.now := rfl
@[simp] theorem buildQuery_tx (a : Byte) (r : Half) : (buildQuery a r s).tx = s.tx := rfl
@[simp] theorem buildQuery_cfg (a : Byte) (r : Half) : (buildQuery a r s).cfg = s.cfg := rfl
@[simp] theorem buildQuery_agenda (a : Byte) (r : Half) : (buildQuery a r s).agenda = s.agenda := rfl
@[simp] theorem buildQuery_turn (a : Byte) (r : Half) : (buildQuery a r s).turn = s.turn := rfl
@[simp] theorem buildQuery_hostData (a : Byte) (r : Half) : (buildQuery a r s).hostData = s.hostData := rfl

@[simp] theorem buildAddr_cmd (o n : Byte) : (buildAddr o n s).cmd = s.cmd := rfl
@[simp] theorem buildAddr_fsm (o n : Byte) : (buildAddr o n s).fsm = s.fsm := rfl
@[simp] theorem buildAddr_done (o n : Byte) : (buildAddr o n s).done = s.done := rfl
@[simp] theorem buildAddr_ok (o n : Byte) : (buildAddr o n s).ok = s.ok := rfl
@[simp] theorem buildAddr_tmo (o n : Byte) : (buildAddr o n s).tmo = s.tmo := rfl
@[simp] theorem buildAddr_pwr (o n : Byte) : (buildAddr o n s).pwr = s.pwr := rfl
@[simp] theorem buildAddr_short (o n : Byte) : (buildAddr o n s).short = s.short := rfl
@[simp] theorem buildAddr_errBusy (o n : Byte) : (buildAddr o n s).errBusy = s.errBusy := rfl
@[simp] theorem buildAddr_errIllegal (o n : Byte) : (buildAddr o n s).errIllegal = s.errIllegal := rfl
@[simp] theorem buildAddr_errOperand (o n : Byte) : (buildAddr o n s).errOperand = s.errOperand := rfl
@[simp] theorem buildAddr_rxovf (o n : Byte) : (buildAddr o n s).rxovf = s.rxovf := rfl
@[simp] theorem buildAddr_result (o n : Byte) : (buildAddr o n s).result = s.result := rfl
@[simp] theorem buildAddr_crcRaw (o n : Byte) : (buildAddr o n s).crcRaw = crc16 (addrHead o n) := rfl
@[simp] theorem buildAddr_crcOut (o n : Byte) : (buildAddr o n s).crcOut = swap16 (crc16 (addrHead o n)) := rfl
@[simp] theorem buildAddr_count (o n : Byte) : (buildAddr o n s).count = s.count := rfl
@[simp] theorem buildAddr_resends (o n : Byte) : (buildAddr o n s).resends = s.resends := rfl
@[simp] theorem buildAddr_tStart (o n : Byte) : (buildAddr o n s).tStart = s.tStart := rfl
@[simp] theorem buildAddr_tLast (o n : Byte) : (buildAddr o n s).tLast = s.tLast := rfl
@[simp] theorem buildAddr_rdActive (o n : Byte) : (buildAddr o n s).rdActive = s.rdActive := rfl
@[simp] theorem buildAddr_rdStart (o n : Byte) : (buildAddr o n s).rdStart = s.rdStart := rfl
@[simp] theorem buildAddr_rdN (o n : Byte) : (buildAddr o n s).rdN = s.rdN := rfl
@[simp] theorem buildAddr_rdCount (o n : Byte) : (buildAddr o n s).rdCount = s.rdCount := rfl
@[simp] theorem buildAddr_rdDl (o n : Byte) : (buildAddr o n s).rdDl = s.rdDl := rfl
@[simp] theorem buildAddr_ch (o n : Byte) : (buildAddr o n s).ch = s.ch := rfl
@[simp] theorem buildAddr_txf (o n : Byte) : (buildAddr o n s).txf = addrTxf o n := rfl
@[simp] theorem buildAddr_txlen (o n : Byte) : (buildAddr o n s).txlen = 11#4 := rfl
@[simp] theorem buildAddr_rxf (o n : Byte) : (buildAddr o n s).rxf = s.rxf := rfl
@[simp] theorem buildAddr_buf (o n : Byte) : (buildAddr o n s).buf = s.buf := rfl
@[simp] theorem buildAddr_rxq (o n : Byte) : (buildAddr o n s).rxq = s.rxq := rfl
@[simp] theorem buildAddr_now (o n : Byte) : (buildAddr o n s).now = s.now := rfl
@[simp] theorem buildAddr_tx (o n : Byte) : (buildAddr o n s).tx = s.tx := rfl
@[simp] theorem buildAddr_cfg (o n : Byte) : (buildAddr o n s).cfg = s.cfg := rfl
@[simp] theorem buildAddr_agenda (o n : Byte) : (buildAddr o n s).agenda = s.agenda := rfl
@[simp] theorem buildAddr_turn (o n : Byte) : (buildAddr o n s).turn = s.turn := rfl
@[simp] theorem buildAddr_hostData (o n : Byte) : (buildAddr o n s).hostData = s.hostData := rfl

@[simp] theorem rdnDone_cmd (k : Byte) : (rdnDone k s).cmd = s.cmd := rfl
@[simp] theorem rdnDone_fsm (k : Byte) : (rdnDone k s).fsm = .idle := rfl
@[simp] theorem rdnDone_done (k : Byte) : (rdnDone k s).done = true := rfl
@[simp] theorem rdnDone_ok (k : Byte) : (rdnDone k s).ok = (k == s.rdN) := rfl
@[simp] theorem rdnDone_tmo (k : Byte) : (rdnDone k s).tmo = s.tmo := rfl
@[simp] theorem rdnDone_pwr (k : Byte) : (rdnDone k s).pwr = s.pwr := rfl
@[simp] theorem rdnDone_short (k : Byte) : (rdnDone k s).short = decide (k < s.rdN) := rfl
@[simp] theorem rdnDone_errBusy (k : Byte) : (rdnDone k s).errBusy = s.errBusy := rfl
@[simp] theorem rdnDone_errIllegal (k : Byte) : (rdnDone k s).errIllegal = s.errIllegal := rfl
@[simp] theorem rdnDone_errOperand (k : Byte) : (rdnDone k s).errOperand = s.errOperand := rfl
@[simp] theorem rdnDone_rxovf (k : Byte) : (rdnDone k s).rxovf = s.rxovf := rfl
@[simp] theorem rdnDone_result (k : Byte) : (rdnDone k s).result = s.result := rfl
@[simp] theorem rdnDone_crcRaw (k : Byte) : (rdnDone k s).crcRaw = s.crcRaw := rfl
@[simp] theorem rdnDone_crcOut (k : Byte) : (rdnDone k s).crcOut = s.crcOut := rfl
@[simp] theorem rdnDone_count (k : Byte) : (rdnDone k s).count = k := rfl
@[simp] theorem rdnDone_resends (k : Byte) : (rdnDone k s).resends = s.resends := rfl
@[simp] theorem rdnDone_tStart (k : Byte) : (rdnDone k s).tStart = s.tStart := rfl
@[simp] theorem rdnDone_tLast (k : Byte) : (rdnDone k s).tLast = s.tLast := rfl
@[simp] theorem rdnDone_rdActive (k : Byte) : (rdnDone k s).rdActive = s.rdActive := rfl
@[simp] theorem rdnDone_rdStart (k : Byte) : (rdnDone k s).rdStart = s.rdStart := rfl
@[simp] theorem rdnDone_rdN (k : Byte) : (rdnDone k s).rdN = s.rdN := rfl
@[simp] theorem rdnDone_rdCount (k : Byte) : (rdnDone k s).rdCount = s.rdCount := rfl
@[simp] theorem rdnDone_rdDl (k : Byte) : (rdnDone k s).rdDl = s.rdDl := rfl
@[simp] theorem rdnDone_ch (k : Byte) : (rdnDone k s).ch = s.ch := rfl
@[simp] theorem rdnDone_txf (k : Byte) : (rdnDone k s).txf = s.txf := rfl
@[simp] theorem rdnDone_txlen (k : Byte) : (rdnDone k s).txlen = s.txlen := rfl
@[simp] theorem rdnDone_rxf (k : Byte) : (rdnDone k s).rxf = s.rxf := rfl
@[simp] theorem rdnDone_buf (k : Byte) : (rdnDone k s).buf = s.buf := rfl
@[simp] theorem rdnDone_rxq (k : Byte) : (rdnDone k s).rxq = s.rxq := rfl
@[simp] theorem rdnDone_now (k : Byte) : (rdnDone k s).now = s.now := rfl
@[simp] theorem rdnDone_tx (k : Byte) : (rdnDone k s).tx = s.tx := rfl
@[simp] theorem rdnDone_cfg (k : Byte) : (rdnDone k s).cfg = s.cfg := rfl
@[simp] theorem rdnDone_agenda (k : Byte) : (rdnDone k s).agenda = s.agenda := rfl
@[simp] theorem rdnDone_turn (k : Byte) : (rdnDone k s).turn = s.turn := rfl
@[simp] theorem rdnDone_hostData (k : Byte) : (rdnDone k s).hostData = s.hostData := rfl

@[simp] theorem successExit_cmd : (successExit s).cmd = s.cmd := rfl
@[simp] theorem successExit_fsm : (successExit s).fsm = .success := rfl
@[simp] theorem successExit_done : (successExit s).done = true := rfl
@[simp] theorem successExit_ok : (successExit s).ok = true := rfl
@[simp] theorem successExit_tmo : (successExit s).tmo = false := rfl
@[simp] theorem successExit_pwr : (successExit s).pwr = s.pwr := rfl
@[simp] theorem successExit_short : (successExit s).short = s.short := rfl
@[simp] theorem successExit_errBusy : (successExit s).errBusy = s.errBusy := rfl
@[simp] theorem successExit_errIllegal : (successExit s).errIllegal = s.errIllegal := rfl
@[simp] theorem successExit_errOperand : (successExit s).errOperand = s.errOperand := rfl
@[simp] theorem successExit_rxovf : (successExit s).rxovf = s.rxovf := rfl
@[simp] theorem successExit_result : (successExit s).result = replyValue s := rfl
@[simp] theorem successExit_crcRaw : (successExit s).crcRaw = s.crcRaw := rfl
@[simp] theorem successExit_crcOut : (successExit s).crcOut = s.crcOut := rfl
@[simp] theorem successExit_count : (successExit s).count = s.count := rfl
@[simp] theorem successExit_resends : (successExit s).resends = s.resends := rfl
@[simp] theorem successExit_tStart : (successExit s).tStart = s.tStart := rfl
@[simp] theorem successExit_tLast : (successExit s).tLast = s.tLast := rfl
@[simp] theorem successExit_rdActive : (successExit s).rdActive = s.rdActive := rfl
@[simp] theorem successExit_rdStart : (successExit s).rdStart = s.rdStart := rfl
@[simp] theorem successExit_rdN : (successExit s).rdN = s.rdN := rfl
@[simp] theorem successExit_rdCount : (successExit s).rdCount = s.rdCount := rfl
@[simp] theorem successExit_rdDl : (successExit s).rdDl = s.rdDl := rfl
@[simp] theorem successExit_ch : (successExit s).ch = s.ch := rfl
@[simp] theorem successExit_txf : (successExit s).txf = s.txf := rfl
@[simp] theorem successExit_txlen : (successExit s).txlen = s.txlen := rfl
@[simp] theorem successExit_rxf : (successExit s).rxf = s.rxf := rfl
@[simp] theorem successExit_buf : (successExit s).buf = s.buf := rfl
@[simp] theorem successExit_rxq : (successExit s).rxq = s.rxq := rfl
@[simp] theorem successExit_now : (successExit s).now = s.now := rfl
@[simp] theorem successExit_tx : (successExit s).tx = s.tx := rfl
@[simp] theorem successExit_cfg : (successExit s).cfg = s.cfg := rfl
@[simp] theorem successExit_agenda : (successExit s).agenda = s.agenda := rfl
@[simp] theorem successExit_turn : (successExit s).turn = s.turn := rfl
@[simp] theorem successExit_hostData : (successExit s).hostData = s.hostData := rfl

@[simp] theorem timeoutExit_cmd : (timeoutExit s).cmd = s.cmd := rfl
@[simp] theorem timeoutExit_fsm : (timeoutExit s).fsm = .timeout := rfl
@[simp] theorem timeoutExit_done : (timeoutExit s).done = true := rfl
@[simp] theorem timeoutExit_ok : (timeoutExit s).ok = false := rfl
@[simp] theorem timeoutExit_tmo : (timeoutExit s).tmo = true := rfl
@[simp] theorem timeoutExit_pwr : (timeoutExit s).pwr = s.pwr := rfl
@[simp] theorem timeoutExit_short : (timeoutExit s).short = s.short := rfl
@[simp] theorem timeoutExit_errBusy : (timeoutExit s).errBusy = s.errBusy := rfl
@[simp] theorem timeoutExit_errIllegal : (timeoutExit s).errIllegal = s.errIllegal := rfl
@[simp] theorem timeoutExit_errOperand : (timeoutExit s).errOperand = s.errOperand := rfl
@[simp] theorem timeoutExit_rxovf : (timeoutExit s).rxovf = s.rxovf := rfl
@[simp] theorem timeoutExit_result : (timeoutExit s).result = timeoutValue s := rfl
@[simp] theorem timeoutExit_crcRaw : (timeoutExit s).crcRaw = s.crcRaw := rfl
@[simp] theorem timeoutExit_crcOut : (timeoutExit s).crcOut = s.crcOut := rfl
@[simp] theorem timeoutExit_count : (timeoutExit s).count = s.count := rfl
@[simp] theorem timeoutExit_resends : (timeoutExit s).resends = s.resends := rfl
@[simp] theorem timeoutExit_tStart : (timeoutExit s).tStart = s.tStart := rfl
@[simp] theorem timeoutExit_tLast : (timeoutExit s).tLast = s.tLast := rfl
@[simp] theorem timeoutExit_rdActive : (timeoutExit s).rdActive = s.rdActive := rfl
@[simp] theorem timeoutExit_rdStart : (timeoutExit s).rdStart = s.rdStart := rfl
@[simp] theorem timeoutExit_rdN : (timeoutExit s).rdN = s.rdN := rfl
@[simp] theorem timeoutExit_rdCount : (timeoutExit s).rdCount = s.rdCount := rfl
@[simp] theorem timeoutExit_rdDl : (timeoutExit s).rdDl = s.rdDl := rfl
@[simp] theorem timeoutExit_ch : (timeoutExit s).ch = s.ch := rfl
@[simp] theorem timeoutExit_txf : (timeoutExit s).txf = s.txf := rfl
@[simp] theorem timeoutExit_txlen : (timeoutExit s).txlen = s.txlen := rfl
@[simp] theorem timeoutExit_rxf : (timeoutExit s).rxf = s.rxf := rfl
@[simp] theorem timeoutExit_buf : (timeoutExit s).buf = s.buf := rfl
@[simp] theorem timeoutExit_rxq : (timeoutExit s).rxq = s.rxq := rfl
@[simp] theorem timeoutExit_now : (timeoutExit s).now = s.now := rfl
@[simp] theorem timeoutExit_tx : (timeoutExit s).tx = s.tx := rfl
@[simp] theorem timeoutExit_cfg : (timeoutExit s).cfg = s.cfg := rfl
@[simp] theorem timeoutExit_agenda : (timeoutExit s).agenda = s.agenda := rfl
@[simp] theorem timeoutExit_turn : (timeoutExit s).turn = s.turn := rfl
@[simp] theorem timeoutExit_hostData : (timeoutExit s).hostData = s.hostData := rfl

@[simp] theorem pwrcycEntry_cmd : (pwrcycEntry s).cmd = s.cmd := rfl
@[simp] theorem pwrcycEntry_fsm : (pwrcycEntry s).fsm = .pwrcyc := rfl
@[simp] theorem pwrcycEntry_done : (pwrcycEntry s).done = false := rfl
@[simp] theorem pwrcycEntry_ok : (pwrcycEntry s).ok = (!s.cfg.compatSilentSuccess) := rfl
@[simp] theorem pwrcycEntry_tmo : (pwrcycEntry s).tmo = s.tmo := rfl
@[simp] theorem pwrcycEntry_pwr : (pwrcycEntry s).pwr = true := rfl
@[simp] theorem pwrcycEntry_short : (pwrcycEntry s).short = s.short := rfl
@[simp] theorem pwrcycEntry_errBusy : (pwrcycEntry s).errBusy = s.errBusy := rfl
@[simp] theorem pwrcycEntry_errIllegal : (pwrcycEntry s).errIllegal = s.errIllegal := rfl
@[simp] theorem pwrcycEntry_errOperand : (pwrcycEntry s).errOperand = s.errOperand := rfl
@[simp] theorem pwrcycEntry_rxovf : (pwrcycEntry s).rxovf = s.rxovf := rfl
@[simp] theorem pwrcycEntry_result : (pwrcycEntry s).result = (if s.cfg.compatSilentSuccess then 0#32 else 1#32) := rfl
@[simp] theorem pwrcycEntry_crcRaw : (pwrcycEntry s).crcRaw = s.crcRaw := rfl
@[simp] theorem pwrcycEntry_crcOut : (pwrcycEntry s).crcOut = s.crcOut := rfl
@[simp] theorem pwrcycEntry_count : (pwrcycEntry s).count = s.count := rfl
@[simp] theorem pwrcycEntry_resends : (pwrcycEntry s).resends = s.resends := rfl
@[simp] theorem pwrcycEntry_tStart : (pwrcycEntry s).tStart = s.tStart := rfl
@[simp] theorem pwrcycEntry_tLast : (pwrcycEntry s).tLast = s.tLast := rfl
@[simp] theorem pwrcycEntry_rdActive : (pwrcycEntry s).rdActive = s.rdActive := rfl
@[simp] theorem pwrcycEntry_rdStart : (pwrcycEntry s).rdStart = s.rdStart := rfl
@[simp] theorem pwrcycEntry_rdN : (pwrcycEntry s).rdN = s.rdN := rfl
@[simp] theorem pwrcycEntry_rdCount : (pwrcycEntry s).rdCount = s.rdCount := rfl
@[simp] theorem pwrcycEntry_rdDl : (pwrcycEntry s).rdDl = s.rdDl := rfl
@[simp] theorem pwrcycEntry_ch : (pwrcycEntry s).ch = s.ch := rfl
@[simp] theorem pwrcycEntry_txf : (pwrcycEntry s).txf = s.txf := rfl
@[simp] theorem pwrcycEntry_txlen : (pwrcycEntry s).txlen = s.txlen := rfl
@[simp] theorem pwrcycEntry_rxf : (pwrcycEntry s).rxf = s.rxf := rfl
@[simp] theorem pwrcycEntry_buf : (pwrcycEntry s).buf = s.buf := rfl
@[simp] theorem pwrcycEntry_rxq : (pwrcycEntry s).rxq = s.rxq := rfl
@[simp] theorem pwrcycEntry_now : (pwrcycEntry s).now = s.now := rfl
@[simp] theorem pwrcycEntry_tx : (pwrcycEntry s).tx = s.tx := rfl
@[simp] theorem pwrcycEntry_cfg : (pwrcycEntry s).cfg = s.cfg := rfl
@[simp] theorem pwrcycEntry_agenda : (pwrcycEntry s).agenda = s.agenda := rfl
@[simp] theorem pwrcycEntry_turn : (pwrcycEntry s).turn = s.turn := rfl
@[simp] theorem pwrcycEntry_hostData : (pwrcycEntry s).hostData = s.hostData := rfl

@[simp] theorem resend_cmd : (resend s).cmd = s.cmd := rfl
@[simp] theorem resend_fsm : (resend s).fsm = s.fsm := rfl
@[simp] theorem resend_done : (resend s).done = s.done := rfl
@[simp] theorem resend_ok : (resend s).ok = s.ok := rfl
@[simp] theorem resend_tmo : (resend s).tmo = s.tmo := rfl
@[simp] theorem resend_pwr : (resend s).pwr = s.pwr := rfl
@[simp] theorem resend_short : (resend s).short = s.short := rfl
@[simp] theorem resend_errBusy : (resend s).errBusy = s.errBusy := rfl
@[simp] theorem resend_errIllegal : (resend s).errIllegal = s.errIllegal := rfl
@[simp] theorem resend_errOperand : (resend s).errOperand = s.errOperand := rfl
@[simp] theorem resend_rxovf : (resend s).rxovf = s.rxovf := rfl
@[simp] theorem resend_result : (resend s).result = s.result := rfl
@[simp] theorem resend_crcRaw : (resend s).crcRaw = s.crcRaw := rfl
@[simp] theorem resend_crcOut : (resend s).crcOut = s.crcOut := rfl
@[simp] theorem resend_count : (resend s).count = s.count := rfl
@[simp] theorem resend_resends : (resend s).resends = s.resends + 1#16 := rfl
@[simp] theorem resend_tStart : (resend s).tStart = s.tStart := rfl
@[simp] theorem resend_tLast : (resend s).tLast = s.now := rfl
@[simp] theorem resend_rdActive : (resend s).rdActive = s.rdActive := rfl
@[simp] theorem resend_rdStart : (resend s).rdStart = s.rdStart := rfl
@[simp] theorem resend_rdN : (resend s).rdN = s.rdN := rfl
@[simp] theorem resend_rdCount : (resend s).rdCount = s.rdCount := rfl
@[simp] theorem resend_rdDl : (resend s).rdDl = s.rdDl := rfl
@[simp] theorem resend_ch : (resend s).ch = s.ch := rfl
@[simp] theorem resend_txf : (resend s).txf = s.txf := rfl
@[simp] theorem resend_txlen : (resend s).txlen = s.txlen := rfl
@[simp] theorem resend_rxf : (resend s).rxf = s.rxf := rfl
@[simp] theorem resend_buf : (resend s).buf = s.buf := rfl
@[simp] theorem resend_rxq : (resend s).rxq = s.rxq := rfl
@[simp] theorem resend_now : (resend s).now = s.now := rfl
@[simp] theorem resend_tx : (resend s).tx = (transmit s).tx := rfl
@[simp] theorem resend_cfg : (resend s).cfg = s.cfg := rfl
@[simp] theorem resend_agenda : (resend s).agenda = s.agenda := rfl
@[simp] theorem resend_turn : (resend s).turn = s.turn := rfl
@[simp] theorem resend_hostData : (resend s).hostData = s.hostData := rfl

@[simp] theorem hostRead_cmd (i : Byte) : (hostRead i s).cmd = s.cmd := rfl
@[simp] theorem hostRead_fsm (i : Byte) : (hostRead i s).fsm = s.fsm := rfl
@[simp] theorem hostRead_done (i : Byte) : (hostRead i s).done = s.done := rfl
@[simp] theorem hostRead_ok (i : Byte) : (hostRead i s).ok = s.ok := rfl
@[simp] theorem hostRead_tmo (i : Byte) : (hostRead i s).tmo = s.tmo := rfl
@[simp] theorem hostRead_pwr (i : Byte) : (hostRead i s).pwr = s.pwr := rfl
@[simp] theorem hostRead_short (i : Byte) : (hostRead i s).short = s.short := rfl
@[simp] theorem hostRead_errBusy (i : Byte) : (hostRead i s).errBusy = s.errBusy := rfl
@[simp] theorem hostRead_errIllegal (i : Byte) : (hostRead i s).errIllegal = s.errIllegal := rfl
@[simp] theorem hostRead_errOperand (i : Byte) : (hostRead i s).errOperand = s.errOperand := rfl
@[simp] theorem hostRead_rxovf (i : Byte) : (hostRead i s).rxovf = s.rxovf := rfl
@[simp] theorem hostRead_result (i : Byte) : (hostRead i s).result = s.result := rfl
@[simp] theorem hostRead_crcRaw (i : Byte) : (hostRead i s).crcRaw = s.crcRaw := rfl
@[simp] theorem hostRead_crcOut (i : Byte) : (hostRead i s).crcOut = s.crcOut := rfl
@[simp] theorem hostRead_count (i : Byte) : (hostRead i s).count = s.count := rfl
@[simp] theorem hostRead_resends (i : Byte) : (hostRead i s).resends = s.resends := rfl
@[simp] theorem hostRead_tStart (i : Byte) : (hostRead i s).tStart = s.tStart := rfl
@[simp] theorem hostRead_tLast (i : Byte) : (hostRead i s).tLast = s.tLast := rfl
@[simp] theorem hostRead_rdActive (i : Byte) : (hostRead i s).rdActive = s.rdActive := rfl
@[simp] theorem hostRead_rdStart (i : Byte) : (hostRead i s).rdStart = s.rdStart := rfl
@[simp] theorem hostRead_rdN (i : Byte) : (hostRead i s).rdN = s.rdN := rfl
@[simp] theorem hostRead_rdCount (i : Byte) : (hostRead i s).rdCount = s.rdCount := rfl
@[simp] theorem hostRead_rdDl (i : Byte) : (hostRead i s).rdDl = s.rdDl := rfl
@[simp] theorem hostRead_ch (i : Byte) : (hostRead i s).ch = s.ch := rfl
@[simp] theorem hostRead_txf (i : Byte) : (hostRead i s).txf = s.txf := rfl
@[simp] theorem hostRead_txlen (i : Byte) : (hostRead i s).txlen = s.txlen := rfl
@[simp] theorem hostRead_rxf (i : Byte) : (hostRead i s).rxf = s.rxf := rfl
@[simp] theorem hostRead_buf (i : Byte) : (hostRead i s).buf = s.buf := rfl
@[simp] theorem hostRead_rxq (i : Byte) : (hostRead i s).rxq = s.rxq := rfl
@[simp] theorem hostRead_now (i : Byte) : (hostRead i s).now = s.now := rfl
@[simp] theorem hostRead_tx (i : Byte) : (hostRead i s).tx = s.tx := rfl
@[simp] theorem hostRead_cfg (i : Byte) : (hostRead i s).cfg = s.cfg := rfl
@[simp] theorem hostRead_agenda (i : Byte) : (hostRead i s).agenda = s.agenda := rfl
@[simp] theorem hostRead_turn (i : Byte) : (hostRead i s).turn = s.turn := rfl
@[simp] theorem hostRead_hostData (i : Byte) : (hostRead i s).hostData = readReg s i := rfl

@[simp] theorem raise_cmd (e : ErrKind) : (raise e s).cmd = s.cmd := by cases e <;> rfl
@[simp] theorem raise_fsm (e : ErrKind) : (raise e s).fsm = s.fsm := by cases e <;> rfl
@[simp] theorem raise_done (e : ErrKind) : (raise e s).done = s.done := by cases e <;> rfl
@[simp] theorem raise_ok (e : ErrKind) : (raise e s).ok = s.ok := by cases e <;> rfl
@[simp] theorem raise_tmo (e : ErrKind) : (raise e s).tmo = s.tmo := by cases e <;> rfl
@[simp] theorem raise_pwr (e : ErrKind) : (raise e s).pwr = s.pwr := by cases e <;> rfl
@[simp] theorem raise_short (e : ErrKind) : (raise e s).short = s.short := by cases e <;> rfl
@[simp] theorem raise_result (e : ErrKind) : (raise e s).result = s.result := by cases e <;> rfl
@[simp] theorem raise_crcRaw (e : ErrKind) : (raise e s).crcRaw = s.crcRaw := by cases e <;> rfl
@[simp] theorem raise_crcOut (e : ErrKind) : (raise e s).crcOut = s.crcOut := by cases e <;> rfl
@[simp] theorem raise_count (e : ErrKind) : (raise e s).count = s.count := by cases e <;> rfl
@[simp] theorem raise_resends (e : ErrKind) : (raise e s).resends = s.resends := by cases e <;> rfl
@[simp] theorem raise_tStart (e : ErrKind) : (raise e s).tStart = s.tStart := by cases e <;> rfl
@[simp] theorem raise_tLast (e : ErrKind) : (raise e s).tLast = s.tLast := by cases e <;> rfl
@[simp] theorem raise_rdActive (e : ErrKind) : (raise e s).rdActive = s.rdActive := by cases e <;> rfl
@[simp] theorem raise_rdStart (e : ErrKind) : (raise e s).rdStart = s.rdStart := by cases e <;> rfl
@[simp] theorem raise_rdN (e : ErrKind) : (raise e s).rdN = s.rdN := by cases e <;> rfl
@[simp] theorem raise_rdCount (e : ErrKind) : (raise e s).rdCount = s.rdCount := by cases e <;> rfl
@[simp] theorem raise_rdDl (e : ErrKind) : (raise e s).rdDl = s.rdDl := by cases e <;> rfl
@[simp] theorem raise_ch (e : ErrKind) : (raise e s).ch = s.ch := by cases e <;> rfl
@[simp] theorem raise_txf (e : ErrKind) : (raise e s).txf = s.txf := by cases e <;> rfl
@[simp] theorem raise_txlen (e : ErrKind) : (raise e s).txlen = s.txlen := by cases e <;> rfl
@[simp] theorem raise_rxf (e : ErrKind) : (raise e s).rxf = s.rxf := by cases e <;> rfl
@[simp] theorem raise_buf (e : ErrKind) : (raise e s).buf = s.buf := by cases e <;> rfl
@[simp] theorem raise_rxq (e : ErrKind) : (raise e s).rxq = s.rxq := by cases e <;> rfl
@[simp] theorem raise_now (e : ErrKind) : (raise e s).now = s.now := by cases e <;> rfl
@[simp] theorem raise_tx (e : ErrKind) : (raise e s).tx = s.tx := by cases e <;> rfl
@[simp] theorem raise_cfg (e : ErrKind) : (raise e s).cfg = s.cfg := by cases e <;> rfl
@[simp] theorem raise_agenda (e : ErrKind) : (raise e s).agenda = s.agenda := by cases e <;> rfl
@[simp] theorem raise_turn (e : ErrKind) : (raise e s).turn = s.turn := by cases e <;> rfl
@[simp] theorem raise_hostData (e : ErrKind) : (raise e s).hostData = s.hostData := by cases e <;> rfl
@[simp] theorem raise_busy_errBusy : (raise .busy s).errBusy = true := rfl
@[simp] theorem raise_busy_errIllegal : (raise .busy s).errIllegal = s.errIllegal := rfl
@[simp] theorem raise_busy_errOperand : (raise .busy s).errOperand = s.errOperand := rfl
@[simp] theorem raise_busy_rxovf : (raise .busy s).rxovf = s.rxovf := rfl
@[simp] theorem raise_illegal_errBusy : (raise .illegal s).errBusy = s.errBusy := rfl
@[simp] theorem raise_illegal_errIllegal : (raise .illegal s).errIllegal = true := rfl
@[simp] theorem raise_illegal_errOperand : (raise .illegal s).errOperand = s.errOperand := rfl
@[simp] theorem raise_illegal_rxovf : (raise .illegal s).rxovf = s.rxovf := rfl
@[simp] theorem raise_operand_errBusy : (raise .operand s).errBusy = s.errBusy := rfl
@[simp] theorem raise_operand_errIllegal : (raise .operand s).errIllegal = s.errIllegal := rfl
@[simp] theorem raise_operand_errOperand : (raise .operand s).errOperand = true := rfl
@[simp] theorem raise_operand_rxovf : (raise .operand s).rxovf = s.rxovf := rfl
@[simp] theorem raise_rxOverflow_errBusy : (raise .rxOverflow s).errBusy = s.errBusy := rfl
@[simp] theorem raise_rxOverflow_errIllegal : (raise .rxOverflow s).errIllegal = s.errIllegal := rfl
@[simp] theorem raise_rxOverflow_errOperand : (raise .rxOverflow s).errOperand = s.errOperand := rfl
@[simp] theorem raise_rxOverflow_rxovf : (raise .rxOverflow s).rxovf = true := rfl

@[simp] theorem resetStep_cmd : (resetStep s).cmd = (State.resetAt s.now).cmd := rfl
@[simp] theorem resetStep_fsm : (resetStep s).fsm = (State.resetAt s.now).fsm := rfl
@[simp] theorem resetStep_done : (resetStep s).done = (State.resetAt s.now).done := rfl
@[simp] theorem resetStep_ok : (resetStep s).ok = (State.resetAt s.now).ok := rfl
@[simp] theorem resetStep_tmo : (resetStep s).tmo = (State.resetAt s.now).tmo := rfl
@[simp] theorem resetStep_pwr : (resetStep s).pwr = (State.resetAt s.now).pwr := rfl
@[simp] theorem resetStep_short : (resetStep s).short = (State.resetAt s.now).short := rfl
@[simp] theorem resetStep_errBusy : (resetStep s).errBusy = (State.resetAt s.now).errBusy := rfl
@[simp] theorem resetStep_errIllegal : (resetStep s).errIllegal = (State.resetAt s.now).errIllegal := rfl
@[simp] theorem resetStep_errOperand : (resetStep s).errOperand = (State.resetAt s.now).errOperand := rfl
@[simp] theorem resetStep_rxovf : (resetStep s).rxovf = (State.resetAt s.now).rxovf := rfl
@[simp] theorem resetStep_result : (resetStep s).result = (State.resetAt s.now).result := rfl
@[simp] theorem resetStep_crcRaw : (resetStep s).crcRaw = (State.resetAt s.now).crcRaw := rfl
@[simp] theorem resetStep_crcOut : (resetStep s).crcOut = (State.resetAt s.now).crcOut := rfl
@[simp] theorem resetStep_count : (resetStep s).count = (State.resetAt s.now).count := rfl
@[simp] theorem resetStep_resends : (resetStep s).resends = (State.resetAt s.now).resends := rfl
@[simp] theorem resetStep_tStart : (resetStep s).tStart = (State.resetAt s.now).tStart := rfl
@[simp] theorem resetStep_tLast : (resetStep s).tLast = (State.resetAt s.now).tLast := rfl
@[simp] theorem resetStep_rdActive : (resetStep s).rdActive = (State.resetAt s.now).rdActive := rfl
@[simp] theorem resetStep_rdStart : (resetStep s).rdStart = (State.resetAt s.now).rdStart := rfl
@[simp] theorem resetStep_rdN : (resetStep s).rdN = (State.resetAt s.now).rdN := rfl
@[simp] theorem resetStep_rdCount : (resetStep s).rdCount = (State.resetAt s.now).rdCount := rfl
@[simp] theorem resetStep_rdDl : (resetStep s).rdDl = (State.resetAt s.now).rdDl := rfl
@[simp] theorem resetStep_ch : (resetStep s).ch = (State.resetAt s.now).ch := rfl
@[simp] theorem resetStep_txf : (resetStep s).txf = (State.resetAt s.now).txf := rfl
@[simp] theorem resetStep_txlen : (resetStep s).txlen = (State.resetAt s.now).txlen := rfl
@[simp] theorem resetStep_rxf : (resetStep s).rxf = (State.resetAt s.now).rxf := rfl
@[simp] theorem resetStep_buf : (resetStep s).buf = (State.resetAt s.now).buf := rfl
@[simp] theorem resetStep_rxq : (resetStep s).rxq = (State.resetAt s.now).rxq := rfl
@[simp] theorem resetStep_now : (resetStep s).now = s.now := rfl
@[simp] theorem resetStep_tx : (resetStep s).tx = s.tx := rfl
@[simp] theorem resetStep_cfg : (resetStep s).cfg = s.cfg := rfl
@[simp] theorem resetStep_agenda : (resetStep s).agenda = s.agenda := rfl
@[simp] theorem resetStep_turn : (resetStep s).turn = s.turn := rfl
@[simp] theorem resetStep_hostData : (resetStep s).hostData = s.hostData := rfl

end

end Sys2Proof.Machine
end

