-- ==== Sys2Proof/Laws/Ops.lean ====
section
/-! SUPPORT. What each shared operation can do, said once: accept, the parts of a poll, the ENGINE's turn, a host write,
an event. Later proofs cite these and unfold nothing. -/

namespace Sys2Proof.Machine

variable {s t : State}

/-- A legal command offered to CMD: refused as busy, refused for its operand, or latched and run (R48). -/
theorem accept_cases {i : Instr} {r : Bool} {body : State → State} (h : accept i r body s = .next t) :
    (s.busy = true ∧ t = raise .busy s) ∨ (s.busy = false ∧ r = true ∧ t = raise .operand s)
      ∨ (s.busy = false ∧ r = false ∧ t = body (latch i s)) := by
  unfold accept at h
  cases hb : s.busy <;> cases r <;> simp_all

theorem accept_of_busy (i : Instr) (r : Bool) (body : State → State) (h : s.busy = true) :
    accept i r body s = .next (raise .busy s) := by simp [accept, h]

theorem accept_of_refused (i : Instr) (body : State → State) (h : s.busy = false) :
    accept i true body s = .next (raise .operand s) := by simp [accept, h]

theorem accept_of_ok (i : Instr) (body : State → State) (h : s.busy = false) :
    accept i false body s = .next (body (latch i s)) := by simp [accept, h]

/-- The part of a command that runs once it is latched. -/
def commandBody : Instr → State → State
  | .crc n => crcBody n
  | .crca n => crcaBody n
  | .crcv n => crcvBody n
  | .frq a r => frqBody a r
  | .fra o n => fraBody o n
  | .rdn n d => rdnBody n d
  | .qrys a r => queryBody a r
  | .qryd a r => queryBody a r
  | .seta o n => setaBody o n

/-- Every command is an accept, refused exactly where an operand is out of range (R47, R48). -/
theorem exec_eq_accept (i : Instr) (s : State) :
    exec i s = accept i (!i.wellFormed s.cfg.bufSize) (commandBody i) s := by
  have dec_not : ∀ a b : Nat, decide (b < a) = !decide (a ≤ b) := fun a b => by
    by_cases h : a ≤ b <;> simp [h, Nat.not_lt.2, Nat.lt_of_not_le]
  cases i <;> simp only [exec, execCrc, execCrca, execCrcv, execFrq, execFra, execRdn, execQrys, execQryd, execSeta,
    countRefused, trailerRefused, addressRefused, Instr.wellFormed, commandBody, dec_not, bne, Bool.not_not]

/-- A command always answers a next state. -/
theorem exec_cases {i : Instr} (h : exec i s = .next t) :
    (s.busy = true ∧ t = raise .busy s)
      ∨ (s.busy = false ∧ i.wellFormed s.cfg.bufSize = false ∧ t = raise .operand s)
      ∨ (s.busy = false ∧ i.wellFormed s.cfg.bufSize = true ∧ t = commandBody i (latch i s)) := by
  rw [exec_eq_accept] at h
  simpa using accept_cases h

theorem exec_of_ok (i : Instr) (hb : s.busy = false) (hw : i.wellFormed s.cfg.bufSize = true) :
    exec i s = .next (commandBody i (latch i s)) := by
  rw [exec_eq_accept, hw]
  exact accept_of_ok i _ hb

theorem exec_of_busy (i : Instr) (hb : s.busy = true) : exec i s = .next (raise .busy s) := by
  rw [exec_eq_accept]
  exact accept_of_busy i _ _ hb

theorem exec_of_illFormed (i : Instr) (hb : s.busy = false) (hw : i.wellFormed s.cfg.bufSize = false) :
    exec i s = .next (raise .operand s) := by
  rw [exec_eq_accept, hw]
  exact accept_of_refused i _ hb

/-- A command word offered to CMD (R48). -/
theorem acceptWord_cases {w : Word} (h : acceptWord w s = .next t) :
    (s.busy = true ∧ t = raise .busy s)
      ∨ (s.busy = false ∧ (∃ e, decode w = .error e) ∧ t = raise .illegal s)
      ∨ (s.busy = false ∧ ∃ i, decode w = .ok i ∧ exec i s = .next t) := by
  unfold acceptWord at h
  cases hb : s.busy
  · cases hd : decode w with
    | error e => simp_all
    | ok i => simp_all
  · simp_all

/-- A host write (R25). -/
theorem hostWrite_cases {i : Byte} {w : Word} (h : hostWrite i w s = .next t) :
    (i.toNat = 0 ∧ acceptWord w s = .next t)
      ∨ (0x40 ≤ i.toNat ∧ i.toNat < 0x40 + s.cfg.bufSize ∧ s.busy = true ∧ t = raise .busy s)
      ∨ (0x40 ≤ i.toNat ∧ i.toNat < 0x40 + s.cfg.bufSize ∧ s.busy = false
          ∧ t = bufStore (i.toNat - 0x40) (w.extractLsb' 0 8) s)
      ∨ t = s := by
  unfold hostWrite at h
  by_cases h0 : i.toNat = 0
  · simp_all
  · by_cases hr : 0x40 ≤ i.toNat ∧ i.toNat < 0x40 + s.cfg.bufSize
    · cases hb : s.busy <;> simp_all
    · simp only [h0, hr, if_false, Host.Outcome.next.injEq] at h
      exact .inr (.inr (.inr h.symm))

/-- Where a byte of a reader call goes (R70). -/
theorem storeByte_cases {b : Byte} (h : storeByte b s = .next t) :
    (s.fsm = .reading ∧ s.rdCount.toNat < s.cfg.bufSize ∧ t = bufStore s.rdCount.toNat b s)
      ∨ (s.fsm = .apay ∧ ∃ hk : 3 + s.rdCount.toNat < 7, t = { s with rxf := s.rxf.set (3 + s.rdCount.toNat) b })
      ∨ (s.fsm ≠ .reading ∧ s.fsm ≠ .apay ∧ t = { s with ch := b }) := by
  unfold storeByte at h
  cases hf : s.fsm <;> simp only [hf] at h
  case reading =>
    by_cases hk : s.rdCount.toNat < s.cfg.bufSize <;> simp_all
  case apay =>
    by_cases hk : 3 + s.rdCount.toNat < 7
    · rw [dif_pos hk] at h
      exact .inr (.inl ⟨rfl, hk, (Host.Outcome.next.inj h).symm⟩)
    · rw [dif_neg hk] at h
      cases h
  all_goals exact .inr (.inr ⟨by simp, by simp, (Host.Outcome.next.inj h).symm⟩)

/-- The byte a poll takes: none, or the oldest of RXQ to its place, counted (R71). -/
theorem pollTake_cases (h : pollTake s = .next t) :
    (t = s ∧ (s.rxq = [] ∨ ¬ s.rdCount < s.rdN))
      ∨ ∃ b q u, s.rxq = b :: q ∧ s.rdCount < s.rdN ∧ storeByte b { s with rxq := q } = .next u
          ∧ t = { u with rdCount := u.rdCount + 1#8 } := by
  unfold pollTake at h
  cases hq : s.rxq with
  | nil => simp_all
  | cons b q =>
    simp only [hq] at h
    by_cases hlt : s.rdCount < s.rdN
    · rw [if_pos hlt] at h
      cases hs : storeByte b { s with rxq := q } with
      | next u => simp_all
      | fault f => simp_all
      | refused r => simp_all
    · rw [if_neg hlt] at h
      exact .inl ⟨(Host.Outcome.next.inj h).symm, .inr hlt⟩

/-- The end of a poll: the call goes on, or it is over and its owner completes (R71). -/
theorem pollEnd_cases (s : State) :
    (pollEnd s = s ∧ s.rdCount ≠ s.rdN ∧ readerExpired s = false)
      ∨ (pollEnd s = readerDone s.rdCount { s with rdActive := false }
          ∧ (s.rdCount = s.rdN ∨ readerExpired s = true)) := by
  unfold pollEnd
  by_cases h : s.rdCount = s.rdN ∨ readerExpired s = true
  · exact .inr ⟨if_pos h, h⟩
  · rw [if_neg h]
    simp only [not_or, Bool.not_eq_true] at h
    exact .inl ⟨rfl, h.1, h.2⟩

theorem poll_cases (h : poll s = .next t) : ∃ u, pollTake s = .next u ∧ t = pollEnd u := by
  unfold poll at h
  cases hp : pollTake s with
  | next u => simp_all
  | fault f => simp_all
  | refused r => simp_all

/-- The ENGINE's turn: nothing, a send, a verify, a loop top or a poll (R50). -/
theorem engineTurn_cases (h : engineTurn s = .next t) :
    (engineEnabled s = false ∧ t = s)
      ∨ (s.fsm = .sent ∧ t = sentStep s)
      ∨ (s.fsm = .verify ∧ t = verifyStep s)
      ∨ (s.fsm.await = true ∧ s.rdActive = false ∧ t = loopTop s)
      ∨ ((s.fsm.await = true ∨ s.fsm = .reading) ∧ s.rdActive = true ∧ readerReady s = true ∧ poll s = .next t) := by
  unfold engineTurn at h
  cases he : engineEnabled s
  · simp_all
  · simp only [he, if_true, engineWork] at h
    by_cases h1 : s.fsm = .sent
    · simp_all
    · by_cases h2 : s.fsm = .verify
      · simp_all
      · by_cases h3 : s.fsm.await = true ∧ s.rdActive = false
        · simp_all
        · simp only [engineEnabled, Bool.or_eq_true, Bool.and_eq_true, decide_eq_true_eq, Bool.not_eq_true'] at he
          have h4 : ¬ (s.fsm.await && !s.rdActive) = true := by simpa using h3
          rw [if_neg h1, if_neg h2, if_neg h4] at h
          right; right; right; right
          rcases he with ((he | he) | he) | he
          · exact absurd he h1
          · exact absurd he h2
          · exact absurd he h3
          · exact ⟨he.1.1, he.1.2, he.2, h⟩

/-- One event (R11). -/
theorem runEvent_cases {e : Event} (h : runEvent e s = .next t) :
    (∃ i w, e = .hostWrite i w ∧ hostWrite i w s = .next t)
      ∨ (∃ i, e = .hostRead i ∧ t = hostRead i s)
      ∨ (e = .engine ∧ engineTurn s = .next t)
      ∨ (∃ b, e = .linkByte b ∧ t = linkDeliver b s)
      ∨ (e = .linkTake ∧ t = linkTakeFrame s)
      ∨ (e = .tick ∧ t = clockTick s)
      ∨ (e = .reset ∧ t = resetStep s) := by
  cases e <;> simp_all [runEvent]

/-- A delivered byte is kept, or lost with RXOVF set (R36). -/
theorem linkDeliver_cases (b : Byte) (s : State) :
    (s.rxq.length < s.cfg.rxDepth ∧ linkDeliver b s = { s with rxq := s.rxq ++ [b] })
      ∨ (¬ s.rxq.length < s.cfg.rxDepth ∧ linkDeliver b s = raise .rxOverflow s) := by
  unfold linkDeliver
  by_cases h : s.rxq.length < s.cfg.rxDepth
  · exact .inl ⟨h, if_pos h⟩
  · exact .inr ⟨h, if_neg h⟩

/-- The strict deadline test as numbers (10_state.md R16). -/
theorem passed_iff (s : State) (t p : Word) : passed s t p = true ↔ p.toNat < (s.now - t).toNat := by
  simp [passed, elapsed, BitVec.lt_def]

/-- A reader call past its deadline (R71), as numbers. -/
theorem readerExpired_iff (s : State) : readerExpired s = true ↔ s.rdDl.toNat < (s.now - s.rdStart).toNat := by
  have := s.rdDl.isLt
  rw [readerExpired, passed_iff, BitVec.toNat_setWidth, Nat.mod_eq_of_lt (by omega)]

/-- A reader call has something to do where a byte waits. -/
theorem readerReady_of_byte {b : Byte} {q : List Byte} (h : s.rxq = b :: q) : readerReady s = true := by
  simp [readerReady, h]

theorem engineTurn_of_sent (h : s.fsm = .sent) : engineTurn s = .next (sentStep s) := by
  simp [engineTurn, engineEnabled, engineWork, h]

theorem engineTurn_of_verify (h : s.fsm = .verify) : engineTurn s = .next (verifyStep s) := by
  simp [engineTurn, engineEnabled, engineWork, h]

/-- In an AWAIT state with no reader call the ENGINE's turn is the loop top (R79). -/
theorem engineTurn_of_await (h : s.fsm.await = true) (hr : s.rdActive = false) : engineTurn s = .next (loopTop s) := by
  have h1 : s.fsm ≠ .sent := by intro e; rw [e] at h; cases h
  have h2 : s.fsm ≠ .verify := by intro e; rw [e] at h; cases h
  simp [engineTurn, engineEnabled, engineWork, h1, h2, h, hr]

/-- With an active reader call that has something to do the ENGINE's turn is a poll (R50). -/
theorem engineTurn_of_ready (h : s.fsm.await = true ∨ s.fsm = .reading) (hr : s.rdActive = true)
    (hn : readerReady s = true) : engineTurn s = poll s := by
  have h1 : s.fsm ≠ .sent := by rcases h with h | h <;> intro e <;> rw [e] at h <;> cases h
  have h2 : s.fsm ≠ .verify := by rcases h with h | h <;> intro e <;> rw [e] at h <;> cases h
  simp [engineTurn, engineEnabled, engineWork, h1, h2, hr, hn, h]

/-- The loop top (R79): a timeout, a resend and a call, or a call. -/
theorem loopTop_cases (s : State) :
    (passed s s.tStart s.cfg.outerMs = true ∧ loopTop s = timeoutExit s)
      ∨ (passed s s.tStart s.cfg.outerMs = false ∧ passed s s.tLast s.cfg.resendMs = true
          ∧ loopTop s = readerStart (callSize s) s.cfg.readMs (resend s))
      ∨ (passed s s.tStart s.cfg.outerMs = false ∧ passed s s.tLast s.cfg.resendMs = false
          ∧ loopTop s = readerStart (callSize s) s.cfg.readMs s) := by
  unfold loopTop
  cases passed s s.tStart s.cfg.outerMs <;> cases passed s s.tLast s.cfg.resendMs <;>
    simp [callSize, resend, transmit]

/-- The VERIFY step (R85, R86): the CRC register, then success or a new search. -/
theorem verifyStep_cases (s : State) :
    (swap16 (crc16 (replyHead s)) = u16 s.rxf[5] s.rxf[6]
        ∧ verifyStep s = successExit (setCrc (crc16 (replyHead s)) s))
      ∨ (swap16 (crc16 (replyHead s)) ≠ u16 s.rxf[5] s.rxf[6]
        ∧ verifyStep s = { setCrc (crc16 (replyHead s)) s with fsm := .ah1 }) := by
  by_cases h : swap16 (crc16 (replyHead s)) = u16 s.rxf[5] s.rxf[6]
  · exact .inl ⟨h, if_pos h⟩
  · exact .inr ⟨h, if_neg h⟩

/-- A call of the reply search is over (R82, R83): the search advances by one state, or restarts at AH1. -/
theorem matchDone_cases (count : Byte) (h : s.fsm = .ah1 ∨ s.fsm = .ah2 ∨ s.fsm = .ah3 ∨ s.fsm = .apay) :
    matchDone count s = { s with fsm := .ah1 }
      ∨ (s.fsm = .ah1 ∧ matchDone count s = { s with rxf := s.rxf.set 0 s.ch, fsm := .ah2 })
      ∨ (s.fsm = .ah2 ∧ matchDone count s = { s with rxf := s.rxf.set 1 s.ch, fsm := .ah3 })
      ∨ (s.fsm = .ah3 ∧ matchDone count s = { s with rxf := s.rxf.set 2 s.ch, fsm := .apay })
      ∨ (s.fsm = .apay ∧ count = 4#8 ∧ matchDone count s = { s with fsm := .verify }) := by
  unfold matchDone
  rcases h with h | h | h | h <;> simp only [h] <;> split <;> simp_all

/-- A call of the acknowledgment match is over (R94, R95): the match advances, the prompt is entered, or the match
restarts at ACK0. -/
theorem ackDone_cases (count : Byte) (k : Fin 6) (s : State) :
    ackDone count k s = { s with fsm := .ack 0 }
      ∨ (∃ h : k.val + 1 < 6, ackDone count k s
          = { s with rxf := s.rxf.set k.val s.ch (by omega), fsm := .ack ⟨k.val + 1, h⟩ })
      ∨ (k.val = 5 ∧ ackDone count k s = pwrcycEntry { s with rxf := s.rxf.set k.val s.ch (by omega) }) := by
  unfold ackDone
  by_cases hm : count = 1#8 ∧ s.ch = ackExpected s.cmd k
  · rw [if_pos hm]
    by_cases h : k.val + 1 < 6
    · exact .inr (.inl ⟨h, dif_pos h⟩)
    · exact .inr (.inr ⟨by omega, dif_neg h⟩)
  · exact .inl (if_neg hm)

end Sys2Proof.Machine
end

