-- ==== Sys2Proof/Laws/PerInstr.lean ====
section
/-! SUPPORT. Per command: its word carries the fixed bits of its row of spec/opcode_table.json. -/

namespace Sys2Proof.Laws.EncodesItsRow

/-- The OP of the row of a command (30_encoding.md R45). -/
def opcode : Instr → BitVec 4
  | .crc _ => 0x1#4
  | .crca _ => 0x2#4
  | .crcv _ => 0x3#4
  | .frq _ _ => 0x4#4
  | .fra _ _ => 0x5#4
  | .rdn _ _ => 0x6#4
  | .qrys _ _ => 0x8#4
  | .qryd _ _ => 0x9#4
  | .seta _ _ => 0xA#4

/-- The bits of IMM that the row of a command fixes at 0 (30_encoding.md R44, R46). -/
def zeroImm : Instr → Half
  | .crc _ => 0xFFFF#16
  | .crca _ => 0xFFFF#16
  | .crcv _ => 0xFFFF#16
  | .frq _ _ => 0x0000#16
  | .fra _ _ => 0xFF00#16
  | .rdn _ _ => 0x0000#16
  | .qrys _ _ => 0x0000#16
  | .qryd _ _ => 0x0000#16
  | .seta _ _ => 0xFF00#16

/-- The word of `i` carries the fixed bits of the row of `i`. -/
def Statement (i : Instr) : Prop :=
  opField (encode i) = opcode i ∧ rsvField (encode i) = 0x0#4 ∧ immField (encode i) &&& zeroImm i = 0x0000#16

/-- A zero-extended byte has no bit in the high byte. -/
theorem setWidth_and_high (n : Byte) : n.setWidth 16 &&& 0xFF00#16 = 0x0000#16 := by
  revert n
  decide

/-- The fixed bits of a word built from its fields. -/
theorem of_fields (op : BitVec 4) (a : Byte) (imm mask : Half) (h : imm &&& mask = 0x0000#16) :
    opField (encodeFields op a imm) = op ∧ rsvField (encodeFields op a imm) = 0x0#4
      ∧ immField (encodeFields op a imm) &&& mask = 0x0000#16 :=
  ⟨opField_encodeFields op a imm, rsvField_encodeFields op a imm, by rwa [immField_encodeFields]⟩

theorem crc (n : Byte) : Statement (.crc n) := of_fields 0x1#4 n _ _ BitVec.zero_and

theorem crca (n : Byte) : Statement (.crca n) := of_fields 0x2#4 n _ _ BitVec.zero_and

theorem crcv (n : Byte) : Statement (.crcv n) := of_fields 0x3#4 n _ _ BitVec.zero_and

theorem frq (addr : Byte) (reg : Half) : Statement (.frq addr reg) := of_fields 0x4#4 addr reg _ BitVec.and_zero

theorem fra (old new : Byte) : Statement (.fra old new) := of_fields 0x5#4 old _ _ (setWidth_and_high new)

theorem rdn (n : Byte) (dl : Half) : Statement (.rdn n dl) := of_fields 0x6#4 n dl _ BitVec.and_zero

theorem qrys (addr : Byte) (reg : Half) : Statement (.qrys addr reg) := of_fields 0x8#4 addr reg _ BitVec.and_zero

theorem qryd (addr : Byte) (reg : Half) : Statement (.qryd addr reg) := of_fields 0x9#4 addr reg _ BitVec.and_zero

theorem seta (old new : Byte) : Statement (.seta old new) := of_fields 0xA#4 old _ _ (setWidth_and_high new)

end Sys2Proof.Laws.EncodesItsRow
end

