-- ==== Sys2Proof/Machine/HostProgram.lean ====
section
/-! DEFINITION. Host programs: the statements of 30_encoding.md R56, the pseudo-instructions of R57, and one host step.
They are the HOST's own code: no part of them stands in State. -/

namespace Sys2Proof.Machine

/-- A host expression (R56): numbers, names of earlier reads, `&` and `>>`. -/
inductive HostExpr where
  | lit (v : Word)
  | name (n : String)
  | and (a b : HostExpr)
  | shr (a b : HostExpr)
deriving DecidableEq, Repr

/-- A host statement (R56). -/
inductive HostStmt where
  /-- `WR idx, value`. -/
  | wr (i : Byte) (v : Word)
  /-- `RD idx -> name`. -/
  | rd (i : Byte) (n : String)
  /-- `label:`. -/
  | label (l : String)
  /-- `BNZ expr, label`. -/
  | bnz (e : HostExpr) (l : String)
  /-- `BZ expr, label`. -/
  | bz (e : HostExpr) (l : String)
deriving DecidableEq, Repr

/-- The HOST running a program: its statements, the next one, and the words read so far, newest first. -/
structure HostCtx where
  prog : List HostStmt
  pc : Nat
  names : List (String × Word)
deriving DecidableEq, Repr

/-- The value of a name: its last read. A name never read is 0 (DESIGN CHOICE, log 16). -/
def hostName : List (String × Word) → String → Word
  | [], _ => 0#32
  | p :: ps, n => if p.1 = n then p.2 else hostName ps n

/-- The value of a host expression, a 32-bit word. `>>` shifts in zeros, and by 32 or more leaves 0 (DESIGN CHOICE,
log 16). -/
def hostEval (names : List (String × Word)) : HostExpr → Word
  | .lit v => v
  | .name n => hostName names n
  | .and a b => hostEval names a &&& hostEval names b
  | .shr a b => hostEval names a >>> (hostEval names b).toNat

/-- The place a branch to label `l` goes to. R56 does not say which place that is where the label stands more than once,
nor where it stands nowhere: the model takes the first one, or else the end of the program (DESIGN CHOICE, log 16). -/
def hostTarget (prog : List HostStmt) (l : String) : Nat := prog.findIdx (fun t => t == .label l)

/-- The register access a statement makes, if it makes one. -/
def hostEvent : HostStmt → Option Event
  | .wr i v => some (.hostWrite i v)
  | .rd i _ => some (.hostRead i)
  | .label _ => none
  | .bnz _ _ => none
  | .bz _ _ => none

/-- The HOST after a statement, where `s` is the machine after the statement's access. -/
def hostAdvance (t : HostStmt) (s : State) (h : HostCtx) : HostCtx :=
  match t with
  | .wr _ _ => { h with pc := h.pc + 1 }
  | .rd _ n => { h with pc := h.pc + 1, names := (n, s.hostData) :: h.names }
  | .label _ => { h with pc := h.pc + 1 }
  | .bnz e l => { h with pc := if hostEval h.names e = 0#32 then h.pc + 1 else hostTarget h.prog l }
  | .bz e l => { h with pc := if hostEval h.names e = 0#32 then hostTarget h.prog l else h.pc + 1 }

/-- One statement of the HOST's program; none once it has ended or where its access stops the machine. -/
def hostStep (h : HostCtx) (s : State) : Option (HostCtx × State) :=
  match h.prog[h.pc]? with
  | none => none
  | some t =>
    match hostEvent t with
    | none => some (hostAdvance t s h, s)
    | some e =>
      match runEvent e s with
      | .next u => some (hostAdvance t u h, u)
      | .fault _ => none
      | .refused _ => none

/-- The HOST's statements of one millisecond: "until it takes a backward branch" (95_test_vectors.md section 3), at most
`n` of them. -/
def hostBurst : Nat → HostCtx → State → HostCtx × State
  | 0, h, s => (h, s)
  | n + 1, h, s =>
    match hostStep h s with
    | none => (h, s)
    | some (h', s') => if h'.pc ≤ h.pc then (h', s') else hostBurst n h' s'

/-- `ISSUE cmd` (R57). -/
def pseudoIssue (i : Instr) : List HostStmt := [.wr 0x00#8 (encode i)]

/-- `WAIT` (R57), with `l` as its label. -/
def pseudoWait (l : String) : List HostStmt :=
  [.label l, .rd 0x01#8 "st", .bnz (.and (.name "st") (.lit 1#32)) l]

/-- `QUERY_SPEED addr` (R57): register 0x0000. -/
def pseudoQuerySpeed (addr : Byte) : List HostStmt := pseudoIssue (.qrys addr 0x0000#16)

/-- `QUERY_DIR addr, reg` (R57). -/
def pseudoQueryDir (addr : Byte) (reg : Half) : List HostStmt := pseudoIssue (.qryd addr reg)

/-- `LOADBUF i, b0, b1, ..., bk` (R57). R57 gives no meaning to an index `0x40+i+k` above 0xFF: the model takes it modulo
256, so that such a write goes to index 0x00 (CMD) and on (DESIGN CHOICE, log 20). -/
def pseudoLoadBuf (i : Byte) (bytes : List Byte) : List HostStmt :=
  bytes.mapIdx fun k b => .wr (0x40#8 + i + BitVec.ofNat 8 k) (b.setWidth 32)

/-- `DRAIN` (R57), with `l` and `lw` as the labels of its two loops. -/
def pseudoDrain (bufSize : Nat) (l lw : String) : List HostStmt :=
  [.label l] ++ pseudoIssue (.rdn (BitVec.ofNat 8 bufSize) 0x0000#16) ++ pseudoWait lw
    ++ [.rd 0x05#8 "c", .bnz (.name "c") l]

end Sys2Proof.Machine
end

