-- ==== Sys2Proof/Tests/Slice0.lean ====
section
/-! SUPPORT. Tests, each on one step of a small state, with results from spec/; and for every obligation with hypotheses
a concrete case that meets them. -/

namespace Sys2Proof.Tests

open Sys2Proof.Machine

/-! ## Well-formedness: one refused term for each check, and the last accepted value beside it (30_encoding.md R47) -/

theorem test_wf_crc : (Instr.crc 17#8).wellFormed 16 = false ∧ (Instr.crc 16#8).wellFormed 16 = true := by decide
theorem test_wf_crca : (Instr.crca 15#8).wellFormed 16 = false ∧ (Instr.crca 14#8).wellFormed 16 = true := by decide
theorem test_wf_crcv : (Instr.crcv 15#8).wellFormed 16 = false ∧ (Instr.crcv 14#8).wellFormed 16 = true := by decide
theorem test_wf_frq : (Instr.frq 0#8 5#16).wellFormed 16 = false ∧ (Instr.frq 1#8 0#16).wellFormed 16 = true := by decide
theorem test_wf_fra : (Instr.fra 5#8 0#8).wellFormed 16 = false ∧ (Instr.fra 0#8 1#8).wellFormed 16 = true := by decide
theorem test_wf_rdn : (Instr.rdn 17#8 0#16).wellFormed 16 = false ∧ (Instr.rdn 16#8 0#16).wellFormed 16 = true := by decide
theorem test_wf_qrys : (Instr.qrys 0#8 5#16).wellFormed 16 = false ∧ (Instr.qrys 1#8 0#16).wellFormed 16 = true := by
  decide
theorem test_wf_qryd : (Instr.qryd 0#8 5#16).wellFormed 16 = false ∧ (Instr.qryd 1#8 0#16).wellFormed 16 = true := by
  decide
theorem test_wf_seta : (Instr.seta 5#8 0#8).wellFormed 16 = false ∧ (Instr.seta 0#8 1#8).wellFormed 16 = true := by
  decide

/-! ## Decoding: words written bit by bit from 30_encoding.md R43 to R45 (OP, RSV, A, IMM) -/

theorem test_decode_crc : decode 0b00010000000010010000000000000000#32 = .ok (.crc 9#8) := by decide
theorem test_decode_crca : decode 0b00100000000001010000000000000000#32 = .ok (.crca 5#8) := by decide
theorem test_decode_crcv : decode 0b00110000000011100000000000000000#32 = .ok (.crcv 14#8) := by decide
theorem test_decode_frq : decode 0b01000000000001010000001000000001#32 = .ok (.frq 5#8 0x0201#16) := by decide
theorem test_decode_fra : decode 0b01010000000000100000000000000111#32 = .ok (.fra 2#8 7#8) := by decide
theorem test_decode_rdn : decode 0b01100000000001000000000000001010#32 = .ok (.rdn 4#8 10#16) := by decide
theorem test_decode_qrys : decode 0b10000000000001010000001000000000#32 = .ok (.qrys 5#8 0x0200#16) := by decide
theorem test_decode_qryd : decode 0b10010000000001110000000000000001#32 = .ok (.qryd 7#8 1#16) := by decide
theorem test_decode_seta : decode 0b10100000000000000000000000000101#32 = .ok (.seta 0#8 5#8) := by decide

/-- The table's bits reach the decoder as they are numbered. -/
theorem test_decodeTableWord : decodeTableWord 32 0x60040000 = some (.rdn 4#8 0#16) := by decide

/-- Illegal words of 30_encoding.md R46, one at each edge: OP 0x0, 0x7, 0xB, 0xF; RSV; IMM; IMM[15:8]. -/
theorem test_decode_illegal :
    decode 0x00000000#32 = .error .unassignedOpcode ∧ decode 0x70000000#32 = .error .unassignedOpcode
      ∧ decode 0xB0000000#32 = .error .unassignedOpcode ∧ decode 0xF0000000#32 = .error .unassignedOpcode
      ∧ decode 0x11040000#32 = .error .reservedField ∧ decode 0x88050000#32 = .error .reservedField
      ∧ decode 0x10040001#32 = .error .unusedImmediate ∧ decode 0x20008000#32 = .error .unusedImmediate
      ∧ decode 0x30000001#32 = .error .unusedImmediate ∧ decode 0x50000105#32 = .error .immediateHighByte
      ∧ decode 0xA0008005#32 = .error .immediateHighByte := by decide

/-! ## The states of the tests -/

/-- The block after reset, at `now = 0`. -/
def idle : State := State.resetAt 0x00000000#32

/-- Whether a step answers a next state that passes `p`. -/
def after (o : Host.Outcome State Fault Refusal) (p : State → Bool) : Bool :=
  match o with
  | .next t => p t
  | .fault _ => false
  | .refused _ => false

/-- BUF with `bytes` from address 0, none of them 0. -/
def bufOf (bytes : List Byte) : Memory := bytes.mapIdx fun k b => (k, b)

/-- A QRYS of device 5 in FSM state `f`. -/
def querying (f : FsmState) : State :=
  { idle with cmd := 0x80050000#32, fsm := f, txf := queryTxf 0x05#8 0x0000#16, txlen := 8#4 }

/-- A SETA from 2 to 7 in FSM state `f`. -/
def assigning (f : FsmState) : State :=
  { idle with cmd := 0xA0020007#32, fsm := f, txf := addrTxf 0x02#8 0x07#8, txlen := 11#4 }

/-- `s` with a reader call of `n` bytes active, `k` of them taken, and deadline 100 ms. -/
def calling (s : State) (n k : Byte) : State := { s with rdActive := true, rdN := n, rdCount := k, rdDl := 100#16 }

/-- An RDN of 2 bytes running, one byte taken. -/
def reading : State := calling { idle with cmd := 0x60020064#32, fsm := .reading } 2#8 1#8

/-! ## Instructions (95_test_vectors.md) -/

/-- T-CK-1. -/
theorem test_crc : after (exec (.crc 9#8) { idle with
      buf := bufOf [0x31#8, 0x32#8, 0x33#8, 0x34#8, 0x35#8, 0x36#8, 0x37#8, 0x38#8, 0x39#8] })
    (fun t => readReg t 0x04#8 == 0x4B37374B#32 && readReg t 0x01#8 == 0x06#32 && readReg t 0x02#8 == 0x100#32) = true := by
  decide +kernel

/-- T-CK-13. -/
theorem test_crc_refused : after (exec (.crc 17#8) idle) (fun t => t == { idle with errOperand := true }) = true := by
  decide +kernel

/-- T-CK-5. -/
theorem test_crca : after (exec (.crca 5#8) { idle with buf := bufOf [0x05#8, 0x03#8, 0x02#8, 0x01#8, 0x2C#8] })
    (fun t => readReg t 0x45#8 == 0x49#32 && readReg t 0x46#8 == 0xC9#32 && readReg t 0x04#8 == 0xC94949C9#32) = true := by
  decide +kernel

/-- T-CK-12. -/
theorem test_crca_refused : after (exec (.crca 15#8) idle) (fun t => t == { idle with errOperand := true }) = true := by
  decide +kernel

/-- T-CK-6. -/
theorem test_crcv_match : after (exec (.crcv 5#8) { idle with
      buf := bufOf [0x05#8, 0x03#8, 0x02#8, 0x01#8, 0x2C#8, 0x49#8, 0xC9#8] })
    (fun t => readReg t 0x01#8 == 0x06#32 && readReg t 0x02#8 == 0x300#32) = true := by
  decide +kernel

/-- T-CK-7. -/
theorem test_crcv_swapped : after (exec (.crcv 5#8) { idle with
      buf := bufOf [0x05#8, 0x03#8, 0x02#8, 0x01#8, 0x2C#8, 0xC9#8, 0x49#8] })
    (fun t => readReg t 0x01#8 == 0x02#32) = true := by
  decide +kernel

/-- T-FR-4. -/
theorem test_frq : after (exec (.frq 0xFF#8 0xFFFF#16) idle) (fun t => t.txf.toList ==
    [0xFF#8, 0x03#8, 0xFF#8, 0xFF#8, 0x00#8, 0x01#8, 0x91#8, 0xF0#8, 0x00#8, 0x00#8, 0x00#8] && t.txlen == 8#4) = true := by
  decide +kernel

/-- T-FR-5. -/
theorem test_frq_refused : after (exec (.frq 0x00#8 0x0000#16) idle) (fun t => t == { idle with errOperand := true })
    = true := by
  decide +kernel

/-- T-FR-7. -/
theorem test_fra : after (exec (.fra 0x02#8 0x07#8) idle) (fun t => t.txf.toList ==
    [0x02#8, 0x10#8, 0x10#8, 0x00#8, 0x00#8, 0x01#8, 0x02#8, 0x00#8, 0x07#8, 0xE2#8, 0xA3#8]
      && readReg t 0x04#8 == 0xA3E2E2A3#32) = true := by
  decide +kernel

/-- T-FR-10. -/
theorem test_fra_refused : after (exec (.fra 0x00#8 0x00#8) idle) (fun t => readReg t 0x01#8 == 0x400#32) = true := by
  decide +kernel

/-- T-RD-3. -/
theorem test_rdn_zero : after (exec (.rdn 0#8 5#16) { idle with rxq := [0xAA#8] })
    (fun t => readReg t 0x01#8 == 0x06#32 && t.count == 0#8 && t.rxq == [0xAA#8]) = true := by
  decide +kernel

/-- The last poll of T-RD-1: `AA BB` taken, no more bytes, t = 11 > 10. -/
theorem test_rdn_deadline : after (engineTurn { reading with rdN := 4#8, rdCount := 2#8, rdDl := 10#16, now := 11#32 })
    (fun t => readReg t 0x01#8 == 0x22#32 && t.count == 2#8) = true := by
  decide +kernel

/-- The VERIFY step of T-ST-2. -/
theorem test_qrys : after (engineTurn { querying .verify with
      rxf := #v[0x05#8, 0x03#8, 0x02#8, 0x01#8, 0x2C#8, 0x49#8, 0xC9#8] })
    (fun t => readReg t 0x01#8 == 0x06#32 && t.result == 300#32 && readReg t 0x04#8 == 0xC94949C9#32) = true := by
  decide +kernel

/-- The loop top of T-ST-1 at t = 1010: -5. -/
theorem test_qrys_timeout : after (engineTurn { querying .ah1 with now := 1010#32, tLast := 909#32 })
    (fun t => readReg t 0x01#8 == 0x0A#32 && t.result == 0xFFFFFFFB#32 && readReg t 0x02#8 == 0x808#32) = true := by
  decide +kernel

/-- The VERIFY step of T-ST-3. -/
theorem test_qryd : after (engineTurn { querying .verify with
      cmd := 0x90050001#32, rxf := #v[0x05#8, 0x03#8, 0x02#8, 0x00#8, 0x07#8, 0x08#8, 0x46#8] })
    (fun t => readReg t 0x01#8 == 0x06#32 && t.result == 7#32) = true := by
  decide +kernel

/-- The frame of T-ST-3, as the SENT step sends it. -/
theorem test_qryd_frame : after (exec (.qryd 0x05#8 0x0001#16) idle) (fun t => after (engineTurn t) (fun u => u.tx ==
    [{ time := 0#32, bytes := [0x05#8, 0x03#8, 0x00#8, 0x01#8, 0x00#8, 0x01#8, 0xD4#8, 0x4E#8] }])) = true := by
  decide +kernel

/-- The last match of T-SA-1: success, and no reading of the trailer. -/
theorem test_seta : after (engineTurn { calling { idle with cmd := 0xA0000005#32, fsm := .ack 5 } 1#8 0#8 with
      rxq := [0x01#8, 0x04#8, 0xD8#8] })
    (fun t => readReg t 0x01#8 == 0x15#32 && t.result == 1#32 && t.rxq == [0x04#8, 0xD8#8]
      && readReg t 0x02#8 == 0x01000A18#32) = true := by
  decide +kernel

/-- T-SA-3: the same with COMPAT_SILENT_SUCCESS. -/
theorem test_seta_silent : after (engineTurn { calling { idle with
      cmd := 0xA0000005#32, fsm := .ack 5, cfg := { compatSilentSuccess := true } } 1#8 0#8 with rxq := [0x01#8] })
    (fun t => readReg t 0x01#8 == 0x11#32 && t.result == 0#32) = true := by
  decide +kernel

/-! ## Errors, registers, reset (95_test_vectors.md) -/

/-- T-ER-4: busy comes before illegal. -/
theorem test_busy_first : after (runEvent (.hostWrite 0x00#8 0x70000000#32) (querying .sent))
    (fun t => readReg t 0x01#8 == 0x101#32 && t.cmd == 0x80050000#32) = true := by
  decide +kernel

/-- T-ER-6: the 65th byte is lost. -/
theorem test_rx_overflow : after (runEvent (.linkByte 0x40#8) { idle with rxq := List.replicate 64 0#8 })
    (fun t => readReg t 0x01#8 == 0x800#32 && readReg t 0x0C#8 == 64#32) = true := by
  decide +kernel

/-- T-ER-8. -/
theorem test_buf_write : after (runEvent (.hostWrite 0x43#8 0x12345678#32) idle)
    (fun t => readReg t 0x43#8 == 0x78#32) = true := by
  decide +kernel

/-- T-RD-8: STATE and RDSTAT of a running RDN. -/
theorem test_running_rdn : readReg { reading with rdCount := 0#8 } 0x02#8 = 0x00001609#32
    ∧ readReg { reading with rdCount := 0#8 } 0x0D#8 = 0x00640002#32 := by
  decide +kernel

/-- The step of a state with a command word offered runs that command. -/
theorem test_step : after (step (idle.withFetchWord 32 0x10000000))
    (fun t => readReg t 0x04#8 == 0xFFFFFFFF#32 && t.agenda == []) = true := by
  decide +kernel

/-! ## A case for each obligation with hypotheses, at the edges of its clauses -/

theorem test_witness_EncodeOfDecodedWord :
    decode 0x500200FF#32 = .ok (.fra 0x02#8 0xFF#8) := by decide +kernel

theorem test_witness_DecodedOperandsAreFields :
    decode 0x10FF0000#32 = .ok (.crc 0xFF#8) ∧ decode 0x20FF0000#32 = .ok (.crca 0xFF#8)
      ∧ decode 0x30000000#32 = .ok (.crcv 0#8) ∧ decode 0x4000FFFF#32 = .ok (.frq 0#8 0xFFFF#16)
      ∧ decode 0x50FF0000#32 = .ok (.fra 0xFF#8 0#8) ∧ decode 0x6000FFFF#32 = .ok (.rdn 0#8 0xFFFF#16)
      ∧ decode 0x80FF0000#32 = .ok (.qrys 0xFF#8 0#16) ∧ decode 0x9000FFFF#32 = .ok (.qryd 0#8 0xFFFF#16)
      ∧ decode 0xA0FF00FF#32 = .ok (.seta 0xFF#8 0xFF#8) := by decide +kernel

theorem test_witness_IllegalWordsExactly :
    idle.busy = false ∧ ∃ e, decode 0x10040001#32 = .error e := ⟨rfl, .unusedImmediate, by decide⟩

theorem test_witness_StepRunsDecodedCommand :
    { idle with agenda := [.hostWrite 0x00#8 0x10000000#32, .tick] }.agenda = [.hostWrite 0x00#8 0x10000000#32, .tick]
      ∧ decode 0x10000000#32 = .ok (.crc 0#8) ∧ decodeTableWord 32 0x10000000 = some (.crc 0#8) := by decide +kernel

theorem test_witness_StepIsOneEvent :
    { idle with agenda := [.tick, .engine] }.agenda = [.tick, .engine] ∧ idle.agenda = [] := by decide +kernel

theorem test_witness_AcceptChecksInOrder :
    (querying .sent).busy = true ∧ idle.busy = false ∧ decode 0x00000000#32 = .error .unassignedOpcode
      ∧ decode 0x10110000#32 = .ok (.crc 17#8) ∧ (Instr.crc 17#8).wellFormed idle.cfg.bufSize = false
      ∧ decode 0x60000005#32 = .ok (.rdn 0#8 5#16) ∧ (Instr.rdn 0#8 5#16).wellFormed idle.cfg.bufSize = true
      ∧ decode 0x60100005#32 = .ok (.rdn 16#8 5#16) ∧ (Instr.rdn 16#8 5#16).wellFormed idle.cfg.bufSize = true
      ∧ decode 0x80010000#32 = .ok (.qrys 1#8 0#16) ∧ (Instr.qrys 1#8 0#16).wellFormed idle.cfg.bufSize = true
      ∧ decode 0xA0000001#32 = .ok (.seta 0#8 1#8) ∧ (Instr.seta 0#8 1#8).wellFormed idle.cfg.bufSize = true := by
  decide +kernel

theorem test_witness_OperandChecks :
    idle.busy = false ∧ idle.cfg.bufSize < (17#8 : Byte).toNat ∧ ¬ idle.cfg.bufSize < (16#8 : Byte).toNat
      ∧ idle.cfg.bufSize < (15#8 : Byte).toNat + 2 ∧ ¬ idle.cfg.bufSize < (14#8 : Byte).toNat + 2 := by decide +kernel

theorem test_witness_BusyRefusesEveryCommand :
    (assigning .pwrcyc).busy = true := by decide +kernel

theorem test_witness_ErrorBitsStayUntilReset :
    Event.tick ≠ .reset ∧ { idle with errBusy := true, errIllegal := true, errOperand := true, rxovf := true }.errBusy = true
      ∧ ∃ t, runEvent .tick { idle with errBusy := true, errIllegal := true, errOperand := true, rxovf := true } = .next t :=
  ⟨by decide, rfl, _, rfl⟩

theorem test_witness_CrcResult :
    idle.busy = false ∧ (16#8 : Byte).toNat ≤ idle.cfg.bufSize := by decide +kernel

theorem test_witness_trailer_results :
    -- CrcaResult, CrcvResult, AppendThenVerifySucceeds
    idle.busy = false ∧ (14#8 : Byte).toNat + 2 ≤ idle.cfg.bufSize ∧ idle.buf.wf = true := by decide +kernel

theorem test_witness_ChecksumFacts :
    (0 < [0x05#8].length + 2 ∧ 0 < 8 ∧ [0x04#8, 0x7F#8, 0x43#8]
        = ([0x05#8] ++ [lowByte (crc16 [0x05#8]), highByte (crc16 [0x05#8])]).modify 0 (fun b => b ^^^ (1#8 <<< 0)))
      ∧ (2 < [0x05#8].length + 2 ∧ 7 < 8 ∧ [0x05#8, 0x7F#8, 0xC3#8]
        = ([0x05#8] ++ [lowByte (crc16 [0x05#8]), highByte (crc16 [0x05#8])]).modify 2 (fun b => b ^^^ (1#8 <<< 7))) := by
  decide +kernel

theorem test_witness_FrqResult :
    idle.busy = false ∧ 0x01#8 ≠ 0x00#8 := by decide +kernel

theorem test_witness_FraResult :
    (querying .timeout).busy = false ∧ 0x01#8 ≠ 0x00#8 := by decide +kernel

theorem test_witness_RdnResult :
    idle.busy = false ∧ (0#8 : Byte).toNat ≤ idle.cfg.bufSize ∧ (16#8 : Byte).toNat ≤ idle.cfg.bufSize := by
  decide +kernel

theorem test_witness_QueryStart :
    (querying .success).busy = false ∧ 0xFF#8 ≠ 0x00#8 := by decide +kernel

theorem test_witness_SetaStart :
    idle.busy = false ∧ 0xFF#8 ≠ 0x00#8 := by decide +kernel

/-- A state that meets the hypotheses of RdnPollTakesOneByte. -/
def pollsByte (s : State) : Bool :=
  s.fsm == .reading && s.rdActive && decide (s.rdCount.toNat < s.rdN.toNat) && decide (s.rdN.toNat ≤ s.cfg.bufSize)
    && s.buf.wf && s.rxq == [0xAA#8]

theorem test_witness_RdnPollTakesOneByte :
    -- the last byte; past the deadline; neither
    (pollsByte { reading with rxq := [0xAA#8] } = true ∧ reading.rdCount.toNat + 1 = reading.rdN.toNat)
      ∧ (pollsByte { reading with rxq := [0xAA#8], rdN := 3#8, now := 101#32 } = true ∧ 1 + 1 ≠ (3#8).toNat
        ∧ reading.rdDl.toNat < (101#32 - reading.rdStart).toNat)
      ∧ (pollsByte { reading with rxq := [0xAA#8], rdN := 3#8, now := 100#32 } = true
        ∧ ¬ reading.rdDl.toNat < (100#32 - reading.rdStart).toNat) := by decide +kernel

theorem test_witness_RdnPollAtDeadline :
    reading.fsm = .reading ∧ reading.rdActive = true ∧ reading.rdCount.toNat < reading.rdN.toNat ∧ reading.rxq = []
      ∧ reading.rdDl.toNat < (101#32 - reading.rdStart).toNat ∧ (100#32 - reading.rdStart).toNat ≤ reading.rdDl.toNat := by
  decide +kernel

theorem test_witness_SilentRdnEndsAfterItsDeadline :
    { reading with rdDl := 0xFFFF#16 }.fsm = .reading ∧ { reading with rdDl := 0xFFFF#16 }.rdActive = true
      ∧ reading.rdCount.toNat < reading.rdN.toNat ∧ reading.rxq = [] ∧ reading.rdStart = reading.now := by
  decide +kernel

theorem test_witness_SentSendsTheFrame :
    (querying .sent).fsm = .sent ∧ (querying .sent).cmd.toNat / 2 ^ 28 ≠ 0xA
      ∧ (assigning .sent).fsm = .sent ∧ (assigning .sent).cmd.toNat / 2 ^ 28 = 0xA := by decide +kernel

theorem test_witness_LoopTop :
    -- past the outer deadline; past the resend interval only; past neither
    (querying .apay).fsm.await = true ∧ (querying .apay).rdActive = false
      ∧ (querying .apay).cfg.outerMs.toNat < (1001#32 - (querying .apay).tStart).toNat
      ∧ ¬ (querying .apay).cfg.outerMs.toNat < (1000#32 - (querying .apay).tStart).toNat
      ∧ (querying .apay).cfg.resendMs.toNat < (1000#32 - { querying .apay with tLast := 899#32 }.tLast).toNat
      ∧ ¬ (querying .apay).cfg.resendMs.toNat < (1000#32 - { querying .apay with tLast := 900#32 }.tLast).toNat := by
  decide +kernel

theorem test_witness_TimeoutExits :
    (assigning (.ack 5)).fsm.await = true ∧ (assigning (.ack 5)).rdActive = false
      ∧ (assigning (.ack 5)).cfg.outerMs.toNat < (1001#32 - (assigning (.ack 5)).tStart).toNat
      ∧ (assigning (.ack 5)).cmd.toNat / 2 ^ 28 = 0xA ∧ (querying .ah2).fsm.await = true
      ∧ (querying .ah2).cmd.toNat / 2 ^ 28 = 0x8 ∧ (0x90050001#32).toNat / 2 ^ 28 = 0x9 := by decide +kernel

/-- A state that meets the hypotheses of HeaderByteMatching and AckByteMatching with byte `b` waiting. -/
def takesByte (s : State) (b : Byte) : Bool := s.rdActive && s.rdN == 1#8 && s.rdCount == 0#8 && s.rxq == [b]

theorem test_witness_HeaderByteMatching :
    (takesByte { calling (querying .ah1) 1#8 0#8 with rxq := [0x05#8] } 0x05#8 = true ∧ 0x05#8 = aField (querying .ah1).cmd)
      ∧ takesByte { calling (querying .ah1) 1#8 0#8 with rxq := [0x04#8] } 0x04#8 = true
      ∧ takesByte { calling (querying .ah2) 1#8 0#8 with rxq := [0x03#8] } 0x03#8 = true
      ∧ takesByte { calling (querying .ah2) 1#8 0#8 with rxq := [0x83#8] } 0x83#8 = true
      ∧ takesByte { calling (querying .ah3) 1#8 0#8 with rxq := [0x02#8] } 0x02#8 = true
      ∧ takesByte { calling (querying .ah3) 1#8 0#8 with rxq := [0x05#8] } 0x05#8 = true := by decide +kernel

theorem test_witness_PayloadPoll :
    -- the fourth byte; a byte past the deadline; a byte before it
    ((3#8 : Byte).toNat < 4 ∧ (calling (querying .apay) 4#8 3#8).fsm = .apay
        ∧ (calling (querying .apay) 4#8 3#8).rdActive = true ∧ (calling (querying .apay) 4#8 3#8).rdN = 4#8
        ∧ { calling (querying .apay) 4#8 3#8 with rxq := [0xAA#8] }.rxq = [0xAA#8])
      ∧ (calling (querying .apay) 4#8 2#8).rdCount.toNat < 4
      ∧ (calling (querying .apay) 4#8 2#8).rdDl.toNat < (101#32 - (querying .apay).rdStart).toNat
      ∧ ¬ (calling (querying .apay) 4#8 2#8).rdDl.toNat < (100#32 - (querying .apay).rdStart).toNat := by
  decide +kernel

theorem test_witness_ShortReadRestartsSearch :
    (calling (querying .apay) 4#8 3#8).rdActive = true ∧ (3#8 : Byte).toNat < (4#8 : Byte).toNat
      ∧ (calling (querying .apay) 4#8 3#8).rdN = (if (querying .apay).fsm = .apay then 4#8 else 1#8)
      ∧ (querying .apay).rxq = [] ∧ (calling (querying .apay) 4#8 3#8).rdDl.toNat < (101#32 - (querying .apay).rdStart).toNat
      ∧ (calling (assigning (.ack 5)) 1#8 0#8).fsm = .ack 5
      ∧ (calling (assigning (.ack 5)) 1#8 0#8).rdN = (if (assigning (.ack 5)).fsm = .apay then 4#8 else 1#8) := by
  decide +kernel

theorem test_witness_VerifyDecidesTheReply :
    (querying .verify).fsm = .verify ∧ (querying .verify).cmd.toNat / 2 ^ 28 = 0x8
      ∧ (swap16 (crc16 [0x05#8, 0x03#8, 0x02#8, 0x01#8, 0x2C#8])).toNat = (0x49#8).toNat * 256 + (0xC9#8).toNat
      ∧ (swap16 (crc16 [0x05#8, 0x03#8, 0x02#8, 0x01#8, 0x2C#8])).toNat ≠ (0xC9#8).toNat * 256 + (0x49#8).toNat := by
  decide +kernel

theorem test_witness_AckByteMatching :
    -- a wrong byte; a right one; the sixth
    takesByte { calling (assigning (.ack 0)) 1#8 0#8 with rxq := [0x10#8] } 0x10#8 = true
      ∧ takesByte { calling (assigning (.ack 4)) 1#8 0#8 with rxq := [0x00#8] } 0x00#8 = true
      ∧ takesByte { calling (assigning (.ack 5)) 1#8 0#8 with rxq := [0x01#8] } 0x01#8 = true
      ∧ (assigning (.ack 0)).fsm = .ack 0 ∧ aField (assigning (.ack 0)).cmd = 0x02#8 := by decide +kernel

theorem test_witness_ReplyAfterNoiseIsDecoded :
    (querying .sent).fsm = .sent ∧ (querying .sent).rdActive = false ∧ (querying .sent).cmd.toNat / 2 ^ 28 = 0x8
      ∧ (∀ b ∈ [0x00#8, 0x03#8], b ≠ aField (querying .sent).cmd)
      ∧ [0x00#8, 0x03#8, 0x05#8, 0x03#8, 0x02#8, 0x01#8, 0x2C#8, 0x49#8, 0xC9#8, 0x05#8]
        = [0x00#8, 0x03#8] ++ [aField (querying .sent).cmd, 0x03#8, 0x02#8, 0x01#8, 0x2C#8]
          ++ [lowByte (crc16 [0x05#8, 0x03#8, 0x02#8, 0x01#8, 0x2C#8]),
            highByte (crc16 [0x05#8, 0x03#8, 0x02#8, 0x01#8, 0x2C#8])] ++ [0x05#8] := by decide +kernel

theorem test_witness_SpuriousAddressByteLosesTheReply :
    (querying .sent).fsm = .sent ∧ (querying .sent).rdActive = false ∧ (querying .sent).cmd.toNat / 2 ^ 28 = 0x8
      ∧ aField (querying .sent).cmd ≠ 0x03#8
      ∧ (∀ b ∈ [0x03#8, 0x02#8, 0x01#8, 0x2C#8, 0x49#8, 0xC9#8], b ≠ aField (querying .sent).cmd) := by decide +kernel

theorem test_witness_EchoCompletesSeta :
    (assigning .sent).fsm = .sent ∧ (assigning .sent).rdActive = false
      ∧ (assigning .sent).cmd = encode (.seta 0x02#8 0x07#8) ∧ (assigning .sent).txf = addrTxf 0x02#8 0x07#8
      ∧ (assigning .sent).txlen = 11#4
      ∧ { assigning .sent with rxq := (assigning .sent).txf.toList }.rxq = (assigning .sent).txf.toList := by
  decide +kernel

theorem test_witness_RegisterMap :
    idle.cfg.legal = true ∧ idle.rxq.length < 2 ^ 32 ∧ 10 < 11 ∧ 6 < 7 ∧ 15 < idle.cfg.bufSize
      ∧ (0x0E#8).toNat = 0x0E ∧ 0x1B ≤ (0x1B#8).toNat ∧ (0x3F#8).toNat < 0x40 ∧ 0x40 + idle.cfg.bufSize ≤ (0x50#8).toNat := by
  decide +kernel

theorem test_witness_BufWrite :
    idle.cfg.legal = true ∧ 15 < idle.cfg.bufSize ∧ idle.buf.wf = true ∧ idle.busy = false ∧ reading.cfg.legal = true
      ∧ 0 < reading.cfg.bufSize ∧ reading.buf.wf = true ∧ reading.busy = true := by decide +kernel

theorem test_witness_OtherWritesAreIgnored :
    (0x0E#8).toNat = 0x0E ∧ (0x01#8).toNat ≠ 0 ∧ (0x3F#8).toNat < 0x40
      ∧ (0x50#8).toNat ≠ 0 ∧ 0x40 + idle.cfg.bufSize ≤ (0x50#8).toNat := by
  decide +kernel

theorem test_witness_LinkDelivery :
    { idle with rxq := List.replicate 63 0#8 }.rxq.length < idle.cfg.rxDepth
      ∧ idle.cfg.rxDepth ≤ { idle with rxq := List.replicate 64 0#8 }.rxq.length
      ∧ Event.engine ≠ .reset
      ∧ after (runEvent .engine { reading with rxq := [0xAA#8, 0xBB#8] }) (fun t => t.rxq == [0xBB#8]) = true := by
  decide +kernel

theorem test_witness_FifoKeepsOrder :
    { idle with rxq := List.replicate 64 0#8 }.rxq.length ≤ idle.cfg.rxDepth := by decide +kernel

theorem test_witness_ClockTicks :
    (elapsed { idle with now := 0xFFFFFFFE#32 } 0#32).toNat + 1 < 2 ^ 32 := by decide +kernel

theorem test_witness_PwrcycIsTerminal :
    { assigning .pwrcyc with pwr := true }.fsm = .pwrcyc ∧ { assigning .pwrcyc with pwr := true }.pwr = true
      ∧ 0x40 ≤ (0x4F#8).toNat ∧ (0x4F#8).toNat < 0x40 + (assigning .pwrcyc).cfg.bufSize := by decide +kernel

theorem test_witness_CommandIsStableWhileBusy :
    reading.busy = true ∧ Event.hostWrite 0x00#8 0#32 ≠ .reset ∧ Event.hostRead 0x03#8 ≠ .reset
      ∧ runEvent (.hostWrite 0x00#8 0#32) reading = .next { reading with errBusy := true }
      ∧ runEvent (.hostRead 0x03#8) reading = .next { reading with hostData := 0#32 } :=
  ⟨rfl, by decide, by decide, rfl, rfl⟩

theorem test_witness_RestingBlockIsStill :
    idle.busy = false ∧ runEvent .engine idle = .next idle ∧ runEvent .tick idle = .next { idle with now := 1#32 }
      ∧ runEvent (.linkByte 5#8) idle = .next { idle with rxq := [5#8] } ∧ runEvent .linkTake idle = .next idle :=
  ⟨rfl, rfl, rfl, rfl, rfl⟩

theorem test_witness_AgentsKeepToTheirState :
    (∃ t, runEvent .engine (querying .sent) = .next t) ∧ Event.engine ≠ .reset
      ∧ runEvent (.hostWrite 0x00#8 0#32) idle = .next { idle with errIllegal := true }
      ∧ runEvent (.hostRead 0x0B#8) { reading with now := 7#32 } = .next { reading with now := 7#32, hostData := 7#32 }
      ∧ runEvent (.linkByte 5#8) reading = .next { reading with rxq := [5#8] }
      ∧ runEvent .linkTake { reading with tx := [{ time := 0#32, bytes := [] }] } = .next reading
      ∧ runEvent .tick { reading with now := 0xFFFFFFFF#32 } = .next { reading with now := 0#32 } :=
  ⟨⟨_, rfl⟩, by decide, rfl, rfl, rfl, rfl, rfl⟩

/-- A query in APAY with a byte of its payload waiting: a state with a reader call, a frame and RXQ bytes. -/
def midReply : State :=
  { calling (querying .apay) 4#8 1#8 with rxq := [0x2C#8, 0x49#8], agenda := [.engine] }

theorem midReply_inv : Inv midReply := by
  constructor <;> decide +kernel

theorem test_witness_InvKeptByEveryStep :
    -- and EveryStepAnswers
    Inv midReply ∧ ∃ t, step midReply = .next t := ⟨midReply_inv, _, rfl⟩

theorem sent_inv : Inv { querying .sent with agenda := [.engine] } := by
  constructor <;> decide +kernel

theorem test_witness_EveryFrameSentIsGood :
    Inv { querying .sent with agenda := [.engine] } ∧ streamOk { querying .sent with agenda := [.engine] } = true
      ∧ ∃ t, step { querying .sent with agenda := [.engine] } = .next t ∧ t.tx ≠ [] :=
  ⟨sent_inv, rfl, _, rfl, by decide⟩

/-- A query at its last loop top, as late as one can come: `OUTER_MS + READ_MS + 1` ms after the SENT step. -/
def lastTop : State := { querying .ah1 with now := 1101#32, tLast := 1000#32 }

theorem test_witness_TransactionTimeBound :
    Inv lastTop ∧ timelyOk lastTop = true ∧ eagerTick .engine lastTop = true
      ∧ ∃ t, runEvent .engine lastTop = .next t ∧ lastTop.fsm ≠ .timeout ∧ t.fsm = .timeout :=
  ⟨by constructor <;> decide +kernel, by decide +kernel, by decide, _, rfl, by decide, by decide +kernel⟩

theorem test_witness_TransactionTimeBound_tick :
    Inv { calling (querying .ah1) 1#8 0#8 with now := 100#32 }
      ∧ timelyOk { calling (querying .ah1) 1#8 0#8 with now := 100#32 } = true
      ∧ eagerTick .tick { calling (querying .ah1) 1#8 0#8 with now := 100#32 } = true :=
  ⟨by constructor <;> decide +kernel, by decide +kernel, by decide +kernel⟩

theorem test_witness_EngineComesToRest :
    Inv midReply := midReply_inv

theorem test_witness_SilentTransactionTimesOutAt1010 :
    (querying .sent).fsm = .sent ∧ (querying .sent).rdActive = false ∧ (querying .sent).rxq = []
      ∧ (querying .sent).resends = 0#16 ∧ (querying .sent).cfg.readMs = 100#16 ∧ (querying .sent).cfg.resendMs = 100#32
      ∧ (querying .sent).cfg.outerMs = 1000#32 := by decide +kernel

end Sys2Proof.Tests
end

/-! # The host registers: STATUS, STATE, reserved and read-only indices

The codes of `state` and BUSY, the bits of STATUS and STATE, and what the host port does at the indices that
are neither CMD nor BUF (10_state.md R13, R14, R18 to R20, R25, R27); the obligations O39, O40, O41 and O45. -/

namespace Sys2Proof.Machine

/-! ## The codes of `state`, and BUSY -/

/-- R13's table of codes, read from code to state. -/
def FsmState.ofCode (c : Byte) : FsmState :=
  match c with
  | 0x01#8 => .sent
  | 0x02#8 => .ah1
  | 0x03#8 => .ah2
  | 0x04#8 => .ah3
  | 0x05#8 => .apay
  | 0x06#8 => .verify
  | 0x07#8 => .success
  | 0x08#8 => .timeout
  | 0x09#8 => .reading
  | 0x10#8 => .ack 0
  | 0x11#8 => .ack 1
  | 0x12#8 => .ack 2
  | 0x13#8 => .ack 3
  | 0x14#8 => .ack 4
  | 0x15#8 => .ack 5
  | 0x18#8 => .pwrcyc
  | _ => .idle

@[simp] theorem FsmState.ofCode_code (f : FsmState) : FsmState.ofCode f.code = f := by
  cases f with
  | ack k => revert k; decide
  | _ => rfl

/-- The codes tell the states apart. -/
theorem FsmState.code_injective : Function.Injective FsmState.code :=
  Function.LeftInverse.injective FsmState.ofCode_code

theorem FsmState.code_ack_toNat (k : Fin 6) : (FsmState.code (.ack k)).toNat = 0x10 + k.val := by
  have := k.isLt
  simp only [FsmState.code, BitVec.toNat_add, BitVec.toNat_ofNat]
  omega

theorem FsmState.busy_eq_true_iff (f : FsmState) :
    f.busy = true ↔ f = .sent ∨ f = .ah1 ∨ f = .ah2 ∨ f = .ah3 ∨ f = .apay ∨ f = .verify ∨ f = .reading
      ∨ (∃ k, f = .ack k) ∨ f = .pwrcyc := by
  cases f <;> simp [FsmState.busy]

theorem FsmState.busy_eq_false_iff (f : FsmState) :
    f.busy = false ↔ f = .idle ∨ f = .success ∨ f = .timeout := by
  cases f <;> simp [FsmState.busy]

/-! ## The bits of STATUS -/

theorem bitAt_getLsbD (b : Bool) {j : Nat} (hj : j < 32) (k : Nat) :
    (bitAt b j).getLsbD k = (b && decide (k = j)) := by
  cases b with
  | false => simp [bitAt]
  | true =>
    rw [bitAt, if_pos rfl, ← BitVec.twoPow_eq, BitVec.getLsbD_twoPow]
    simp [hj, eq_comm]

/-- A bit of STATUS is one of its ten flags, or 0 (R19). -/
theorem statusWord_getLsbD (s : State) (k : Nat) :
    (statusWord s).getLsbD k =
      ((s.busy && decide (k = 0)) || (s.done && decide (k = 1)) || (s.ok && decide (k = 2)) || (s.tmo && decide (k = 3))
        || (s.pwr && decide (k = 4)) || (s.short && decide (k = 5)) || (s.errBusy && decide (k = 8))
        || (s.errIllegal && decide (k = 9)) || (s.errOperand && decide (k = 10)) || (s.rxovf && decide (k = 11))) := by
  simp [statusWord, bitAt_getLsbD]

theorem statusWord_reserved_bit (s : State) {k : Nat} (hk : k = 6 ∨ k = 7 ∨ 12 ≤ k) :
    (statusWord s).getLsbD k = false := by
  have flags_elsewhere : k ≠ 0 ∧ k ≠ 1 ∧ k ≠ 2 ∧ k ≠ 3 ∧ k ≠ 4 ∧ k ≠ 5 ∧ k ≠ 8 ∧ k ≠ 9 ∧ k ≠ 10 ∧ k ≠ 11 := by omega
  simp [statusWord_getLsbD, flags_elsewhere]

/-! ## The fields of STATE -/

/-- Two bit strings put together, as a number. -/
theorem append_toNat_eq_add {m n : Nat} (hi : BitVec m) (lo : BitVec n) :
    (hi ++ lo).toNat = lo.toNat + 2 ^ n * hi.toNat := by
  rw [BitVec.toNat_append, ← Nat.shiftLeft_add_eq_or_of_lt lo.isLt, Nat.shiftLeft_eq, Nat.mul_comm, Nat.add_comm]

/-- The opcode field of a word, as a number. -/
theorem opField_toNat (w : Word) : (opField w).toNat = w.toNat / 2 ^ 28 :=
  ((opField_eq_iff w (opField w)).1 rfl).symm

/-- STATE as the sum of its fields at their places (R20). -/
theorem stateWord_toNat (s : State) :
    (stateWord s).toNat =
      s.fsm.code.toNat + 2 ^ 8 * (s.cmd.toNat / 2 ^ 28) + 2 ^ 12 * s.rdActive.toNat + 2 ^ 24 * s.ch.toNat := by
  simp only [stateWord, append_toNat_eq_add, opField_toNat, BitVec.toNat_ofBool, BitVec.toNat_ofNat]
  omega

/-- A bit between a low field and a high one is 0. -/
theorem testBit_between_fields {low a b k : Nat} (hi : Nat) (hlow : low < 2 ^ a) (ha : a ≤ k) (hb : k < b) :
    (low + 2 ^ b * hi).testBit k = false := by
  have low_lt_bit : low < 2 ^ k := hlow.trans_le (Nat.pow_le_pow_right (by decide) ha)
  have low_lt_high : low < 2 ^ b := low_lt_bit.trans (Nat.pow_lt_pow_right (by decide) hb)
  rw [Nat.add_comm, Nat.testBit_two_pow_mul_add _ low_lt_high, if_pos hb, Nat.testBit_lt_two_pow low_lt_bit]

/-- The fields of STATE below CH fill bits 12:0. -/
theorem stateWord_low_fields_lt (s : State) :
    s.fsm.code.toNat + 2 ^ 8 * (s.cmd.toNat / 2 ^ 28) + 2 ^ 12 * s.rdActive.toNat < 2 ^ 13 := by
  have := s.fsm.code.isLt
  have := s.cmd.isLt
  have := s.rdActive.toNat_lt
  omega

theorem stateWord_reserved_bit (s : State) {k : Nat} (hlo : 13 ≤ k) (hhi : k ≤ 23) :
    (stateWord s).getLsbD k = false := by
  rw [BitVec.getLsbD, stateWord_toNat]
  exact testBit_between_fields _ (stateWord_low_fields_lt s) hlo (Nat.lt_succ_of_le hhi)

/-! ## The host port outside CMD and BUF -/

@[simp] theorem readReg_status (s : State) : readReg s 0x01#8 = statusWord s := rfl

@[simp] theorem readReg_state (s : State) : readReg s 0x02#8 = stateWord s := rfl

/-- A reserved index reads 0 (R27). -/
theorem readReg_reserved (s : State) {i : Byte}
    (hi : i.toNat = 0x0E ∨ i.toNat = 0x0F ∨ (0x1B ≤ i.toNat ∧ i.toNat < 0x20) ∨ (0x27 ≤ i.toNat ∧ i.toNat < 0x40)
      ∨ 0x40 + s.cfg.bufSize ≤ i.toNat) :
    readReg s i = 0x00000000#32 := by
  have not_scalar : ∀ n ≤ 0x0D, i.toNat ≠ n := by omega
  have not_txf : ¬ (0x10 ≤ i.toNat ∧ i.toNat ≤ 0x1A) := by omega
  have not_rxf : ¬ (0x20 ≤ i.toNat ∧ i.toNat ≤ 0x26) := by omega
  have not_buf : ¬ (0x40 ≤ i.toNat ∧ i.toNat < 0x40 + s.cfg.bufSize) := by omega
  simp only [readReg, not_scalar, not_txf, not_rxf, not_buf, if_false, Nat.reduceLeDiff]

/-- A host write outside CMD and BUF changes nothing (R25, R27). -/
theorem hostWrite_ignored {s : State} {i : Byte} (w : Word) (hcmd : i.toNat ≠ 0)
    (hbuf : i.toNat < 0x40 ∨ 0x40 + s.cfg.bufSize ≤ i.toNat) :
    runEvent (.hostWrite i w) s = .next s := by
  have not_buf : ¬ (0x40 ≤ i.toNat ∧ i.toNat < 0x40 + s.cfg.bufSize) := by omega
  rw [runEvent, hostWrite, if_neg hcmd, if_neg not_buf]

/-! ## The obligations -/

/-- Settles O39: a bit of STATUS is looked up flag by flag, and index 0x01 is outside CMD and BUF. -/
theorem statusBits : Obligations.StatusBits := by
  refine ⟨fun s w => hostWrite_ignored w (by decide) (.inl (by decide)), fun s k => ?_⟩
  rw [readReg_status, statusWord_getLsbD]
  match k with
  | 0 | 1 | 2 | 3 | 4 | 5 | 6 | 7 | 8 | 9 | 10 | 11 => simp
  | n + 12 => simp

/-- Settles O40: STATE is the sum of its fields, and index 0x02 is outside CMD and BUF. -/
theorem stateFields : Obligations.StateFields :=
  ⟨fun _ w => hostWrite_ignored w (by decide) (.inl (by decide)), stateWord_toNat⟩

/-- Settles O45: each part is the lemma on that kind of index or bit. -/
theorem otherWritesAreIgnored : Obligations.OtherWritesAreIgnored :=
  ⟨fun s _ hi => readReg_reserved s hi, fun _ _ w hcmd hbuf => hostWrite_ignored w hcmd hbuf,
    fun s _ hk => statusWord_reserved_bit s hk, fun s _ hlo hhi => stateWord_reserved_bit s hlo hhi⟩

/-- Settles O41: the table of codes row by row, its left inverse `FsmState.ofCode`, and BUSY state by state. -/
theorem stateCodesAndBusy : Obligations.StateCodesAndBusy :=
  ⟨⟨⟨rfl, rfl, rfl, rfl, rfl, rfl, rfl, rfl, rfl, rfl, rfl, FsmState.code_ack_toNat⟩,
      fun _ _ h => FsmState.code_injective h⟩,
    fun s => s.fsm.busy_eq_true_iff, fun s => s.fsm.busy_eq_false_iff⟩

end Sys2Proof.Machine

/-! # The two sides of a trailer, and the RX FIFO

The bytes CRCA writes and the bytes a check accepts (20_memory.md R34); what each operation does to RXQ, up to
one event of any agent (20_memory.md R36); the obligations O17 and O46. -/

namespace Sys2Proof.Machine

/-! ## The trailer: the halves of a CRC as numbers -/

theorem lowByte_toNat (v : Half) : (lowByte v).toNat = v.toNat % 256 := by
  simp [lowByte]

theorem highByte_toNat (v : Half) : (highByte v).toNat = v.toNat / 256 := by
  have := v.isLt
  simp only [highByte, BitVec.extractLsb'_toNat, Nat.shiftRight_eq_div_pow]
  omega

/-- A swapped value is `{b0, b1}` exactly when its low byte is b0 and its high byte b1 (30_encoding.md R52). -/
theorem swap16_eq_u16_iff (v : Half) (b0 b1 : Byte) :
    swap16 v = u16 b0 b1 ↔ b0 = lowByte v ∧ b1 = highByte v := by
  rw [swap16, u16_inj, eq_comm, @eq_comm _ b1]

/-- Settles O17: equal numbers are equal words, and the halves of a word are unique. -/
theorem trailerSidesAgree : Obligations.TrailerSidesAgree := by
  intro B b0 b1
  rw [← u16_toNat, BitVec.toNat_inj, swap16_eq_u16_iff, ← lowByte_toNat, ← highByte_toNat, BitVec.toNat_inj,
    BitVec.toNat_inj]

/-! ## RXQ under the HOST -/

/-- The part of a command that runs when it is accepted leaves RXQ alone. -/
@[simp] theorem commandBody_rxq (i : Instr) (s : State) : (commandBody i s).rxq = s.rxq := by
  cases i with
  | rdn n dl =>
    rw [commandBody, rdnBody]
    split <;> simp
  | _ => rfl

theorem exec_rxq {s t : State} {i : Instr} (h : exec i s = .next t) : t.rxq = s.rxq := by
  obtain ⟨-, rfl⟩ | ⟨-, -, rfl⟩ | ⟨-, -, rfl⟩ := exec_cases h <;> simp

theorem acceptWord_rxq {s t : State} {w : Word} (h : acceptWord w s = .next t) : t.rxq = s.rxq := by
  obtain ⟨-, rfl⟩ | ⟨-, -, rfl⟩ | ⟨-, i, -, hexec⟩ := acceptWord_cases h
  · simp
  · simp
  · exact exec_rxq hexec

theorem hostWrite_rxq {s t : State} {i : Byte} {w : Word} (h : hostWrite i w s = .next t) : t.rxq = s.rxq := by
  obtain ⟨-, hcmd⟩ | ⟨-, -, -, rfl⟩ | ⟨-, -, -, rfl⟩ | rfl := hostWrite_cases h
  · exact acceptWord_rxq hcmd
  · simp
  · simp
  · rfl

/-! ## RXQ under the ENGINE -/

@[simp] theorem sentStep_rxq (s : State) : (sentStep s).rxq = s.rxq := rfl

@[simp] theorem verifyStep_rxq (s : State) : (verifyStep s).rxq = s.rxq := by
  obtain ⟨-, heq⟩ | ⟨-, heq⟩ := verifyStep_cases s <;> simp [heq]

@[simp] theorem loopTop_rxq (s : State) : (loopTop s).rxq = s.rxq := by
  obtain ⟨-, heq⟩ | ⟨-, -, heq⟩ | ⟨-, -, heq⟩ := loopTop_cases s <;> simp [heq]

theorem matchDone_rxq (count : Byte) {s : State} (h : s.fsm = .ah1 ∨ s.fsm = .ah2 ∨ s.fsm = .ah3 ∨ s.fsm = .apay) :
    (matchDone count s).rxq = s.rxq := by
  obtain heq | ⟨-, heq⟩ | ⟨-, heq⟩ | ⟨-, heq⟩ | ⟨-, -, heq⟩ := matchDone_cases count h <;> rw [heq]

@[simp] theorem ackDone_rxq (count : Byte) (k : Fin 6) (s : State) : (ackDone count k s).rxq = s.rxq := by
  obtain heq | ⟨_, heq⟩ | ⟨-, heq⟩ := ackDone_cases count k s <;> simp [heq]

/-- The completion of a call takes no byte, whoever owns the call. -/
@[simp] theorem readerDone_rxq (count : Byte) (s : State) : (readerDone count s).rxq = s.rxq := by
  unfold readerDone
  cases hfsm : s.fsm with
  | ah1 | ah2 | ah3 | apay => exact matchDone_rxq count (by simp [hfsm])
  | ack k => exact ackDone_rxq count k s
  | _ => rfl

@[simp] theorem pollEnd_rxq (s : State) : (pollEnd s).rxq = s.rxq := by
  obtain ⟨heq, -, -⟩ | ⟨heq, -⟩ := pollEnd_cases s <;> simp [heq]

theorem storeByte_rxq {s t : State} {b : Byte} (h : storeByte b s = .next t) : t.rxq = s.rxq := by
  obtain ⟨-, -, rfl⟩ | ⟨-, -, rfl⟩ | ⟨-, -, rfl⟩ := storeByte_cases h <;> rfl

/-- A poll takes nothing, or the oldest byte (42_timed_reader.md R71). -/
theorem poll_rxq {s t : State} (h : poll s = .next t) : t.rxq = s.rxq ∨ ∃ b, s.rxq = b :: t.rxq := by
  obtain ⟨u, htake, rfl⟩ := poll_cases h
  rw [pollEnd_rxq]
  obtain ⟨rfl, -⟩ | ⟨b, q, v, hq, -, hstore, rfl⟩ := pollTake_cases htake
  · exact .inl rfl
  · have rest_kept : v.rxq = q := storeByte_rxq hstore
    exact .inr ⟨b, by rw [hq, rest_kept]⟩

/-- Only a turn with an active reader call takes a byte, and it takes the oldest. -/
theorem engineTurn_rxq {s t : State} (h : engineTurn s = .next t) :
    t.rxq = s.rxq ∨ (s.rdActive = true ∧ ∃ b, s.rxq = b :: t.rxq) := by
  obtain ⟨-, rfl⟩ | ⟨-, rfl⟩ | ⟨-, rfl⟩ | ⟨-, -, rfl⟩ | ⟨-, hactive, -, hpoll⟩ := engineTurn_cases h
  · exact .inl rfl
  · exact .inl (sentStep_rxq s)
  · exact .inl (verifyStep_rxq s)
  · exact .inl (loopTop_rxq s)
  · exact (poll_rxq hpoll).imp_right fun head_taken => ⟨hactive, head_taken⟩

/-! ## RXQ under the LINK, and under any event -/

theorem linkDeliver_of_room (b : Byte) {s : State} (h : s.rxq.length < s.cfg.rxDepth) :
    linkDeliver b s = { s with rxq := s.rxq ++ [b] } := if_pos h

theorem linkDeliver_of_full (b : Byte) {s : State} (h : s.cfg.rxDepth ≤ s.rxq.length) :
    linkDeliver b s = { s with rxovf := true } := if_neg (Nat.not_lt.2 h)

theorem linkDeliver_rxq (b : Byte) (s : State) :
    (linkDeliver b s).rxq = s.rxq ∨ (linkDeliver b s).rxq = s.rxq ++ [b] := by
  obtain ⟨-, heq⟩ | ⟨-, heq⟩ := linkDeliver_cases b s <;> simp [heq]

/-- What one event other than RESET can do to RXQ (20_memory.md R36). -/
theorem runEvent_rxq {s t : State} {e : Event} (hreset : e ≠ .reset) (h : runEvent e s = .next t) :
    t.rxq = s.rxq ∨ (∃ b, e = .linkByte b ∧ t.rxq = s.rxq ++ [b])
      ∨ (e = .engine ∧ s.rdActive = true ∧ ∃ b, s.rxq = b :: t.rxq) := by
  obtain ⟨i, w, rfl, hwrite⟩ | ⟨i, rfl, rfl⟩ | ⟨rfl, hturn⟩ | ⟨b, rfl, rfl⟩ | ⟨rfl, rfl⟩ | ⟨rfl, rfl⟩ | ⟨rfl, -⟩ :=
    runEvent_cases h
  · exact .inl (hostWrite_rxq hwrite)
  · exact .inl (hostRead_rxq s i)
  · exact (engineTurn_rxq hturn).imp_right fun byte_taken => .inr ⟨rfl, byte_taken⟩
  · exact (linkDeliver_rxq b s).imp_right fun appended => .inl ⟨b, rfl, appended⟩
  · exact .inl (linkTakeFrame_rxq s)
  · exact .inl (clockTick_rxq s)
  · exact absurd rfl hreset

/-- Settles O46: a delivery on each side of RX_DEPTH, then the agents one by one. -/
theorem linkDelivery : Obligations.LinkDelivery :=
  ⟨fun _ b => ⟨fun hroom => congrArg _ (linkDeliver_of_room b hroom),
      fun hfull => congrArg _ (linkDeliver_of_full b hfull)⟩,
    fun _ _ _ hreset h => runEvent_rxq hreset h⟩

end Sys2Proof.Machine

/-! # Illegal words and operand checks

The fields of a word as numbers, where each layer of the decoder answers an error (30_encoding.md R46), and the
accept of a refused and of a latched command (R47, R48); the obligations O4 and O9. -/

namespace Sys2Proof

/-! ## The fields of a word as numbers -/

theorem rsvField_eq_zero_iff (w : Word) : rsvField w = 0x0#4 ↔ w.toNat / 2 ^ 24 % 16 = 0 := by
  rw [← BitVec.toNat_inj]
  simp [rsvField, Nat.shiftRight_eq_div_pow]

theorem immField_eq_zero_iff (w : Word) : immField w = 0x0000#16 ↔ w.toNat % 2 ^ 16 = 0 := by
  rw [← BitVec.toNat_inj]
  simp [immField]

theorem immField_high_eq_zero_iff (w : Word) :
    (immField w).extractLsb' 8 8 = 0x00#8 ↔ w.toNat / 2 ^ 8 % 2 ^ 8 = 0 := by
  rw [← BitVec.toNat_inj]
  simp only [immField, BitVec.extractLsb'_toNat, BitVec.toNat_ofNat, Nat.shiftRight_eq_div_pow]
  omega

/-! ## Where each layer of the decoder answers an error -/

theorem decodeNoImm_error_iff (imm : Half) (i : Instr) :
    (∃ e, decodeNoImm imm i = .error e) ↔ imm ≠ 0x0000#16 := by
  by_cases h : imm = 0x0000#16 <;> simp [decodeNoImm, h]

theorem decodeNewAddr_error_iff (imm : Half) (mk : Byte → Instr) :
    (∃ e, decodeNewAddr imm mk = .error e) ↔ imm.extractLsb' 8 8 ≠ 0x00#8 := by
  by_cases h : imm.extractLsb' 8 8 = 0x00#8 <;> simp [decodeNewAddr, h]

/-- The opcode map's part of R46: the rows whose IMM is 0, those whose IMM is a new address, those with a whole IMM, and
the opcodes with no row. -/
theorem decodeOp_error_iff (op : BitVec 4) (a : Byte) (imm : Half) :
    (∃ e, decodeOp op a imm = .error e) ↔
      (op.toNat = 0x0 ∨ op.toNat = 0x7 ∨ 0xB ≤ op.toNat
        ∨ ((op.toNat = 0x1 ∨ op.toNat = 0x2 ∨ op.toNat = 0x3) ∧ imm ≠ 0x0000#16)
        ∨ ((op.toNat = 0x5 ∨ op.toNat = 0xA) ∧ imm.extractLsb' 8 8 ≠ 0x00#8)) := by
  unfold decodeOp
  split
  case h_1 | h_2 | h_3 => simp [decodeNoImm_error_iff]
  case h_5 | h_9 => simp [decodeNewAddr_error_iff]
  case h_4 | h_6 | h_7 | h_8 => simp
  case h_10 =>
    have unassigned : op.toNat = 0x0 ∨ op.toNat = 0x7 ∨ 0xB ≤ op.toNat := by
      simp only [imp_false] at *
      bv_omega
    simpa [or_assoc] using unassigned.imp_right (Or.imp_right .inl)

theorem decode_error_iff (w : Word) :
    (∃ e, decode w = .error e) ↔
      (rsvField w ≠ 0x0#4 ∨ ∃ e, decodeOp (opField w) (aField w) (immField w) = .error e) := by
  by_cases h : rsvField w = 0x0#4 <;> simp [decode, h]

namespace Machine

/-! ## The accept of an illegal, a refused and a latched command -/

theorem acceptWord_of_illegal {s : State} {w : Word} (hrest : s.busy = false) (hillegal : ∃ e, decode w = .error e) :
    acceptWord w s = .next (raise .illegal s) := by
  obtain ⟨e, he⟩ := hillegal
  simp [acceptWord, hrest, he]

/-- The part of a command that runs when it is accepted leaves the latched word alone. -/
@[simp] theorem commandBody_cmd (i : Instr) (s : State) : (commandBody i s).cmd = s.cmd := by
  cases i with
  | rdn n dl =>
    rw [commandBody, rdnBody]
    split <;> simp
  | _ => rfl

@[simp] theorem commandBody_errOperand (i : Instr) (s : State) : (commandBody i s).errOperand = s.errOperand := by
  cases i with
  | rdn n dl =>
    rw [commandBody, rdnBody]
    split <;> simp
  | _ => rfl

/-- A command with its operands in range is latched, and ERR_OPERAND stays (R48). -/
theorem exec_latches {s : State} (i : Instr) (hrest : s.busy = false) (hwf : i.wellFormed s.cfg.bufSize = true) :
    ∃ t, exec i s = .next t ∧ t.cmd = encode i ∧ t.errOperand = s.errOperand :=
  ⟨commandBody i (latch i s), exec_of_ok i hrest hwf, by simp, by simp⟩

/-! ## The obligations -/

/-- Settles O4: the decoder's error conditions on the fields, with each field as a number of the word; an illegal word
raises ErrIllegal; the all-zero word has OP 0. -/
theorem illegalWordsExactly : Obligations.IllegalWordsExactly := by
  refine ⟨fun w => ?_, fun w s hrest hillegal => acceptWord_of_illegal hrest hillegal, .unassignedOpcode, by decide⟩
  simp only [decode_error_iff, decodeOp_error_iff, opField_toNat, ne_eq, rsvField_eq_zero_iff, immField_eq_zero_iff,
    immField_high_eq_zero_iff]
  tauto

/-- Settles O9: a command is in a case of R47's table exactly where it is not well formed. -/
theorem operandChecks : Obligations.OperandChecks := by
  intro s i hrest refused
  have refused_iff : refused ↔ i.wellFormed s.cfg.bufSize = false := by
    cases i with
    | crc n | crca n | crcv n | rdn n dl => simp [refused, Instr.wellFormed]
    | frq a reg | qrys a reg | qryd a reg | fra old a | seta old a => simp [refused, Instr.wellFormed]
  exact ⟨fun h => exec_of_illFormed i hrest (refused_iff.1 h),
    fun h => exec_latches i hrest (by simpa using mt refused_iff.2 h)⟩

end Machine

end Sys2Proof

/-! # The checksum finds every single-bit change

A frame that ends in its own trailer leaves the CRC register at zero, and so does every frame that passes the check of
R64, while one changed byte of a frame changes its CRC (40_checksum.md R61); the obligation O16. -/

namespace Sys2Proof.Machine

/-- A frame followed by its trailer, low byte first, leaves the CRC register at zero (R61). -/
theorem crc16_append_trailer (B : List Byte) : crc16 (B ++ [lowByte (crc16 B), highByte (crc16 B)]) = 0x0000#16 := by
  rw [crc16_append, List.foldl_cons, crcByte_lowByte, List.foldl_cons, crcByte_cancel, List.foldl_nil]

/-- A frame of n bytes and a trailer that passes the check of R64 is its first n bytes followed by their own trailer. -/
theorem eq_append_trailer_of_check {F : List Byte} {n : Nat} (hlen : F.length = n + 2)
    (hcheck : swap16 (crc16 (F.take n)) = u16 (F.getD n 0#8) (F.getD (n + 1) 0#8)) :
    F = F.take n ++ [lowByte (crc16 (F.take n)), highByte (crc16 (F.take n))] := by
  obtain ⟨hlow, hhigh⟩ := (swap16_eq_u16_iff _ _ _).1 hcheck
  have trailer_place : F.drop n = [F.getD n 0#8, F.getD (n + 1) 0#8] := by
    rw [List.drop_eq_getElem_cons (by omega), List.drop_eq_getElem_cons (by omega), List.drop_eq_nil_of_le (by omega),
      List.getD_eq_getElem _ _ (by omega), List.getD_eq_getElem _ _ (by omega)]
  rw [← hlow, ← hhigh, ← trailer_place, List.take_append_drop]

/-- From any register, a byte sequence with one place modified leaves the same register only if the byte stayed. -/
theorem eq_of_foldl_crcByte_modify (f : Byte → Byte) : ∀ (bs : List Byte) (c : Half) (k : Nat) (hk : k < bs.length),
    (bs.modify k f).foldl crcByte c = bs.foldl crcByte c → f bs[k] = bs[k]
  | b :: bs, c, 0, _, h => crcByte_inj_right c (f b) b (foldl_crcByte_inj bs _ _ h)
  | b :: bs, c, k + 1, hk, h => eq_of_foldl_crcByte_modify f bs (crcByte c b) k (Nat.lt_of_succ_lt_succ hk) h

/-- One changed bit of a byte sequence changes its CRC. -/
theorem crc16_flipBit_ne {bs : List Byte} {k j : Nat} (hk : k < bs.length) (hj : j < 8) :
    crc16 (bs.modify k fun b => b ^^^ (1#8 <<< j)) ≠ crc16 bs := by
  intro same_crc
  have byte_kept : bs[k] ^^^ (1#8 <<< j) = bs[k] := eq_of_foldl_crcByte_modify _ bs _ k hk same_crc
  have mask_ne_zero : ∀ i < 8, (1#8 <<< i) ≠ 0#8 := by decide
  exact mask_ne_zero j hj (by simpa using byte_kept)

/-- Settles O16: a changed frame that passed the check would leave the register at zero, as the good frame does, but one
changed bit changes the CRC. The place of the bit, in the frame or in its trailer, makes no difference. -/
theorem checksumFacts : Obligations.ChecksumFacts := by
  refine ⟨crc16_nil, crc16_append_trailer, ?_⟩
  intro B F k j hk hj hF hcheck
  have changed_length : F.length = B.length + 2 := by simp [hF]
  have changed_residue : crc16 F = 0x0000#16 := by
    rw [eq_append_trailer_of_check changed_length hcheck, crc16_append_trailer]
  have changed_crc : crc16 F ≠ 0x0000#16 := by
    rw [hF, ← crc16_append_trailer B]
    exact crc16_flipBit_ne (by simpa using hk) hj
  exact changed_crc changed_residue

end Sys2Proof.Machine

/-! # The sensor transaction: the send, the loop top and the verify

What the ENGINE does in SENT, at a loop top and in VERIFY, with the opcode of CMD and the bytes of RXF as numbers
(43_sensor_transaction.md R78, R79, R85 to R90, 44_address_assigner.md R97); the obligations O28, O29, O30 and O34. -/

namespace Sys2Proof.Machine

/-! ## The SENT step -/

/-- The first matching state after the send, by the opcode as a number (R78). -/
theorem sentStep_eq (s : State) :
    sentStep s = { s with
      tx := s.tx ++ [{ time := s.now, bytes := s.txf.toList.take s.txlen.toNat }]
      tStart := s.now, tLast := s.now
      fsm := if s.cmd.toNat / 2 ^ 28 = 0xA then .ack 0 else .ah1 } := by
  have opcode_iff : opField s.cmd = 0xA#4 ↔ s.cmd.toNat / 2 ^ 28 = 0xA := opField_eq_iff s.cmd 0xA#4
  simp only [sentStep, transmit, opcode_iff]

/-! ## RESULT at a timeout -/

/-- RESULT of a QRYS that times out (R90). -/
theorem timeoutValue_of_qrys {s : State} (hop : s.cmd.toNat / 2 ^ 28 = 0x8) : timeoutValue s = s.cfg.speedSentinel := by
  have opcode : opField s.cmd = 0x8#4 := (opField_eq_iff s.cmd 0x8#4).2 hop
  simp [timeoutValue, opcode]

/-- RESULT of a QRYD that times out (R90). -/
theorem timeoutValue_of_qryd {s : State} (hop : s.cmd.toNat / 2 ^ 28 = 0x9) : timeoutValue s = s.cfg.dirSentinel := by
  have opcode : opField s.cmd = 0x9#4 := (opField_eq_iff s.cmd 0x9#4).2 hop
  simp [timeoutValue, opcode]

/-- RESULT of a SETA that times out (R97). -/
theorem timeoutValue_of_seta {s : State} (hop : s.cmd.toNat / 2 ^ 28 = 0xA) : timeoutValue s = 0x00000000#32 := by
  have opcode : opField s.cmd = 0xA#4 := (opField_eq_iff s.cmd 0xA#4).2 hop
  simp [timeoutValue, opcode]

/-! ## The VERIFY step -/

/-- RXF[0..5), byte by byte (R85). -/
theorem replyHead_eq (s : State) : replyHead s = [s.rxf[0], s.rxf[1], s.rxf[2], s.rxf[3], s.rxf[4]] := by
  apply List.ext_getElem
  · simp [replyHead]
  · intro i hi _
    have five_bytes : i < 5 := by simpa [replyHead] using hi
    match i, five_bytes with
    | 0, _ | 1, _ | 2, _ | 3, _ | 4, _ => simp [replyHead]

/-- The check of R85 on numbers. -/
theorem eq_u16_iff_toNat (v : Half) (hi lo : Byte) : v = u16 hi lo ↔ v.toNat = hi.toNat * 256 + lo.toNat := by
  rw [← u16_toNat, BitVec.toNat_inj]

/-- The decoded value as a number: 16 bits for QRYS (R87), the low byte otherwise (R88). -/
theorem replyValue_toNat (s : State) :
    (replyValue s).toNat =
      if s.cmd.toNat / 2 ^ 28 = 0x8 then s.rxf[3].toNat * 256 + s.rxf[4].toNat else s.rxf[4].toNat := by
  have opcode_iff : opField s.cmd = 0x8#4 ↔ s.cmd.toNat / 2 ^ 28 = 0x8 := opField_eq_iff s.cmd 0x8#4
  by_cases hqrys : s.cmd.toNat / 2 ^ 28 = 0x8
  · rw [replyValue, if_pos (opcode_iff.2 hqrys), if_pos hqrys, BitVec.toNat_setWidth_of_le (by decide), u16_toNat]
  · rw [replyValue, if_neg (mt opcode_iff.1 hqrys), if_neg hqrys, BitVec.toNat_setWidth_of_le (by decide)]

/-! ## The obligations -/

/-- Settles O34: the two ways of the VERIFY step, its check and its value as numbers. On a match r is `replyValue`,
which the CRC register does not enter. -/
theorem verifyDecidesTheReply : Obligations.VerifyDecidesTheReply := by
  intro s hfsm _ c
  have head_crc : crc16 (replyHead s) = c := congrArg crc16 (replyHead_eq s)
  rw [engineTurn_of_verify hfsm]
  simp only [ne_eq, ← eq_u16_iff_toNat]
  obtain ⟨hmatch, heq⟩ | ⟨hmismatch, heq⟩ := head_crc ▸ verifyStep_cases s
  · exact ⟨fun _ => ⟨replyValue s, replyValue_toNat s, congrArg _ heq⟩, fun hno => absurd hmatch hno⟩
  · exact ⟨fun hyes => absurd hyes hmismatch, fun _ => congrArg _ heq⟩

/-- Settles O28: the ENGINE's turn in SENT is the SENT step. -/
theorem sentSendsTheFrame : Obligations.SentSendsTheFrame := by
  intro s hfsm
  rw [engineTurn_of_sent hfsm, sentStep_eq]

/-- Settles O29: the ENGINE's turn is the loop top, whose three ways are told apart by the two strict deadline tests.
(The name `loopTop` is the model's function.) -/
theorem loopTopObligation : Obligations.LoopTop := by
  intro s hawait hidle
  rw [engineTurn_of_await hawait hidle]
  simp only [← passed_iff]
  obtain ⟨houter, heq⟩ | ⟨houter, hresend, heq⟩ | ⟨houter, hresend, heq⟩ := loopTop_cases s
  · exact ⟨fun _ => ⟨congrArg _ heq, timeoutValue_of_qrys, timeoutValue_of_qryd, timeoutValue_of_seta⟩,
      fun hno => absurd houter hno, fun hno => absurd houter hno⟩
  · exact ⟨fun hyes => absurd hyes (Bool.eq_false_iff.1 houter), fun _ _ => congrArg _ heq,
      fun _ hno => absurd hresend hno⟩
  · exact ⟨fun hyes => absurd hyes (Bool.eq_false_iff.1 houter),
      fun _ hyes => absurd hyes (Bool.eq_false_iff.1 hresend), fun _ _ => congrArg _ heq⟩

/-- Settles O30: the loop top past the outer deadline, with `timeoutValue` at each opcode. -/
theorem timeoutExits : Obligations.TimeoutExits := by
  intro s hawait hidle houter
  obtain ⟨hturn, hqrys, hqryd, hseta⟩ := (loopTopObligation s hawait hidle).1 houter
  exact ⟨fun hop => hqrys hop ▸ hturn, fun hop => hqryd hop ▸ hturn, fun hop => hseta hop ▸ hturn⟩

end Sys2Proof.Machine

/-! # The address assigner: the acknowledgment match and the power-cycle prompt

The poll that ends a 1-byte call, what it does in ACK0 to ACK5, and what each agent can do in PWRCYC
(44_address_assigner.md R93 to R96); the obligations O35 and O50. -/

namespace Sys2Proof.Machine

section

variable {s t : State}

/-! ## The poll that ends a 1-byte call -/

/-- `s` after the only byte `b` of a 1-byte call has gone to CH and the call is over; `q` is the rest of RXQ. -/
def oneByteTaken (b : Byte) (q : List Byte) (s : State) : State :=
  { s with rxq := q, ch := b, rdCount := 1#8, rdActive := false }

/-- Outside READING and APAY a reader call stores its byte in CH (R70). -/
theorem storeByte_to_ch (b : Byte) (hreading : s.fsm ≠ .reading) (hapay : s.fsm ≠ .apay) :
    storeByte b s = .next { s with ch := b } := by
  unfold storeByte
  split
  · exact absurd ‹s.fsm = .reading› hreading
  · exact absurd ‹s.fsm = .apay› hapay
  · rfl

theorem pollTake_of_byte {b : Byte} {q : List Byte} {u : State} (hq : s.rxq = b :: q) (hmore : s.rdCount < s.rdN)
    (hstore : storeByte b { s with rxq := q } = .next u) :
    pollTake s = .next { u with rdCount := u.rdCount + 1#8 } := by
  simp only [pollTake, hq, if_pos hmore, hstore]

/-- A poll whose byte is the last one asked for completes the call (R71). -/
theorem pollEnd_of_full (h : s.rdCount = s.rdN) : pollEnd s = readerDone s.rdCount { s with rdActive := false } :=
  if_pos (.inl h)

/-- The ENGINE's turn on a 1-byte call of the reply search or the acknowledgment match that finds a byte: the byte goes
to CH, and the call's owner completes with count 1 (R70, R71). -/
theorem engineTurn_of_oneByteCall {b : Byte} {q : List Byte} (hawait : s.fsm.await = true) (hapay : s.fsm ≠ .apay)
    (hactive : s.rdActive = true) (hn : s.rdN = 1#8) (hcount : s.rdCount = 0#8) (hq : s.rxq = b :: q) :
    engineTurn s = .next (readerDone 1#8 (oneByteTaken b q s)) := by
  have not_reading : s.fsm ≠ .reading := fun e => by simp [e, FsmState.await] at hawait
  have byte_missing : s.rdCount < s.rdN := by simp [hn, hcount]
  have taken := pollTake_of_byte hq byte_missing (storeByte_to_ch (s := { s with rxq := q }) b not_reading hapay)
  rw [engineTurn_of_ready (.inl hawait) hactive (readerReady_of_byte hq)]
  simp only [poll, taken, hcount, BitVec.zero_add]
  rw [pollEnd_of_full hn.symm]
  rfl

/-! ## The acknowledgment match -/

/-- R93's sequence as a list. -/
theorem ackExpected_eq_getD (cmd : Word) (k : Fin 6) :
    ackExpected cmd k = [aField cmd, 0x10#8, 0x10#8, 0x00#8, 0x00#8, 0x01#8].getD k.val 0#8 := by
  match k with
  | 0 | 1 | 2 | 3 | 4 | 5 => rfl

theorem ackDone_of_mismatch (count : Byte) {k : Fin 6} (h : s.ch ≠ ackExpected s.cmd k) :
    ackDone count k s = { s with fsm := .ack 0 } :=
  if_neg fun hmatch => h hmatch.2

theorem ackDone_of_match {k : Fin 6} (h : s.ch = ackExpected s.cmd k) (hk : k.val + 1 < 6) :
    ackDone 1#8 k s = { s with rxf := s.rxf.set k.val s.ch (by omega), fsm := .ack ⟨k.val + 1, hk⟩ } :=
  (if_pos ⟨rfl, h⟩).trans (dif_pos hk)

theorem ackDone_of_last_match (h : s.ch = ackExpected s.cmd 5) :
    ackDone 1#8 5 s = pwrcycEntry { s with rxf := s.rxf.set 5 s.ch } :=
  (if_pos ⟨rfl, h⟩).trans (dif_neg (by decide))

/-! ## Busy writes, and an ENGINE with no step -/

theorem engineTurn_of_disabled (h : engineEnabled s = false) : engineTurn s = .next s := by
  rw [engineTurn, h]
  rfl

theorem acceptWord_of_busy (w : Word) (h : s.busy = true) : acceptWord w s = .next (raise .busy s) := if_pos h

theorem hostWrite_buf_of_busy {i : Byte} (w : Word) (h : s.busy = true) (hlo : 0x40 ≤ i.toNat)
    (hhi : i.toNat < 0x40 + s.cfg.bufSize) : hostWrite i w s = .next (raise .busy s) := by
  rw [hostWrite, if_neg (by omega), if_pos ⟨hlo, hhi⟩, if_pos h]

/-- A host write to a busy block raises ErrBusy or does nothing (R25). -/
theorem hostWrite_of_busy_cases {i : Byte} {w : Word} (hbusy : s.busy = true) (h : hostWrite i w s = .next t) :
    t = raise .busy s ∨ t = s := by
  obtain ⟨-, hcmd⟩ | ⟨-, -, -, raised⟩ | ⟨-, -, hrest, -⟩ | ignored := hostWrite_cases h
  · rw [acceptWord_of_busy w hbusy] at hcmd
    exact .inl (Host.Outcome.next.inj hcmd).symm
  · exact .inl raised
  · simp [hbusy] at hrest
  · exact .inr ignored

/-! ## PWRCYC -/

theorem busy_of_pwrcyc (h : s.fsm = .pwrcyc) : s.busy = true := by
  rw [State.busy, h]
  rfl

theorem engineEnabled_of_pwrcyc (h : s.fsm = .pwrcyc) : engineEnabled s = false := by
  simp [engineEnabled, h, FsmState.await]

/-- No agent leaves PWRCYC or writes PWR there (R96). -/
theorem runEvent_keeps_pwrcyc {e : Event} (hfsm : s.fsm = .pwrcyc) (hreset : e ≠ .reset) (h : runEvent e s = .next t) :
    t.fsm = .pwrcyc ∧ t.pwr = s.pwr := by
  obtain ⟨i, w, rfl, hwrite⟩ | ⟨i, rfl, rfl⟩ | ⟨rfl, hturn⟩ | ⟨b, rfl, rfl⟩ | ⟨rfl, rfl⟩ | ⟨rfl, rfl⟩ | ⟨rfl, -⟩ :=
    runEvent_cases h
  · obtain rfl | rfl := hostWrite_of_busy_cases (busy_of_pwrcyc hfsm) hwrite <;> simp [hfsm]
  · simp [hfsm]
  · rw [engineTurn_of_disabled (engineEnabled_of_pwrcyc hfsm)] at hturn
    obtain rfl := Host.Outcome.next.inj hturn
    exact ⟨hfsm, rfl⟩
  · obtain ⟨-, heq⟩ | ⟨-, heq⟩ := linkDeliver_cases b s <;> simp [heq, hfsm]
  · simp [hfsm]
  · simp [hfsm]
  · exact absurd rfl hreset

end

/-! ## The obligations -/

/-- Settles O35: the poll hands its byte in CH to `ackDone`, which compares it with R93's sequence. -/
theorem ackByteMatching : Obligations.AckByteMatching := by
  intro s b q k hfsm hactive hn hcount hq u expected
  have expected_eq : ackExpected s.cmd k = expected := ackExpected_eq_getD s.cmd k
  have turn : engineTurn s = .next (ackDone 1#8 k u) := by
    rw [engineTurn_of_oneByteCall (by simp [hfsm, FsmState.await]) (by simp [hfsm]) hactive hn hcount hq]
    simp only [readerDone, oneByteTaken, hfsm, u]
  rw [turn, ← expected_eq]
  refine ⟨fun hne => congrArg _ (ackDone_of_mismatch 1#8 hne), fun heq hk => congrArg _ (ackDone_of_match heq hk),
    fun heq hlast => ?_⟩
  obtain rfl : k = 5 := Fin.ext hlast
  exact congrArg _ (ackDone_of_last_match heq)

/-- Settles O50: PWRCYC is busy and has no ENGINE step, so writes are refused and every agent keeps it; RESET goes to
IDLE with PWR 0. -/
theorem pwrcycIsTerminal : Obligations.PwrcycIsTerminal := by
  intro s hfsm hpwr
  have busy : s.busy = true := busy_of_pwrcyc hfsm
  have disabled : engineEnabled s = false := engineEnabled_of_pwrcyc hfsm
  exact ⟨disabled, engineTurn_of_disabled disabled, fun w => acceptWord_of_busy w busy,
    fun _ w hlo hhi => hostWrite_buf_of_busy w busy hlo hhi, fun _ => rfl,
    (statusBits.2 s 0).trans busy, (statusBits.2 s 4).trans hpwr, fun _ => rfl,
    fun _ _ hreset h => (runEvent_keeps_pwrcyc hfsm hreset h).imp_right fun same => same.trans hpwr,
    resetStep s, rfl, rfl, rfl⟩

end Sys2Proof.Machine

/-! # The command word: decoding and encoding

The decoder and the encoder on the fields of a word (30_encoding.md R43 to R46, R56); the obligations O1, O2, O3
and O5. -/

namespace Sys2Proof

/-! ## The decoder on fields -/

/-- The decoder of a word built from fields is the opcode map on those fields. -/
theorem decode_encodeFields (op : BitVec 4) (a : Byte) (imm : Half) :
    decode (encodeFields op a imm) = decodeOp op a imm := by
  rw [decode, rsvField_encodeFields, if_pos rfl, opField_encodeFields, aField_encodeFields, immField_encodeFields]

/-- The immediate of a new address is a zero-extended byte. -/
theorem decodeNewAddr_setWidth (new : Byte) (mk : Byte → Instr) :
    decodeNewAddr (new.setWidth 16) mk = .ok (mk new) := by
  rw [decodeNewAddr, highHalf_setWidth, if_pos rfl, lowHalf_setWidth]

theorem decodeNoImm_eq_ok {imm : Half} {i j : Instr} (h : decodeNoImm imm i = .ok j) : imm = 0x0000#16 ∧ j = i := by
  unfold decodeNoImm at h
  split at h
  · exact ⟨‹_›, (Except.ok.inj h).symm⟩
  · cases h

theorem decodeNewAddr_eq_ok {imm : Half} {mk : Byte → Instr} {j : Instr} (h : decodeNewAddr imm mk = .ok j) :
    ∃ new : Byte, imm = new.setWidth 16 ∧ j = mk new := by
  unfold decodeNewAddr at h
  split at h
  · exact ⟨_, (setWidth_lowHalf imm ‹_›).symm, (Except.ok.inj h).symm⟩
  · cases h

/-- Every row of the opcode map is undone by the encoder (R45). -/
theorem encode_of_decodeOp {op : BitVec 4} {a : Byte} {imm : Half} {i : Instr} (h : decodeOp op a imm = .ok i) :
    encode i = encodeFields op a imm := by
  unfold decodeOp at h
  split at h
  case h_1 | h_2 | h_3 =>
    obtain ⟨rfl, rfl⟩ := decodeNoImm_eq_ok h
    rfl
  case h_5 | h_9 =>
    obtain ⟨new, rfl, rfl⟩ := decodeNewAddr_eq_ok h
    rfl
  case h_4 | h_6 | h_7 | h_8 =>
    obtain rfl := Except.ok.inj h
    rfl
  case h_10 => cases h

theorem decode_encode (i : Instr) : decode (encode i) = .ok i := by
  cases i with
  | crc n | crca n | crcv n | frq a r | rdn n d | qrys a r | qryd a r => exact decode_encodeFields _ _ _
  | fra o n | seta o n => exact (decode_encodeFields _ _ _).trans (decodeNewAddr_setWidth n _)

theorem encode_of_decode {w : Word} {i : Instr} (h : decode w = .ok i) : encode i = w := by
  unfold decode at h
  split at h
  · rw [encode_of_decodeOp h, encodeFields_fields w ‹_›]
  · cases h

/-! ## A built word as a number -/

/-- A word as the sum of its fields at their places (R43). -/
theorem word_toNat_eq_fields (w : Word) :
    w.toNat = (opField w).toNat * 2 ^ 28 + (rsvField w).toNat * 2 ^ 24 + (aField w).toNat * 2 ^ 16
      + (immField w).toNat := by
  have := w.isLt
  simp only [opField, rsvField, aField, immField, BitVec.extractLsb'_toNat, Nat.shiftRight_eq_div_pow]
  omega

theorem encodeFields_toNat (op : BitVec 4) (a : Byte) (imm : Half) :
    (encodeFields op a imm).toNat = op.toNat * 2 ^ 28 + a.toNat * 2 ^ 16 + imm.toNat := by
  have no_reserved_bits : (0x0#4).toNat * 2 ^ 24 = 0 := Nat.zero_mul _
  rw [word_toNat_eq_fields, opField_encodeFields, rsvField_encodeFields, aField_encodeFields, immField_encodeFields,
    no_reserved_bits, Nat.add_zero]

/-! ## The obligations -/

/-- Settles O1: the decoder reads back the fields the encoder built, row by row. -/
theorem decodeOfEncode : Obligations.DecodeOfEncode := decode_encode

/-- Settles O2: each row of the opcode map is undone by the encoder, and a word with RSV 0 is built from its fields. -/
theorem encodeOfDecodedWord : Obligations.EncodeOfDecodedWord := fun _ _ h => encode_of_decode h

/-- Settles O3: the word is the encoding of its command, which is the sum of its fields at their places. -/
theorem decodedOperandsAreFields : Obligations.DecodedOperandsAreFields := by
  intro w i h
  obtain rfl := encode_of_decode h
  cases i with
  | crc n | crca n | crcv n | frq a r | rdn n d | qrys a r | qryd a r => simp [encode, encodeFields_toNat]
  | fra o n | seta o n =>
    have address_kept : (n.setWidth 16).toNat = n.toNat := BitVec.toNat_setWidth_of_le (by decide)
    simp [encode, encodeFields_toNat, address_kept]

/-- Settles O5: nine words, evaluated. -/
theorem workedWordsDecode : Obligations.WorkedWordsDecode := by
  unfold Obligations.WorkedWordsDecode
  decide

end Sys2Proof

/-! # Steps, the accept of a word, and the commands that run at once

One event per step, the accept order of 30_encoding.md R48, and the result of every command on a block that rests
(40_checksum.md R62 to R64, 41_framer.md R65 to R68, 42_timed_reader.md R69, R74, 43_sensor_transaction.md R76, R77,
44_address_assigner.md R92); the obligations O6, O7, O8, O10, O12 to O15, O20 to O22, O26 and O27. -/

namespace Sys2Proof.Machine

section

variable {s : State}

/-! ## Steps -/

theorem step_of_agenda {e : Event} {rest : List Event} (h : s.agenda = e :: rest) :
    step s = runEvent e { s with agenda := rest } := by
  simp only [step, nextEvent, h]

theorem step_of_no_agenda (h : s.agenda = []) :
    step s = runEvent (Config.agentChoice s.turn) { s with turn := s.turn + 1 } := by
  simp only [step, nextEvent, h]

/-- A word that decodes is offered as its command: the busy check of `exec` is the one of R48. -/
theorem acceptWord_of_decode {w : Word} {i : Instr} (hd : decode w = .ok i) : acceptWord w s = exec i s := by
  cases hb : s.busy with
  | true => rw [acceptWord_of_busy w hb, exec_of_busy i hb]
  | false => simp [acceptWord, hb, hd]

/-- All 32 bits of an opcode-table word are the command word (log 6). -/
theorem decodeTableWord_eq_some {nbits n : Nat} {i : Instr} (h : decodeTableWord nbits n = some i) :
    decode (commandWord nbits n) = .ok i := by
  unfold decodeTableWord at h
  cases hd : decode (commandWord nbits n) with
  | ok j => simpa [hd, Except.toOption] using h
  | error e => simp [hd, Except.toOption] at h

/-! ## What a command leaves alone, whatever it does -/

theorem rdnBody_of_ne_zero {n : Byte} (hn : n ≠ 0x00#8) (d : Half) (s : State) :
    rdnBody n d s = { readerStart n d s with fsm := .reading } := if_neg hn

/-- `t` agrees with `s` in all that the part of a command that runs once it is accepted never writes: CMD, the flags
that R48 clears before it, PWR, the error bits, RXQ, what the other agents write, and the model's own fields. -/
structure CommandFrame (s t : State) : Prop where
  cmd : t.cmd = s.cmd
  tmo : t.tmo = s.tmo
  short : t.short = s.short
  pwr : t.pwr = s.pwr
  errBusy : t.errBusy = s.errBusy
  errIllegal : t.errIllegal = s.errIllegal
  errOperand : t.errOperand = s.errOperand
  rxovf : t.rxovf = s.rxovf
  rxq : t.rxq = s.rxq
  now : t.now = s.now
  tx : t.tx = s.tx
  cfg : t.cfg = s.cfg
  agenda : t.agenda = s.agenda
  turn : t.turn = s.turn
  hostData : t.hostData = s.hostData

theorem commandBody_frame (i : Instr) (s : State) : CommandFrame s (commandBody i s) := by
  cases i with
  | rdn n d =>
    by_cases hzero : n = 0x00#8
    · subst hzero
      constructor <;> rfl
    · rw [commandBody, rdnBody_of_ne_zero hzero]
      constructor <;> rfl
  | _ => constructor <;> rfl

end

/-! ## The obligations on steps and on the accept -/

/-- Settles O6: the decided event is the write of the word, and a word that decodes runs its command. -/
theorem stepRunsDecodedCommand : Obligations.StepRunsDecodedCommand :=
  ⟨fun _ _ _ _ hagenda hd => (step_of_agenda hagenda).trans (acceptWord_of_decode hd),
    fun _ _ _ hd => acceptWord_of_decode (decodeTableWord_eq_some hd)⟩

/-- Settles O7: a step takes the oldest decided event, or the free choice. -/
theorem stepIsOneEvent : Obligations.StepIsOneEvent :=
  ⟨fun _ _ _ h => step_of_agenda h, fun s h => ⟨Config.agentChoice s.turn, step_of_no_agenda h⟩⟩

/-- Settles O8: the accept in its order; a command that is latched runs `commandBody`, whose final state each command
shows by itself. -/
theorem acceptChecksInOrder : Obligations.AcceptChecksInOrder := by
  intro w s
  refine ⟨fun hbusy => acceptWord_of_busy w hbusy, fun hrest hill => acceptWord_of_illegal hrest hill,
    fun i hrest hd hwf => (acceptWord_of_decode hd).trans (exec_of_illFormed i hrest hwf), fun i hrest hd hwf => ?_⟩
  have kept := commandBody_frame i (latch i s)
  refine ⟨commandBody i (latch i s), (acceptWord_of_decode hd).trans (exec_of_ok i hrest hwf),
    kept.cmd.trans (encode_of_decode hd), kept.tmo, kept.short, kept.errBusy, kept.errIllegal, kept.errOperand, ?_⟩
  cases i with
  | crc n | crca n | crcv n | frq a r | fra o n => exact ⟨rfl, rfl⟩
  | qrys a r | qryd a r | seta o n => exact ⟨rfl, rfl, rfl, rfl⟩
  | rdn n d =>
    refine ⟨fun hzero => ?_, fun hpos => ?_⟩
    · subst hzero
      exact ⟨rfl, rfl⟩
    · rw [commandBody, rdnBody_of_ne_zero hpos]
      exact ⟨rfl, rfl, rfl, rfl⟩

/-- Settles O10: the busy check comes first in every command. -/
theorem busyRefusesEveryCommand : Obligations.BusyRefusesEveryCommand := fun _ i hbusy => exec_of_busy i hbusy

/-! ## The obligations on the checksum commands -/

/-- Settles O12: a command in range runs its body on the latched state. -/
theorem crcResult : Obligations.CrcResult := fun _ n hrest hn => exec_of_ok (.crc n) hrest (decide_eq_true hn)

/-- What CRCA leaves in BUF: the trailer in two places, everything else as before (R63). -/
theorem read_write_trailer {m : Memory} (hm : m.wf = true) (n : Nat) (low high : Byte) (a : Nat) :
    ((m.write n low).write (n + 1) high).read a = if a = n then low else if a = n + 1 then high else m.read a := by
  rw [Memory.read_write _ _ _ _ (Memory.write_wf m n low hm), Memory.read_write _ _ _ _ hm]
  by_cases hlow : a = n
  · have not_high : a ≠ n + 1 := by omega
    rw [if_neg not_high, if_pos hlow, if_pos hlow]
  · rw [if_neg hlow, if_neg hlow]

/-- Settles O13: BUF after the two stores, and the rest of the state as `exec` leaves it. -/
theorem crcaResult : Obligations.CrcaResult := fun s n hrest hn hwf =>
  ⟨_, Memory.write_wf _ _ _ (Memory.write_wf s.buf _ _ hwf), read_write_trailer hwf n.toNat _ _,
    exec_of_ok (.crca n) hrest (decide_eq_true hn)⟩

/-- The check of R64 on numbers, as the Boolean that OK gets. -/
theorem beq_u16_eq_decide (v : Half) (hi lo : Byte) :
    (v == u16 hi lo) = decide (v.toNat = hi.toNat * 256 + lo.toNat) := by
  rw [Bool.eq_iff_iff, beq_iff_eq, decide_eq_true_iff, eq_u16_iff_toNat]

/-- Settles O14: OK is the check of R64, on numbers. -/
theorem crcvResult : Obligations.CrcvResult := by
  intro s n hrest hn
  rw [exec_of_ok (.crcv n) hrest (decide_eq_true hn), ← beq_u16_eq_decide]
  rfl

/-- Settles O15: CRCA leaves BUF[0..n) as it was, so CRCV computes the same CRC and finds its halves in the trailer. -/
theorem appendThenVerifySucceeds : Obligations.AppendThenVerifySucceeds := by
  intro s n hrest hn hwf
  obtain ⟨m, -, hread, hexec⟩ := crcaResult s n hrest hn hwf
  have message_kept : (List.range n.toNat).map m.read = (List.range n.toNat).map s.buf.read := by
    refine List.map_congr_left fun a ha => ?_
    have below : a < n.toNat := List.mem_range.1 ha
    rw [hread, if_neg (by omega), if_neg (by omega)]
  have trailer_low : m.read n.toNat = lowByte (crc16 ((List.range n.toNat).map s.buf.read)) := by
    rw [hread, if_pos rfl]
  have trailer_high : m.read (n.toNat + 1) = highByte (crc16 ((List.range n.toNat).map s.buf.read)) := by
    rw [hread, if_neg (by omega), if_pos rfl]
  refine ⟨_, _, hexec, crcvResult _ n rfl hn, ?_, rfl, rfl⟩
  simp only [message_kept, trailer_low, trailer_high]
  exact decide_eq_true ((eq_u16_iff_toNat _ _ _).1 rfl)

/-! ## The obligations on the framer, RDN and the start of a transaction -/

/-- Settles O20: a command in range runs its body on the latched state. -/
theorem frqResult : Obligations.FrqResult := fun _ a r hrest ha => exec_of_ok (.frq a r) hrest (bne_iff_ne.2 ha)

/-- Settles O21: a command in range runs its body on the latched state. -/
theorem fraResult : Obligations.FraResult := fun _ o n hrest hn => exec_of_ok (.fra o n) hrest (bne_iff_ne.2 hn)

/-- Settles O22: RDN of 0 bytes and of more. -/
theorem rdnResult : Obligations.RdnResult := by
  intro s n d hrest hn
  rw [exec_of_ok (.rdn n d) hrest (decide_eq_true hn), commandBody]
  by_cases hzero : n = 0x00#8
  · subst hzero
    rfl
  · rw [rdnBody_of_ne_zero hzero, if_neg hzero]
    rfl

/-- Settles O26: both queries run the same body on their latched state. -/
theorem queryStart : Obligations.QueryStart := fun _ a r hrest ha =>
  ⟨exec_of_ok (.qrys a r) hrest (bne_iff_ne.2 ha), exec_of_ok (.qryd a r) hrest (bne_iff_ne.2 ha)⟩

/-- Settles O27: a command in range runs its body on the latched state. -/
theorem setaStart : Obligations.SetaStart := fun _ o n hrest hn => exec_of_ok (.seta o n) hrest (bne_iff_ne.2 hn)

end Sys2Proof.Machine

/-! # The checksum as a bit-serial register

The byte-wise loop of 40_checksum.md R58 takes the message bits one at a time; the obligations O18 and O19. -/

namespace Sys2Proof.Machine

/-- One turn of the bit-serial register: the message bit is added to the bit shifted out, and the sum selects the
polynomial. -/
def serialBit (c : Half) (m : Bool) : Half := if (c.getLsbD 0 != m) = true then (c >>> 1) ^^^ 0xA001#16 else c >>> 1

/-- A turn of R58's loop on a register that holds message bits too is a serial turn with the lowest of them; the others
wait, shifted by one. -/
theorem crcBit_xor (c v : Half) : crcBit (c ^^^ v) = serialBit c (v.getLsbD 0) ^^^ (v >>> 1) := by
  have shifted : (c ^^^ v) >>> 1 = (c >>> 1) ^^^ (v >>> 1) := BitVec.ushiftRight_xor_distrib c v 1
  simp only [crcBit, serialBit, BitVec.getLsbD_xor, shifted, Bool.bne_eq_xor]
  cases c.getLsbD 0 ^^ v.getLsbD 0 with
  | false => rfl
  | true => exact (BitVec.xor_assoc _ _ _).trans (by rw [BitVec.xor_comm (v >>> 1), ← BitVec.xor_assoc]; rfl)

/-- After n turns the register has taken the n lowest message bits in order, and the rest wait. -/
theorem repeat_crcBit_xor (c v : Half) (n : Nat) :
    Nat.repeat crcBit n (c ^^^ v) = ((List.range n).map v.getLsbD).foldl serialBit c ^^^ (v >>> n) := by
  induction n with
  | zero => simp [Nat.repeat]
  | succ n ih =>
    have next_bit : (v >>> n).getLsbD 0 = v.getLsbD n := by simp
    rw [Nat.repeat, ih, crcBit_xor, next_bit, List.range_succ, List.map_append, List.foldl_append,
      ← BitVec.shiftRight_add]
    rfl

/-- A byte's turns are serial turns with its bits, least significant first. -/
theorem crcByte_eq_serial (c : Half) (b : Byte) :
    crcByte c b = ((List.range 8).map fun j => b.getLsbD j).foldl serialBit c := by
  have all_taken : b.setWidth 16 >>> 8 = 0x0000#16 := by
    ext i hi
    simp
  have same_bits : (List.range 8).map (b.setWidth 16).getLsbD = (List.range 8).map fun j => b.getLsbD j := by
    refine List.map_congr_left fun j hj => ?_
    have : j < 8 := List.mem_range.1 hj
    have : j < 16 := by omega
    simp [this]
  rw [crcByte, repeat_crcBit_xor, all_taken, same_bits, BitVec.xor_zero]

/-- Settles O18: byte by byte, along the message. -/
theorem checksumIsBitSerial : Obligations.ChecksumIsBitSerial := by
  intro B
  change B.foldl crcByte 0xFFFF#16 = List.foldl serialBit 0xFFFF#16 (B.flatMap _)
  rw [List.foldl_flatMap]
  exact congrArg (fun f => B.foldl f 0xFFFF#16) (funext₂ crcByte_eq_serial)

/-- Settles O19: seven check values, evaluated. -/
theorem checksumVectors : Obligations.ChecksumVectors := by
  unfold Obligations.ChecksumVectors
  decide +kernel

end Sys2Proof.Machine

/-! # What each agent leaves alone

The frame of an ENGINE step and of a poll, of a host write and of a delivery, up to one event of any agent
(10_state.md R11, R12, R26, 60_exceptions.md R101, 70_reset_and_hazards.md R116); the obligations O11, O51, O52
and O53. -/

namespace Sys2Proof.Machine

section

variable {s t u : State}

/-! ## The frame of the ENGINE -/

/-- `t` agrees with `s` in all that no ENGINE step writes: CMD, its frame, the error bits, `now`, the parameters and the
model's own fields. -/
structure EngineFrame (s t : State) : Prop where
  cmd : t.cmd = s.cmd
  txf : t.txf = s.txf
  txlen : t.txlen = s.txlen
  errBusy : t.errBusy = s.errBusy
  errIllegal : t.errIllegal = s.errIllegal
  errOperand : t.errOperand = s.errOperand
  rxovf : t.rxovf = s.rxovf
  now : t.now = s.now
  cfg : t.cfg = s.cfg
  agenda : t.agenda = s.agenda
  turn : t.turn = s.turn
  hostData : t.hostData = s.hostData

theorem EngineFrame.refl (s : State) : EngineFrame s s := by constructor <;> rfl

theorem EngineFrame.trans (h : EngineFrame s t) (k : EngineFrame t u) : EngineFrame s u where
  cmd := k.cmd.trans h.cmd
  txf := k.txf.trans h.txf
  txlen := k.txlen.trans h.txlen
  errBusy := k.errBusy.trans h.errBusy
  errIllegal := k.errIllegal.trans h.errIllegal
  errOperand := k.errOperand.trans h.errOperand
  rxovf := k.rxovf.trans h.rxovf
  now := k.now.trans h.now
  cfg := k.cfg.trans h.cfg
  agenda := k.agenda.trans h.agenda
  turn := k.turn.trans h.turn
  hostData := k.hostData.trans h.hostData

/-- `t` agrees with `s` in all that no poll writes: the ENGINE's frame, and the stream, the times of the transaction,
what the call was started with, and the CRC register. -/
structure PollFrame (s t : State) : Prop extends EngineFrame s t where
  tx : t.tx = s.tx
  tStart : t.tStart = s.tStart
  tLast : t.tLast = s.tLast
  resends : t.resends = s.resends
  rdStart : t.rdStart = s.rdStart
  rdN : t.rdN = s.rdN
  rdDl : t.rdDl = s.rdDl
  crcRaw : t.crcRaw = s.crcRaw
  crcOut : t.crcOut = s.crcOut

theorem PollFrame.refl (s : State) : PollFrame s s := by repeat' constructor

theorem PollFrame.trans (h : PollFrame s t) (k : PollFrame t u) : PollFrame s u where
  toEngineFrame := h.toEngineFrame.trans k.toEngineFrame
  tx := k.tx.trans h.tx
  tStart := k.tStart.trans h.tStart
  tLast := k.tLast.trans h.tLast
  resends := k.resends.trans h.resends
  rdStart := k.rdStart.trans h.rdStart
  rdN := k.rdN.trans h.rdN
  rdDl := k.rdDl.trans h.rdDl
  crcRaw := k.crcRaw.trans h.crcRaw
  crcOut := k.crcOut.trans h.crcOut

/-- `t` agrees with `s` in all that the completion of a call never writes: the frame of a poll, and what the poll itself
took. -/
structure DoneFrame (s t : State) : Prop extends PollFrame s t where
  rdActive : t.rdActive = s.rdActive
  rdCount : t.rdCount = s.rdCount
  ch : t.ch = s.ch
  buf : t.buf = s.buf
  rxq : t.rxq = s.rxq

theorem DoneFrame.refl (s : State) : DoneFrame s s := by repeat' constructor

theorem sentStep_frame (s : State) : EngineFrame s (sentStep s) := by constructor <;> rfl

theorem verifyStep_frame (s : State) : EngineFrame s (verifyStep s) := by
  obtain ⟨-, heq⟩ | ⟨-, heq⟩ := verifyStep_cases s <;> rw [heq] <;> constructor <;> rfl

theorem loopTop_frame (s : State) : EngineFrame s (loopTop s) := by
  obtain ⟨-, heq⟩ | ⟨-, -, heq⟩ | ⟨-, -, heq⟩ := loopTop_cases s <;> rw [heq] <;> constructor <;> rfl

theorem matchDone_frame (count : Byte) (h : s.fsm = .ah1 ∨ s.fsm = .ah2 ∨ s.fsm = .ah3 ∨ s.fsm = .apay) :
    DoneFrame s (matchDone count s) := by
  obtain heq | ⟨-, heq⟩ | ⟨-, heq⟩ | ⟨-, heq⟩ | ⟨-, -, heq⟩ := matchDone_cases count h <;> rw [heq] <;>
    repeat' constructor

theorem ackDone_frame (count : Byte) (k : Fin 6) (s : State) : DoneFrame s (ackDone count k s) := by
  obtain heq | ⟨_, heq⟩ | ⟨-, heq⟩ := ackDone_cases count k s <;> rw [heq] <;> repeat' constructor

theorem rdnDone_frame (count : Byte) (s : State) : DoneFrame s (rdnDone count s) := by repeat' constructor

/-- The completion of a call keeps its frame, whoever owns the call. -/
theorem readerDone_frame (count : Byte) (s : State) : DoneFrame s (readerDone count s) := by
  unfold readerDone
  cases hfsm : s.fsm with
  | ah1 | ah2 | ah3 | apay => exact matchDone_frame count (by simp [hfsm])
  | ack k => exact ackDone_frame count k s
  | reading => exact rdnDone_frame count s
  | _ => exact .refl s

theorem pollEnd_frame (s : State) : PollFrame s (pollEnd s) := by
  obtain ⟨heq, -, -⟩ | ⟨heq, -⟩ := pollEnd_cases s
  · rw [heq]
    exact .refl s
  · rw [heq]
    have call_over : PollFrame s { s with rdActive := false } := by repeat' constructor
    exact call_over.trans (readerDone_frame _ _).toPollFrame

/-- The first half of a poll writes RXQ, RD_COUNT and the place of the byte, and nothing else. -/
theorem pollTake_writes (h : pollTake s = .next t) :
    t = { s with rxq := t.rxq, rdCount := t.rdCount, ch := t.ch, rxf := t.rxf, buf := t.buf } := by
  obtain ⟨rfl, -⟩ | ⟨b, q, v, -, -, hstore, rfl⟩ := pollTake_cases h
  · rfl
  · obtain ⟨-, -, rfl⟩ | ⟨-, -, rfl⟩ | ⟨-, -, rfl⟩ := storeByte_cases hstore <;> rfl

theorem pollTake_frame (h : pollTake s = .next t) : PollFrame s t := by
  rw [pollTake_writes h]
  repeat' constructor

theorem poll_frame (h : poll s = .next t) : PollFrame s t := by
  obtain ⟨u, htake, rfl⟩ := poll_cases h
  exact (pollTake_frame htake).trans (pollEnd_frame u)

theorem engineTurn_frame (h : engineTurn s = .next t) : EngineFrame s t := by
  obtain ⟨-, rfl⟩ | ⟨-, rfl⟩ | ⟨-, rfl⟩ | ⟨-, -, rfl⟩ | ⟨-, -, -, hpoll⟩ := engineTurn_cases h
  · exact .refl _
  · exact sentStep_frame s
  · exact verifyStep_frame s
  · exact loopTop_frame s
  · exact (poll_frame hpoll).toEngineFrame

/-! ## The stream under the ENGINE -/

theorem verifyStep_tx (s : State) : (verifyStep s).tx = s.tx := by
  obtain ⟨-, heq⟩ | ⟨-, heq⟩ := verifyStep_cases s <;> simp [heq]

/-- A turn of the ENGINE sends the frame in TXF, in SENT or in AWAIT, or sends nothing (20_memory.md R38). -/
theorem engineTurn_tx (h : engineTurn s = .next t) :
    t.tx = s.tx ∨ ((s.fsm = .sent ∨ s.fsm.await = true) ∧ t.tx = (transmit s).tx) := by
  obtain ⟨-, rfl⟩ | ⟨hsent, rfl⟩ | ⟨-, rfl⟩ | ⟨hawait, -, rfl⟩ | ⟨-, -, -, hpoll⟩ := engineTurn_cases h
  · exact .inl rfl
  · exact .inr ⟨.inl hsent, rfl⟩
  · exact .inl (verifyStep_tx s)
  · obtain ⟨-, heq⟩ | ⟨-, -, heq⟩ | ⟨-, -, heq⟩ := loopTop_cases s
    · exact .inl (by simp [heq])
    · exact .inr ⟨.inr hawait, by simp [heq]⟩
    · exact .inl (by simp [heq])
  · exact .inl (poll_frame hpoll).tx

/-! ## The frame of a host write and of a delivery -/

/-- `t` agrees with `s` in all that no host write writes: what belongs to the LINK and to the CLOCK, the stream, the
parameters and the model's own fields. -/
structure HostWriteFrame (s t : State) : Prop where
  rxq : t.rxq = s.rxq
  rxovf : t.rxovf = s.rxovf
  now : t.now = s.now
  tx : t.tx = s.tx
  cfg : t.cfg = s.cfg
  agenda : t.agenda = s.agenda
  turn : t.turn = s.turn
  hostData : t.hostData = s.hostData

theorem exec_hostWriteFrame {i : Instr} (h : exec i s = .next t) : HostWriteFrame s t := by
  obtain ⟨-, rfl⟩ | ⟨-, -, rfl⟩ | ⟨-, -, rfl⟩ := exec_cases h
  · constructor <;> rfl
  · constructor <;> rfl
  · have kept := commandBody_frame i (latch i s)
    exact ⟨kept.rxq, kept.rxovf, kept.now, kept.tx, kept.cfg, kept.agenda, kept.turn, kept.hostData⟩

theorem hostWrite_frame {i : Byte} {w : Word} (h : hostWrite i w s = .next t) : HostWriteFrame s t := by
  obtain ⟨-, hcmd⟩ | ⟨-, -, -, rfl⟩ | ⟨-, -, -, rfl⟩ | rfl := hostWrite_cases h
  · obtain ⟨-, rfl⟩ | ⟨-, -, rfl⟩ | ⟨-, i, -, hexec⟩ := acceptWord_cases hcmd
    · constructor <;> rfl
    · constructor <;> rfl
    · exact exec_hostWriteFrame hexec
  all_goals constructor <;> rfl

/-- A delivery writes RXQ or RXOVF, and nothing else (R36). -/
theorem linkDeliver_writes (b : Byte) (s : State) :
    linkDeliver b s = { s with rxq := (linkDeliver b s).rxq, rxovf := (linkDeliver b s).rxovf } := by
  obtain ⟨-, heq⟩ | ⟨-, heq⟩ := linkDeliver_cases b s <;> simp [heq, raise]

/-! ## Error bits -/

/-- No error bit set in `s` is clear in `t`. -/
def ErrorsKept (s t : State) : Prop :=
  (s.errBusy = true → t.errBusy = true) ∧ (s.errIllegal = true → t.errIllegal = true)
    ∧ (s.errOperand = true → t.errOperand = true) ∧ (s.rxovf = true → t.rxovf = true)

theorem ErrorsKept.of_eq (hbusy : t.errBusy = s.errBusy) (hillegal : t.errIllegal = s.errIllegal)
    (hoperand : t.errOperand = s.errOperand) (hrxovf : t.rxovf = s.rxovf) : ErrorsKept s t :=
  ⟨hbusy.trans, hillegal.trans, hoperand.trans, hrxovf.trans⟩

theorem raise_keepsErrors (e : ErrKind) (s : State) : ErrorsKept s (raise e s) := by
  cases e <;> simp [ErrorsKept]

theorem exec_keepsErrors {i : Instr} (h : exec i s = .next t) : ErrorsKept s t := by
  obtain ⟨-, rfl⟩ | ⟨-, -, rfl⟩ | ⟨-, -, rfl⟩ := exec_cases h
  · exact raise_keepsErrors .busy s
  · exact raise_keepsErrors .operand s
  · have kept := commandBody_frame i (latch i s)
    exact .of_eq kept.errBusy kept.errIllegal kept.errOperand kept.rxovf

theorem hostWrite_keepsErrors {i : Byte} {w : Word} (h : hostWrite i w s = .next t) : ErrorsKept s t := by
  obtain ⟨-, hcmd⟩ | ⟨-, -, -, rfl⟩ | ⟨-, -, -, rfl⟩ | rfl := hostWrite_cases h
  · obtain ⟨-, rfl⟩ | ⟨-, -, rfl⟩ | ⟨-, i, -, hexec⟩ := acceptWord_cases hcmd
    · exact raise_keepsErrors .busy s
    · exact raise_keepsErrors .illegal s
    · exact exec_keepsErrors hexec
  · exact raise_keepsErrors .busy s
  · exact .of_eq rfl rfl rfl rfl
  · exact .of_eq rfl rfl rfl rfl

theorem linkDeliver_keepsErrors (b : Byte) (s : State) : ErrorsKept s (linkDeliver b s) := by
  obtain ⟨-, heq⟩ | ⟨-, heq⟩ := linkDeliver_cases b s
  · rw [heq]
    exact .of_eq rfl rfl rfl rfl
  · rw [heq]
    exact raise_keepsErrors .rxOverflow s

theorem runEvent_keepsErrors {e : Event} (hreset : e ≠ .reset) (h : runEvent e s = .next t) : ErrorsKept s t := by
  obtain ⟨i, w, rfl, hwrite⟩ | ⟨i, rfl, rfl⟩ | ⟨rfl, hturn⟩ | ⟨b, rfl, rfl⟩ | ⟨rfl, rfl⟩ | ⟨rfl, rfl⟩ | ⟨rfl, -⟩ :=
    runEvent_cases h
  · exact hostWrite_keepsErrors hwrite
  · exact .of_eq rfl rfl rfl rfl
  · have kept := engineTurn_frame hturn
    exact .of_eq kept.errBusy kept.errIllegal kept.errOperand kept.rxovf
  · exact linkDeliver_keepsErrors b s
  · exact .of_eq rfl rfl rfl rfl
  · exact .of_eq rfl rfl rfl rfl
  · exact absurd rfl hreset

/-! ## A resting block -/

/-- An enabled ENGINE is in SENT, VERIFY, READING or AWAIT, all of them busy (R14, R50). -/
theorem busy_of_engineEnabled (h : engineEnabled s = true) : s.busy = true := by
  unfold engineEnabled at h
  unfold State.busy
  cases hfsm : s.fsm <;> simp [hfsm, FsmState.await, FsmState.busy] at h ⊢

theorem engineEnabled_of_rest (h : s.busy = false) : engineEnabled s = false :=
  Bool.eq_false_iff.2 fun enabled => by simp [busy_of_engineEnabled enabled] at h

end

/-! ## The obligations -/

/-- Settles O11: agent by agent; RESET is the reset column. -/
theorem errorBitsStayUntilReset : Obligations.ErrorBitsStayUntilReset :=
  ⟨fun _ _ _ hreset h => runEvent_keepsErrors hreset h, fun s => ⟨resetStep s, rfl, rfl, rfl, rfl, rfl⟩⟩

/-- Settles O51: a host write to a busy block at most raises ErrBusy, the ENGINE keeps CMD and its frame, and the other
agents do not reach them. -/
theorem commandIsStableWhileBusy : Obligations.CommandIsStableWhileBusy := by
  intro s t e hbusy hreset h
  cases e with
  | hostWrite i w =>
    obtain rfl | rfl := hostWrite_of_busy_cases hbusy h
    · exact ⟨rfl, rfl, rfl, fun _ _ _ => .inr rfl, by simp⟩
    · exact ⟨rfl, rfl, rfl, fun _ _ _ => .inl rfl, by simp⟩
  | engine =>
    have kept := engineTurn_frame h
    exact ⟨kept.cmd, kept.txf, kept.txlen, by simp, by simp⟩
  | linkByte b =>
    obtain rfl := Host.Outcome.next.inj h
    rw [linkDeliver_writes b s]
    exact ⟨rfl, rfl, rfl, by simp, by simp⟩
  | hostRead i =>
    obtain rfl := Host.Outcome.next.inj h
    exact ⟨rfl, rfl, rfl, by simp, fun _ _ => rfl⟩
  | linkTake | tick =>
    obtain rfl := Host.Outcome.next.inj h
    exact ⟨rfl, rfl, rfl, by simp, by simp⟩
  | reset => exact absurd rfl hreset

/-- Settles O52: a resting block has no ENGINE step, and each of the other agents' steps writes its own fields. -/
theorem restingBlockIsStill : Obligations.RestingBlockIsStill := by
  intro s t e hrest h
  have disabled := engineEnabled_of_rest hrest
  refine ⟨disabled, ?_, ?_, ?_, ?_⟩
  · rintro rfl
    exact (Host.Outcome.next.inj ((engineTurn_of_disabled disabled).symm.trans h)).symm
  · rintro rfl
    exact (Host.Outcome.next.inj h).symm
  · rintro b rfl
    obtain rfl := Host.Outcome.next.inj h
    exact linkDeliver_writes b s
  · rintro rfl
    exact (Host.Outcome.next.inj h).symm

/-- Settles O53: the frame of each agent, agent by agent. -/
theorem agentsKeepToTheirState : Obligations.AgentsKeepToTheirState := by
  intro s t e h hreset
  cases e with
  | hostWrite i w =>
    have kept := hostWrite_frame h
    simp [kept.cfg, kept.agenda, kept.turn, kept.now, kept.tx, kept.hostData, kept.rxq, kept.rxovf]
  | engine =>
    have kept := engineTurn_frame h
    have sends : t.tx = s.tx ∨ ∃ f, t.tx = s.tx ++ [f] := (engineTurn_tx h).imp_right fun hsent => ⟨_, hsent.2⟩
    simp [kept.cfg, kept.agenda, kept.turn, kept.now, kept.hostData, kept.cmd, kept.errBusy, kept.errIllegal,
      kept.errOperand, kept.rxovf, kept.txf, kept.txlen, sends]
  | linkByte b =>
    obtain rfl := Host.Outcome.next.inj h
    rw [linkDeliver_writes b s]
    simp
  | hostRead i | linkTake | tick =>
    obtain rfl := Host.Outcome.next.inj h
    simp [hostRead, linkTakeFrame, clockTick]
  | reset => exact absurd rfl hreset

end Sys2Proof.Machine

/-! # The invariant in parts

`Inv` speaks of the block alone; it is a part about data and a part about control: who owns the FSM state, with what
reader call and what flags (10_state.md R13, R19, R28, 42_timed_reader.md R69). Each part has its own rules for the
steps; the obligation O54. -/

namespace Sys2Proof.Machine

section

variable {s t : State}

/-! ## What `Inv` does not see -/

/-- `s` with the fields that `Inv` does not read at fixed values. -/
def invView (s : State) : State :=
  { s with
    errBusy := false, errIllegal := false, errOperand := false, rxovf := false
    now := 0x00000000#32, tx := [], agenda := [], turn := 0, hostData := 0x00000000#32 }

theorem Inv.of_invView_eq (h : Inv s) (hview : invView t = invView s) : Inv t := by
  have seen : Inv (invView t) := hview ▸ ⟨h.cfgLegal, h.bufWf, h.bufBelow, h.fifo, h.crc, h.txlen, h.cmd, h.owner,
    h.reader, h.flags, h.frame⟩
  exact ⟨seen.cfgLegal, seen.bufWf, seen.bufBelow, seen.fifo, seen.crc, seen.txlen, seen.cmd, seen.owner, seen.reader,
    seen.flags, seen.frame⟩

/-! ## The two parts -/

/-- The part of the invariant about data: the parameters, BUF, RXQ, the CRC register, and the command with its frame. -/
structure DataOk (s : State) : Prop where
  cfgLegal : s.cfg.legal = true
  bufWf : s.buf.wf = true
  bufBelow : s.buf.below s.cfg.bufSize = true
  fifo : s.rxq.length ≤ s.cfg.rxDepth
  crc : s.crcOut = swap16 s.crcRaw
  txlen : s.txlen = 0#4 ∨ s.txlen = 8#4 ∨ s.txlen = 11#4
  cmd : cmdOk s = true
  frame : frameOk s = true

/-- The part of the invariant about control: the owner of the FSM state, its reader call and the flags. -/
structure ControlOk (s : State) : Prop where
  owner : ownerOk s = true
  reader : readerOk s = true
  flags : flagsOk s = true

theorem Inv.data (h : Inv s) : DataOk s := ⟨h.cfgLegal, h.bufWf, h.bufBelow, h.fifo, h.crc, h.txlen, h.cmd, h.frame⟩

theorem Inv.control (h : Inv s) : ControlOk s := ⟨h.owner, h.reader, h.flags⟩

theorem Inv.of_parts (hd : DataOk s) (hc : ControlOk s) : Inv s where
  cfgLegal := hd.cfgLegal
  bufWf := hd.bufWf
  bufBelow := hd.bufBelow
  fifo := hd.fifo
  crc := hd.crc
  txlen := hd.txlen
  cmd := hd.cmd
  owner := hc.owner
  reader := hc.reader
  flags := hc.flags
  frame := hd.frame

/-! ## The owner of an FSM state -/

/-- An FSM state of a query's reply: the search and VERIFY. -/
def FsmState.ofReply : FsmState → Bool
  | .ah1 | .ah2 | .ah3 | .apay | .verify => true
  | _ => false

theorem ownerOk_of_reply (hf : s.fsm.ofReply = true) :
    ownerOk s = true ↔ opField s.cmd = 0x8#4 ∨ opField s.cmd = 0x9#4 := by
  unfold ownerOk
  cases hfsm : s.fsm <;> simp [hfsm, FsmState.ofReply] at hf ⊢

theorem ownerOk_of_ack {k : Fin 6} (hf : s.fsm = .ack k) : ownerOk s = true ↔ opField s.cmd = 0xA#4 := by
  simp [ownerOk, hf]

theorem ownerOk_of_sent (hf : s.fsm = .sent) :
    ownerOk s = true ↔ opField s.cmd = 0x8#4 ∨ opField s.cmd = 0x9#4 ∨ opField s.cmd = 0xA#4 := by
  simp [ownerOk, hf]

theorem ownerOk_of_timeout (hf : s.fsm = .timeout) :
    ownerOk s = true ↔ opField s.cmd = 0x8#4 ∨ opField s.cmd = 0x9#4 ∨ opField s.cmd = 0xA#4 := by
  simp [ownerOk, hf]

theorem ownerOk_of_reading (hf : s.fsm = .reading) : ownerOk s = true ↔ opField s.cmd = 0x6#4 := by
  simp [ownerOk, hf]

theorem reply_or_ack_of_await {f : FsmState} (h : f.await = true) : f.ofReply = true ∨ ∃ k, f = .ack k := by
  cases f <;> simp [FsmState.await, FsmState.ofReply] at h ⊢

/-- A transaction's command is QRYS, QRYD or SETA. -/
theorem ControlOk.transaction_opcode (h : ControlOk s) (hf : s.fsm = .sent ∨ s.fsm.await = true) :
    opField s.cmd = 0x8#4 ∨ opField s.cmd = 0x9#4 ∨ opField s.cmd = 0xA#4 := by
  obtain hsent | hawait := hf
  · exact (ownerOk_of_sent hsent).1 h.owner
  · obtain hreply | ⟨k, hack⟩ := reply_or_ack_of_await hawait
    · exact ((ownerOk_of_reply hreply).1 h.owner).imp_right .inl
    · exact .inr (.inr ((ownerOk_of_ack hack).1 h.owner))

@[simp] theorem opField_zero : opField 0x00000000#32 = 0x0#4 := by decide

@[simp] theorem decode_zero : decode 0x00000000#32 = .error .unassignedOpcode := by decide

theorem cmd_ne_zero_of_opField {w : Word} (h : opField w ≠ 0x0#4) : w ≠ 0x00000000#32 := by
  rintro rfl
  exact h opField_zero

/-! ## The reader call -/

theorem readerOk_of_inactive (hf : s.fsm ≠ .reading) (ha : s.rdActive = false) : readerOk s = true := by
  simp [readerOk, hf, ha]

theorem readerOk_of_reading (hf : s.fsm = .reading) :
    readerOk s = true ↔
      s.rdActive = true ∧ s.rdCount < s.rdN ∧ s.rdN = aField s.cmd ∧ s.rdDl = immField s.cmd := by
  simp [readerOk, hf, and_assoc]

theorem readerOk_of_active (hf : s.fsm ≠ .reading) (ha : s.rdActive = true) :
    readerOk s = true ↔
      s.fsm.await = true ∧ s.rdCount < s.rdN ∧ s.rdN = callSize s ∧ s.rdDl = s.cfg.readMs := by
  simp [readerOk, hf, ha, and_assoc, callSize]

theorem ControlOk.rdActive_of_not_await (h : ControlOk s) (hr : s.fsm ≠ .reading) (ha : s.fsm.await = false) :
    s.rdActive = false := by
  cases hact : s.rdActive with
  | false => rfl
  | true => simp [((readerOk_of_active hr hact).1 h.reader).1] at ha

/-- A call that is active has not taken all its bytes. -/
theorem ControlOk.count_lt (h : ControlOk s) (hact : s.rdActive = true) : s.rdCount < s.rdN := by
  by_cases hr : s.fsm = .reading
  · exact ((readerOk_of_reading hr).1 h.reader).2.1
  · exact ((readerOk_of_active hr hact).1 h.reader).2.1

/-! ## The flags -/

/-- All the flags of an accepted command are clear, and PWR with them. -/
structure FlagsClear (s : State) : Prop where
  done : s.done = false
  ok : s.ok = false
  tmo : s.tmo = false
  pwr : s.pwr = false
  short : s.short = false

/-- While a command runs the flags are clear, but for PWRCYC with its prompt. -/
theorem flagsOk_of_running (hb : s.busy = true) (hp : s.fsm ≠ .pwrcyc) : flagsOk s = true ↔ FlagsClear s := by
  have not_resting : s.fsm ≠ .idle ∧ s.fsm ≠ .success ∧ s.fsm ≠ .timeout := by
    refine ⟨?_, ?_, ?_⟩ <;> intro hf <;> simp [State.busy, hf, FsmState.busy] at hb
  obtain ⟨not_idle, not_success, not_timeout⟩ := not_resting
  simp only [flagsOk, hb, hp, not_idle, not_success, not_timeout, decide_false, if_false, Bool.not_true, Bool.false_and,
    Bool.or_false, Bool.and_eq_true, beq_iff_eq, Bool.not_eq_true']
  exact ⟨fun ⟨⟨⟨⟨hdone, htmo⟩, hpwr⟩, hok⟩, hshort⟩ => ⟨hdone, hok, htmo, hpwr, hshort⟩,
    fun h => ⟨⟨⟨⟨h.done, h.tmo⟩, h.pwr⟩, h.ok⟩, h.short⟩⟩

theorem flagsOk_of_idle (hf : s.fsm = .idle) (hcmd : s.cmd ≠ 0x00000000#32) (hdone : s.done = true)
    (htmo : s.tmo = false) (hpwr : s.pwr = false) (hshort : s.short = true → opField s.cmd = 0x6#4 ∧ s.ok = false) :
    flagsOk s = true := by
  have short_cases : s.short = false ∨ s.short = true ∧ opField s.cmd = 0x6#4 ∧ s.ok = false := by
    cases hs : s.short <;> simp_all
  obtain hs | ⟨hs, hop, hok⟩ := short_cases
  · simp [flagsOk, hf, State.busy, FsmState.busy, hcmd, hdone, htmo, hpwr, hs]
  · simp [flagsOk, hf, State.busy, FsmState.busy, hcmd, hdone, htmo, hpwr, hop, hok]

theorem flagsOk_of_success (hf : s.fsm = .success) (hcmd : s.cmd ≠ 0x00000000#32) (hdone : s.done = true)
    (hok : s.ok = true) (htmo : s.tmo = false) (hpwr : s.pwr = false) (hshort : s.short = false) :
    flagsOk s = true := by
  simp [flagsOk, hf, State.busy, FsmState.busy, hcmd, hdone, hok, htmo, hpwr, hshort]

theorem flagsOk_of_timeout (hf : s.fsm = .timeout) (hcmd : s.cmd ≠ 0x00000000#32) (hdone : s.done = true)
    (hok : s.ok = false) (htmo : s.tmo = true) (hpwr : s.pwr = false) (hshort : s.short = false) :
    flagsOk s = true := by
  simp [flagsOk, hf, State.busy, FsmState.busy, hcmd, hdone, hok, htmo, hpwr, hshort]

theorem flagsOk_of_pwrcyc (hf : s.fsm = .pwrcyc) (hdone : s.done = false) (hok : s.ok = !s.cfg.compatSilentSuccess)
    (htmo : s.tmo = false) (hpwr : s.pwr = true) (hshort : s.short = false) : flagsOk s = true := by
  simp [flagsOk, hf, State.busy, FsmState.busy, hdone, hok, htmo, hpwr, hshort]

/-- PWR is set in PWRCYC alone. -/
theorem ControlOk.pwr_of_rest (h : ControlOk s) (hb : s.busy = false) : s.pwr = false := by
  have flags := h.flags
  have not_pwrcyc : s.fsm ≠ .pwrcyc := by
    intro hf
    simp [State.busy, hf, FsmState.busy] at hb
  simp only [flagsOk, Bool.and_eq_true, beq_iff_eq, decide_eq_false not_pwrcyc] at flags
  obtain ⟨⟨⟨-, hpwr⟩, -⟩, -⟩ := flags
  exact hpwr

theorem ControlOk.rdActive_of_rest (h : ControlOk s) (hb : s.busy = false) : s.rdActive = false := by
  refine h.rdActive_of_not_await (fun hf => ?_) ?_
  · simp [State.busy, hf, FsmState.busy] at hb
  · unfold State.busy at hb
    cases hf : s.fsm <;> simp [hf, FsmState.busy, FsmState.await] at hb ⊢

/-! ## Control, by the kind of the FSM state -/

theorem busy_of_await (h : s.fsm.await = true) : s.busy = true := by
  unfold State.busy
  cases hf : s.fsm <;> simp [hf, FsmState.await, FsmState.busy] at h ⊢

theorem ControlOk.flagsClear_of_running (h : ControlOk s)
    (hf : s.fsm = .sent ∨ s.fsm = .verify ∨ s.fsm.await = true ∨ s.fsm = .reading) : FlagsClear s := by
  have running : s.busy = true ∧ s.fsm ≠ .pwrcyc := by
    unfold State.busy
    cases hfsm : s.fsm <;> simp [hfsm, FsmState.await, FsmState.busy] at hf ⊢
  exact (flagsOk_of_running running.1 running.2).1 h.flags

theorem controlOk_of_reply (hf : s.fsm.ofReply = true) (hop : opField s.cmd = 0x8#4 ∨ opField s.cmd = 0x9#4)
    (hr : readerOk s = true) (hclear : FlagsClear s) : ControlOk s := by
  have running : s.busy = true ∧ s.fsm ≠ .pwrcyc := by
    unfold State.busy
    cases hfsm : s.fsm <;> simp [hfsm, FsmState.ofReply, FsmState.busy] at hf ⊢
  exact ⟨(ownerOk_of_reply hf).2 hop, hr, (flagsOk_of_running running.1 running.2).2 hclear⟩

theorem controlOk_of_ack {k : Fin 6} (hf : s.fsm = .ack k) (hop : opField s.cmd = 0xA#4) (hr : readerOk s = true)
    (hclear : FlagsClear s) : ControlOk s :=
  ⟨(ownerOk_of_ack hf).2 hop, hr,
    (flagsOk_of_running (by simp [State.busy, hf, FsmState.busy]) (by simp [hf])).2 hclear⟩

theorem controlOk_of_sent (hf : s.fsm = .sent)
    (hop : opField s.cmd = 0x8#4 ∨ opField s.cmd = 0x9#4 ∨ opField s.cmd = 0xA#4) (hact : s.rdActive = false)
    (hclear : FlagsClear s) : ControlOk s :=
  ⟨(ownerOk_of_sent hf).2 hop, readerOk_of_inactive (by simp [hf]) hact,
    (flagsOk_of_running (by simp [State.busy, hf, FsmState.busy]) (by simp [hf])).2 hclear⟩

/-- The end of a command in IDLE, with no call active. -/
theorem controlOk_of_idle (hf : s.fsm = .idle) (hact : s.rdActive = false) (hop : opField s.cmd ≠ 0x0#4)
    (howner : [0x1#4, 0x2#4, 0x3#4, 0x4#4, 0x5#4, 0x6#4].contains (opField s.cmd) = true) (hdone : s.done = true)
    (htmo : s.tmo = false) (hpwr : s.pwr = false) (hshort : s.short = true → opField s.cmd = 0x6#4 ∧ s.ok = false) :
    ControlOk s where
  owner := by
    simp only [ownerOk, hf, List.contains_cons, Bool.or_eq_true] at howner ⊢
    exact .inr howner
  reader := readerOk_of_inactive (by simp [hf]) hact
  flags := flagsOk_of_idle hf (cmd_ne_zero_of_opField hop) hdone htmo hpwr hshort

/-! ## The invariant after power-up and RESET -/

/-- The reset column with any legal parameters satisfies the invariant. -/
theorem inv_resetAt_with {cfg : Params} (h : cfg.legal = true) (t : Word) :
    Inv { State.resetAt t with cfg := cfg } where
  cfgLegal := h
  bufWf := rfl
  bufBelow := rfl
  fifo := Nat.zero_le _
  crc := (by decide : 0x0000#16 = swap16 0x0000#16)
  txlen := .inl rfl
  cmd := by simp [cmdOk, State.resetAt]
  owner := by simp [ownerOk, State.resetAt]
  reader := rfl
  flags := rfl
  frame := by simp [frameOk, State.resetAt]

theorem inv_resetAt (t : Word) : Inv (State.resetAt t) := inv_resetAt_with (cfg := { }) rfl t

theorem resetStep_inv (h : Inv s) : Inv (resetStep s) :=
  (inv_resetAt_with h.cfgLegal s.now).of_invView_eq rfl

end

/-- Settles O54: the reset column, field by field. -/
theorem invAtReset : Obligations.InvAtReset :=
  ⟨fun t => ⟨inv_resetAt t, rfl, rfl⟩, inv_resetAt _⟩

end Sys2Proof.Machine

/-! # The invariant under the ENGINE

Each ENGINE step keeps the data part and the control part of the invariant (30_encoding.md R50, 42_timed_reader.md R71,
43_sensor_transaction.md R78 to R90, 44_address_assigner.md R94 to R97). -/

namespace Sys2Proof.Machine

section

variable {s t : State}

/-! ## Data under the ENGINE -/

/-- CMD, its frame and the parameters stay; what is left to say is BUF, RXQ and the CRC register. -/
theorem DataOk.of_engineFrame (h : DataOk s) (kept : EngineFrame s t) (hwf : t.buf.wf = true)
    (hbelow : t.buf.below s.cfg.bufSize = true) (hfifo : t.rxq.length ≤ s.cfg.rxDepth)
    (hcrc : t.crcOut = swap16 t.crcRaw) : DataOk t where
  cfgLegal := kept.cfg ▸ h.cfgLegal
  bufWf := hwf
  bufBelow := kept.cfg ▸ hbelow
  fifo := kept.cfg ▸ hfifo
  crc := hcrc
  txlen := kept.txlen ▸ h.txlen
  cmd := by
    have same : cmdOk t = cmdOk s := by simp only [cmdOk, kept.cmd, kept.cfg]
    exact same.trans h.cmd
  frame := by
    have same : frameOk t = frameOk s := by simp only [frameOk, kept.cmd, kept.txf, kept.txlen]
    exact same.trans h.frame

/-- An ENGINE step at most takes the oldest byte, so RXQ does not grow. -/
theorem engineTurn_rxq_length_le (h : engineTurn s = .next t) : t.rxq.length ≤ s.rxq.length := by
  obtain heq | ⟨-, b, heq⟩ := engineTurn_rxq h
  · rw [heq]
  · rw [heq, List.length_cons]
    omega

theorem pollEnd_buf (s : State) : (pollEnd s).buf = s.buf := by
  obtain ⟨heq, -, -⟩ | ⟨heq, -⟩ := pollEnd_cases s
  · rw [heq]
  · rw [heq]
    exact (readerDone_frame _ _).buf

/-- A poll stores below BUF_SIZE or not in BUF at all. -/
theorem poll_buf (h : poll s = .next t) : t.buf = s.buf ∨ ∃ k b, k < s.cfg.bufSize ∧ t.buf = s.buf.write k b := by
  obtain ⟨u, htake, rfl⟩ := poll_cases h
  rw [pollEnd_buf]
  obtain ⟨rfl, -⟩ | ⟨b, q, v, -, -, hstore, rfl⟩ := pollTake_cases htake
  · exact .inl rfl
  · obtain ⟨-, hk, rfl⟩ | ⟨-, -, rfl⟩ | ⟨-, -, rfl⟩ := storeByte_cases hstore
    · exact .inr ⟨_, b, hk, rfl⟩
    · exact .inl rfl
    · exact .inl rfl

theorem engineTurn_buf (h : engineTurn s = .next t) :
    t.buf = s.buf ∨ ∃ k b, k < s.cfg.bufSize ∧ t.buf = s.buf.write k b := by
  obtain ⟨-, rfl⟩ | ⟨-, rfl⟩ | ⟨-, rfl⟩ | ⟨-, -, rfl⟩ | ⟨-, -, -, hpoll⟩ := engineTurn_cases h
  · exact .inl rfl
  · exact .inl rfl
  · obtain ⟨-, heq⟩ | ⟨-, heq⟩ := verifyStep_cases s <;> exact .inl (by simp [heq])
  · obtain ⟨-, heq⟩ | ⟨-, -, heq⟩ | ⟨-, -, heq⟩ := loopTop_cases s <;> exact .inl (by simp [heq])
  · exact poll_buf hpoll

/-- The ENGINE writes both CRC registers together (40_checksum.md R60). -/
theorem engineTurn_crc (hs : s.crcOut = swap16 s.crcRaw) (h : engineTurn s = .next t) : t.crcOut = swap16 t.crcRaw := by
  obtain ⟨-, rfl⟩ | ⟨-, rfl⟩ | ⟨-, rfl⟩ | ⟨-, -, rfl⟩ | ⟨-, -, -, hpoll⟩ := engineTurn_cases h
  · exact hs
  · exact hs
  · obtain ⟨-, heq⟩ | ⟨-, heq⟩ := verifyStep_cases s <;> simp [heq]
  · obtain ⟨-, heq⟩ | ⟨-, -, heq⟩ | ⟨-, -, heq⟩ := loopTop_cases s <;> simp [heq, hs]
  · have kept := poll_frame hpoll
    rw [kept.crcOut, kept.crcRaw, hs]

theorem engineTurn_data (hd : DataOk s) (h : engineTurn s = .next t) : DataOk t := by
  have frame := engineTurn_frame h
  have fifo := (engineTurn_rxq_length_le h).trans hd.fifo
  have crc := engineTurn_crc hd.crc h
  obtain heq | ⟨k, b, hk, heq⟩ := engineTurn_buf h
  · exact hd.of_engineFrame frame (heq ▸ hd.bufWf) (heq ▸ hd.bufBelow) fifo crc
  · exact hd.of_engineFrame frame (heq ▸ Memory.write_wf _ _ _ hd.bufWf)
      (heq ▸ Memory.write_below _ _ _ _ hd.bufBelow hk) fifo crc

/-! ## Control under the steps that are no poll -/

theorem sentStep_control (hc : ControlOk s) (hf : s.fsm = .sent) : ControlOk (sentStep s) := by
  have opcode := (ownerOk_of_sent hf).1 hc.owner
  have idle : s.rdActive = false := hc.rdActive_of_not_await (by simp [hf]) (by simp [hf, FsmState.await])
  have clear : FlagsClear (sentStep s) := { hc.flagsClear_of_running (.inl hf) with }
  by_cases hseta : opField s.cmd = 0xA#4
  · have ack : (sentStep s).fsm = .ack 0 := if_pos hseta
    exact controlOk_of_ack ack hseta (readerOk_of_inactive (by simp [ack]) idle) clear
  · have search : (sentStep s).fsm = .ah1 := if_neg hseta
    have query : opField s.cmd = 0x8#4 ∨ opField s.cmd = 0x9#4 := by tauto
    exact controlOk_of_reply (by simp [search, FsmState.ofReply]) query (readerOk_of_inactive (by simp [search]) idle)
      clear

theorem verifyStep_control (hc : ControlOk s) (hf : s.fsm = .verify) : ControlOk (verifyStep s) := by
  have opcode := (ownerOk_of_reply (by simp [hf, FsmState.ofReply])).1 hc.owner
  have idle : s.rdActive = false := hc.rdActive_of_not_await (by simp [hf]) (by simp [hf, FsmState.await])
  have clear := hc.flagsClear_of_running (.inr (.inl hf))
  have cmd_ne : s.cmd ≠ 0x00000000#32 := cmd_ne_zero_of_opField (by rintro hop; simp [hop] at opcode)
  obtain ⟨-, heq⟩ | ⟨-, heq⟩ := verifyStep_cases s
  · rw [heq]
    exact ⟨by simpa [ownerOk] using opcode, readerOk_of_inactive (by simp) idle,
      flagsOk_of_success rfl cmd_ne rfl rfl rfl clear.pwr clear.short⟩
  · rw [heq]
    exact controlOk_of_reply rfl opcode (readerOk_of_inactive (by simp) idle) { clear with }

theorem timeoutExit_control (hc : ControlOk s) (hf : s.fsm.await = true) (hact : s.rdActive = false) :
    ControlOk (timeoutExit s) := by
  have opcode := hc.transaction_opcode (.inr hf)
  have clear := hc.flagsClear_of_running (.inr (.inr (.inl hf)))
  have cmd_ne : s.cmd ≠ 0x00000000#32 := cmd_ne_zero_of_opField (by rintro hop; simp [hop] at opcode)
  exact ⟨(ownerOk_of_timeout rfl).2 opcode, readerOk_of_inactive (by simp) hact,
    flagsOk_of_timeout rfl cmd_ne rfl rfl rfl clear.pwr clear.short⟩

theorem callSize_pos (s : State) : 0x00#8 < callSize s := by
  unfold callSize
  split <;> decide

/-- The start of a reader call in AWAIT, after a resend or without one (R79). -/
theorem startedCall_control (hc : ControlOk s) (hf : s.fsm.await = true) (t : State) (hfsm : t.fsm = s.fsm)
    (hcmd : t.cmd = s.cmd) (hcfg : t.cfg = s.cfg) (hclear : FlagsClear t) :
    ControlOk (readerStart (callSize s) s.cfg.readMs t) := by
  have same_size : callSize (readerStart (callSize s) s.cfg.readMs t) = callSize s := by simp [callSize, hfsm]
  have not_reading : s.fsm ≠ .reading := by
    intro hr
    simp [hr, FsmState.await] at hf
  have call : readerOk (readerStart (callSize s) s.cfg.readMs t) = true := by
    rw [readerOk_of_active (by simpa [hfsm] using not_reading) rfl, same_size]
    exact ⟨by simpa [hfsm] using hf, callSize_pos s, rfl, by simp [hcfg]⟩
  have clear : FlagsClear (readerStart (callSize s) s.cfg.readMs t) := { hclear with }
  obtain hreply | ⟨k, hack⟩ := reply_or_ack_of_await hf
  · refine controlOk_of_reply (by simpa [hfsm] using hreply) ?_ call clear
    simpa [hcmd] using (ownerOk_of_reply hreply).1 hc.owner
  · refine controlOk_of_ack (by simpa [hfsm] using hack) ?_ call clear
    simpa [hcmd] using (ownerOk_of_ack hack).1 hc.owner

theorem loopTop_control (hc : ControlOk s) (hf : s.fsm.await = true) (hact : s.rdActive = false) :
    ControlOk (loopTop s) := by
  have clear := hc.flagsClear_of_running (.inr (.inr (.inl hf)))
  obtain ⟨-, heq⟩ | ⟨-, -, heq⟩ | ⟨-, -, heq⟩ := loopTop_cases s <;> rw [heq]
  · exact timeoutExit_control hc hf hact
  · exact startedCall_control hc hf (resend s) rfl rfl rfl { clear with }
  · exact startedCall_control hc hf s rfl rfl rfl clear

/-! ## Control under a poll -/

/-- A poll takes nothing, or one byte that its call still misses. -/
theorem pollTake_rdCount (h : pollTake s = .next t) :
    t.rdCount = s.rdCount ∨ (s.rdCount < s.rdN ∧ t.rdCount = s.rdCount + 1#8) := by
  obtain ⟨rfl, -⟩ | ⟨b, q, v, -, hlt, hstore, rfl⟩ := pollTake_cases h
  · exact .inl rfl
  · have count_kept : v.rdCount = s.rdCount := by
      obtain ⟨-, -, rfl⟩ | ⟨-, -, rfl⟩ | ⟨-, -, rfl⟩ := storeByte_cases hstore <;> rfl
    exact .inr ⟨hlt, by rw [← count_kept]⟩

theorem pollTake_rdCount_le (hlt : s.rdCount < s.rdN) (h : pollTake s = .next t) : t.rdCount ≤ s.rdN := by
  obtain heq | ⟨-, heq⟩ := pollTake_rdCount h
  · rw [heq]
    exact BitVec.le_of_lt hlt
  · rw [heq]
    bv_omega

/-- RDN's completion (42_timed_reader.md R75). -/
theorem rdnDone_control (hop : opField s.cmd = 0x6#4) (hact : s.rdActive = false) (hclear : FlagsClear s)
    (count : Byte) : ControlOk (rdnDone count s) := by
  refine controlOk_of_idle rfl hact (by simp [hop]) (by simp [hop]) rfl hclear.tmo hclear.pwr fun hshort => ⟨hop, ?_⟩
  have missing : count < s.rdN := by simpa using hshort
  simpa using BitVec.ne_of_lt missing

/-- The completion of a call of the reply search stays in the reply's states. -/
theorem matchDone_control (hf : s.fsm = .ah1 ∨ s.fsm = .ah2 ∨ s.fsm = .ah3 ∨ s.fsm = .apay)
    (hop : opField s.cmd = 0x8#4 ∨ opField s.cmd = 0x9#4) (hact : s.rdActive = false) (hclear : FlagsClear s)
    (count : Byte) : ControlOk (matchDone count s) := by
  obtain heq | ⟨-, heq⟩ | ⟨-, heq⟩ | ⟨-, heq⟩ | ⟨-, -, heq⟩ := matchDone_cases count hf <;> rw [heq] <;>
    exact controlOk_of_reply rfl hop (readerOk_of_inactive (by simp) hact) { hclear with }

/-- The completion of a call of the acknowledgment match stays in it, or enters the prompt. -/
theorem ackDone_control (hop : opField s.cmd = 0xA#4) (hact : s.rdActive = false) (hclear : FlagsClear s) (count : Byte)
    (k : Fin 6) : ControlOk (ackDone count k s) := by
  obtain heq | ⟨_, heq⟩ | ⟨-, heq⟩ := ackDone_cases count k s <;> rw [heq]
  · exact controlOk_of_ack rfl hop (readerOk_of_inactive (by simp) hact) { hclear with }
  · exact controlOk_of_ack rfl hop (readerOk_of_inactive (by simp) hact) { hclear with }
  · exact ⟨by simpa [ownerOk] using hop, readerOk_of_inactive (by simp) hact,
      flagsOk_of_pwrcyc rfl rfl rfl hclear.tmo rfl hclear.short⟩

/-- The completion of a call, for every owner that can have one. -/
theorem readerDone_control (howner : ownerOk s = true) (hf : s.fsm.await = true ∨ s.fsm = .reading)
    (hact : s.rdActive = false) (hclear : FlagsClear s) (count : Byte) : ControlOk (readerDone count s) := by
  unfold readerDone
  cases hfsm : s.fsm with
  | ah1 | ah2 | ah3 | apay =>
    have opcode := (ownerOk_of_reply (by simp [hfsm, FsmState.ofReply])).1 howner
    exact matchDone_control (by simp [hfsm]) opcode hact hclear count
  | ack k => exact ackDone_control ((ownerOk_of_ack hfsm).1 howner) hact hclear count k
  | reading => exact rdnDone_control ((ownerOk_of_reading hfsm).1 howner) hact hclear count
  | idle | sent | verify | success | timeout | pwrcyc => simp [hfsm, FsmState.await] at hf

/-- A call that goes on is still its owner's call, with a byte missing. -/
theorem pollTake_readerOk (hc : ControlOk s) (hact : s.rdActive = true) (h : pollTake s = .next t)
    (hmore : t.rdCount ≠ t.rdN) : readerOk t = true := by
  have writes := pollTake_writes h
  have fsm_kept : t.fsm = s.fsm := by rw [writes]
  have active : t.rdActive = true := by rw [writes]; exact hact
  have still_missing : t.rdCount < t.rdN := by
    have size_kept : t.rdN = s.rdN := (pollTake_frame h).rdN
    have := pollTake_rdCount_le (hc.count_lt hact) h
    bv_omega
  by_cases hr : s.fsm = .reading
  · rw [readerOk_of_reading (fsm_kept.trans hr)]
    obtain ⟨-, -, hn, hdl⟩ := (readerOk_of_reading hr).1 hc.reader
    exact ⟨active, still_missing, by rw [writes]; exact hn, by rw [writes]; exact hdl⟩
  · rw [readerOk_of_active (fsm_kept ▸ hr) active]
    obtain ⟨hawait, -, hn, hdl⟩ := (readerOk_of_active hr hact).1 hc.reader
    exact ⟨fsm_kept ▸ hawait, still_missing, by rw [writes]; exact hn, by rw [writes]; exact hdl⟩

theorem poll_control (hc : ControlOk s) (hf : s.fsm.await = true ∨ s.fsm = .reading) (hact : s.rdActive = true)
    (h : poll s = .next t) : ControlOk t := by
  obtain ⟨u, htake, rfl⟩ := poll_cases h
  have writes := pollTake_writes htake
  have running : u.fsm.await = true ∨ u.fsm = .reading := by rw [writes]; exact hf
  have owner : ownerOk u = true := by rw [writes]; exact hc.owner
  obtain ⟨heq, hmore, -⟩ | ⟨heq, -⟩ := pollEnd_cases u
  · rw [heq]
    exact ⟨owner, pollTake_readerOk hc hact htake hmore, by rw [writes]; exact hc.flags⟩
  · rw [heq]
    have clear : FlagsClear u := by rw [writes]; exact { hc.flagsClear_of_running (.inr (.inr hf)) with }
    exact readerDone_control (s := { u with rdActive := false }) owner running rfl { clear with } _

/-! ## The ENGINE's turn -/

theorem engineTurn_control (hc : ControlOk s) (h : engineTurn s = .next t) : ControlOk t := by
  obtain ⟨-, rfl⟩ | ⟨hf, rfl⟩ | ⟨hf, rfl⟩ | ⟨hf, hact, rfl⟩ | ⟨hf, hact, -, hpoll⟩ := engineTurn_cases h
  · exact hc
  · exact sentStep_control hc hf
  · exact verifyStep_control hc hf
  · exact loopTop_control hc hf hact
  · exact poll_control hc hf hact hpoll

theorem engineTurn_inv (hi : Inv s) (h : engineTurn s = .next t) : Inv t :=
  .of_parts (engineTurn_data hi.data h) (engineTurn_control hi.control h)

end

end Sys2Proof.Machine

/-! # The invariant under every event

The accept of each command, the other agents and RESET keep the invariant; under it every event answers, and every frame
that goes out is good (30_encoding.md R46 to R48, R55, 40_checksum.md R61, 60_exceptions.md R103); the obligations O55,
O56 and O57. -/

namespace Sys2Proof.Machine

section

variable {s t : State}

/-! ## Commands -/

/-- The data part after a command: RXQ and the parameters stay, CMD is the command's word, and the rest is what each
command says of BUF, the CRC register and the frame. -/
theorem commandBody_data {i : Instr} (hd : DataOk s) (hwf : i.wellFormed s.cfg.bufSize = true)
    (hbuf : (commandBody i (latch i s)).buf.wf = true)
    (hbelow : (commandBody i (latch i s)).buf.below s.cfg.bufSize = true)
    (hcrc : (commandBody i (latch i s)).crcOut = swap16 (commandBody i (latch i s)).crcRaw)
    (htxlen : (commandBody i (latch i s)).txlen = 0#4 ∨ (commandBody i (latch i s)).txlen = 8#4
      ∨ (commandBody i (latch i s)).txlen = 11#4)
    (hframe : frameOk (commandBody i (latch i s)) = true) : DataOk (commandBody i (latch i s)) := by
  have kept := commandBody_frame i (latch i s)
  have cfg_kept : (commandBody i (latch i s)).cfg = s.cfg := kept.cfg
  have word : (commandBody i (latch i s)).cmd = encode i := kept.cmd
  exact
    { cfgLegal := cfg_kept ▸ hd.cfgLegal
      bufWf := hbuf
      bufBelow := cfg_kept ▸ hbelow
      fifo := cfg_kept ▸ kept.rxq ▸ hd.fifo
      crc := hcrc
      txlen := htxlen
      cmd := by rw [cmdOk, word, decode_encode, cfg_kept]; exact hwf
      frame := hframe }

/-- The commands that build no frame have nothing to say of TXF. -/
theorem frameOk_of_opField
    (h : opField s.cmd = 0x1#4 ∨ opField s.cmd = 0x2#4 ∨ opField s.cmd = 0x3#4 ∨ opField s.cmd = 0x6#4) :
    frameOk s = true := by
  obtain h | h | h | h := h <;> simp [frameOk, h]

theorem frameOk_of_query {a : Byte} {r : Half} {op : BitVec 4} (hcmd : s.cmd = encodeFields op a r)
    (hop : op = 0x4#4 ∨ op = 0x8#4 ∨ op = 0x9#4) (htxf : s.txf = queryTxf a r) (htxlen : s.txlen = 8#4) :
    frameOk s = true := by
  simp [frameOk, hcmd, opField_encodeFields, aField_encodeFields, immField_encodeFields, hop, htxf, htxlen]

theorem frameOk_of_addr {o n : Byte} {op : BitVec 4} (hcmd : s.cmd = encodeFields op o (n.setWidth 16))
    (hop : op = 0x5#4 ∨ op = 0xA#4) (htxf : s.txf = addrTxf o n) (htxlen : s.txlen = 11#4) : frameOk s = true := by
  obtain rfl | rfl := hop <;>
    simp [frameOk, hcmd, opField_encodeFields, aField_encodeFields, immField_encodeFields, htxf, htxlen]

theorem commandBody_dataOk {i : Instr} (hd : DataOk s) (hwf : i.wellFormed s.cfg.bufSize = true) :
    DataOk (commandBody i (latch i s)) := by
  cases i with
  | crc n =>
    exact commandBody_data hd hwf hd.bufWf hd.bufBelow rfl hd.txlen
      (frameOk_of_opField (.inl (opField_encodeFields 0x1#4 n _)))
  | crca n =>
    have trailer_below : n.toNat + 2 ≤ s.cfg.bufSize := of_decide_eq_true hwf
    refine commandBody_data hd hwf (Memory.write_wf _ _ _ (Memory.write_wf _ _ _ hd.bufWf)) ?_ rfl hd.txlen
      (frameOk_of_opField (.inr (.inl (opField_encodeFields 0x2#4 n _))))
    exact Memory.write_below _ _ _ _ (Memory.write_below _ _ _ _ hd.bufBelow (by omega)) (by omega)
  | crcv n =>
    exact commandBody_data hd hwf hd.bufWf hd.bufBelow rfl hd.txlen
      (frameOk_of_opField (.inr (.inr (.inl (opField_encodeFields 0x3#4 n _)))))
  | frq a r | qrys a r | qryd a r =>
    exact commandBody_data hd hwf hd.bufWf hd.bufBelow rfl (.inr (.inl rfl)) (frameOk_of_query rfl (by decide) rfl rfl)
  | fra o n | seta o n =>
    exact commandBody_data hd hwf hd.bufWf hd.bufBelow rfl (.inr (.inr rfl)) (frameOk_of_addr rfl (by decide) rfl rfl)
  | rdn n d =>
    have no_frame : frameOk (commandBody (.rdn n d) (latch (.rdn n d) s)) = true := by
      refine frameOk_of_opField (.inr (.inr (.inr ?_)))
      rw [(commandBody_frame _ _).cmd]
      exact opField_encodeFields 0x6#4 n d
    by_cases hzero : n = 0x00#8
    · subst hzero
      exact commandBody_data hd hwf hd.bufWf hd.bufBelow hd.crc hd.txlen no_frame
    · have reading : commandBody (.rdn n d) (latch (.rdn n d) s) = _ := rdnBody_of_ne_zero hzero d _
      exact commandBody_data hd hwf (by rw [reading]; exact hd.bufWf) (by rw [reading]; exact hd.bufBelow)
        (by rw [reading]; exact hd.crc) (by rw [reading]; exact hd.txlen) no_frame

open Laws.EncodesItsRow in
theorem opField_encode (i : Instr) : opField (encode i) = opcode i := by
  cases i <;> exact opField_encodeFields _ _ _

open Laws.EncodesItsRow in
theorem opcode_ne_zero (i : Instr) : opcode i ≠ 0x0#4 := by
  cases i <;> simp [opcode]

open Laws.EncodesItsRow in
/-- The control part after a command that ends in the step that accepts it (30_encoding.md R49). -/
theorem idleCommand_control {i : Instr} (kept : CommandFrame (latch i s) t) (hpwr : s.pwr = false)
    (howner : [0x1#4, 0x2#4, 0x3#4, 0x4#4, 0x5#4, 0x6#4].contains (opcode i) = true) (hf : t.fsm = .idle)
    (hact : t.rdActive = false) (hdone : t.done = true) : ControlOk t := by
  have opcode_kept : opField t.cmd = opcode i := by rw [kept.cmd, latch_cmd, opField_encode]
  have short_clear : t.short = false := kept.short
  exact controlOk_of_idle hf hact (opcode_kept ▸ opcode_ne_zero i) (opcode_kept ▸ howner) hdone kept.tmo
    (kept.pwr.trans hpwr) fun hshort => absurd hshort (by simp [short_clear])

/-- The control part after a command that a resting block accepts. -/
theorem commandBody_control (hc : ControlOk s) (hrest : s.busy = false) (i : Instr) :
    ControlOk (commandBody i (latch i s)) := by
  have inactive := hc.rdActive_of_rest hrest
  have pwr := hc.pwr_of_rest hrest
  have kept := commandBody_frame i (latch i s)
  have clear : FlagsClear (latch i s) := ⟨rfl, rfl, rfl, pwr, rfl⟩
  cases i with
  | crc n | crca n | crcv n | frq a r | fra o n => exact idleCommand_control kept pwr rfl rfl inactive rfl
  | qrys a r | qryd a r | seta o n =>
    exact controlOk_of_sent rfl (by simp [opField_encode, Laws.EncodesItsRow.opcode]) inactive { clear with }
  | rdn n d =>
    by_cases hzero : n = 0x00#8
    · subst hzero
      exact idleCommand_control kept pwr rfl rfl inactive rfl
    · have reading : commandBody (.rdn n d) (latch (.rdn n d) s) = _ := rdnBody_of_ne_zero hzero d _
      rw [reading]
      have some_missing : 0x00#8 < n := by bv_omega
      exact
        { owner := (ownerOk_of_reading rfl).2 (opField_encodeFields 0x6#4 n d)
          reader := (readerOk_of_reading rfl).2
            ⟨rfl, some_missing, (aField_encodeFields 0x6#4 n d).symm, (immField_encodeFields 0x6#4 n d).symm⟩
          flags := (flagsOk_of_running rfl (by simp)).2 { clear with } }

/-! ## The events -/

theorem raise_inv (hi : Inv s) (e : ErrKind) : Inv (raise e s) :=
  hi.of_invView_eq (by cases e <;> rfl)

theorem exec_inv {i : Instr} (hi : Inv s) (h : exec i s = .next t) : Inv t := by
  obtain ⟨-, rfl⟩ | ⟨-, -, rfl⟩ | ⟨hrest, hwf, rfl⟩ := exec_cases h
  · exact raise_inv hi .busy
  · exact raise_inv hi .operand
  · exact .of_parts (commandBody_dataOk hi.data hwf) (commandBody_control hi.control hrest i)

theorem bufStore_inv (hi : Inv s) {a : Nat} (v : Byte) (ha : a < s.cfg.bufSize) : Inv (bufStore a v s) :=
  { hi with
    bufWf := Memory.write_wf _ _ _ hi.bufWf
    bufBelow := Memory.write_below _ _ _ _ hi.bufBelow ha }

theorem hostWrite_inv {i : Byte} {w : Word} (hi : Inv s) (h : hostWrite i w s = .next t) : Inv t := by
  obtain ⟨-, hcmd⟩ | ⟨-, -, -, rfl⟩ | ⟨hlow, hbound, -, rfl⟩ | rfl := hostWrite_cases h
  · obtain ⟨-, rfl⟩ | ⟨-, -, rfl⟩ | ⟨-, i, -, hexec⟩ := acceptWord_cases hcmd
    · exact raise_inv hi .busy
    · exact raise_inv hi .illegal
    · exact exec_inv hi hexec
  · exact raise_inv hi .busy
  · exact bufStore_inv hi _ (Nat.sub_lt_left_of_lt_add hlow hbound)
  · exact hi

theorem linkDeliver_inv (hi : Inv s) (b : Byte) : Inv (linkDeliver b s) := by
  obtain ⟨hroom, heq⟩ | ⟨-, heq⟩ := linkDeliver_cases b s <;> rw [heq]
  · exact { hi with fifo := by simpa using hroom }
  · exact raise_inv hi .rxOverflow

/-- One event of any agent keeps the invariant. -/
theorem runEvent_inv {e : Event} (hi : Inv s) (h : runEvent e s = .next t) : Inv t := by
  obtain ⟨i, w, rfl, hwrite⟩ | ⟨i, rfl, rfl⟩ | ⟨rfl, hturn⟩ | ⟨b, rfl, rfl⟩ | ⟨rfl, rfl⟩ | ⟨rfl, rfl⟩ | ⟨rfl, rfl⟩ :=
    runEvent_cases h
  · exact hostWrite_inv hi hwrite
  · exact hi.of_invView_eq rfl
  · exact engineTurn_inv hi hturn
  · exact linkDeliver_inv hi b
  · exact hi.of_invView_eq rfl
  · exact hi.of_invView_eq rfl
  · exact resetStep_inv hi

/-- The choice of the next event writes the schedule alone. -/
theorem nextEvent_writes (s : State) :
    (nextEvent s).2 = { s with agenda := (nextEvent s).2.agenda, turn := (nextEvent s).2.turn } := by
  unfold nextEvent
  split <;> rfl

theorem nextEvent_inv (hi : Inv s) : Inv (nextEvent s).2 := by
  rw [nextEvent_writes]
  exact hi.of_invView_eq rfl

/-! ## Every event answers -/

/-- A command in CMD with OP 6 is an RDN whose operand lies in BUF (30_encoding.md R47). -/
theorem DataOk.rdn_operand_le (hd : DataOk s) (hop : opField s.cmd = 0x6#4) : (aField s.cmd).toNat ≤ s.cfg.bufSize := by
  have hcmd := hd.cmd
  unfold cmdOk at hcmd
  cases hdec : decode s.cmd with
  | error e =>
    have zero : s.cmd = 0x00000000#32 := by simpa [hdec] using hcmd
    simp [zero] at hop
  | ok i =>
    rw [hdec] at hcmd
    rw [← encode_of_decode hdec] at hop ⊢
    cases i with
    | rdn n d =>
      have operand : aField (encode (.rdn n d)) = n := aField_encodeFields 0x6#4 n d
      rw [operand]
      exact of_decide_eq_true hcmd
    | _ => simp [opField_encode, Laws.EncodesItsRow.opcode] at hop

/-- Under the invariant a call has room for the byte it takes. -/
theorem storeByte_answers (hi : Inv s) (hact : s.rdActive = true) (b : Byte) (q : List Byte) :
    ∃ u, storeByte b { s with rxq := q } = .next u := by
  have missing : s.rdCount.toNat < s.rdN.toNat := hi.control.count_lt hact
  unfold storeByte
  split
  next hreading =>
    have hreading : s.fsm = .reading := hreading
    obtain ⟨-, -, hn, -⟩ := (readerOk_of_reading hreading).1 hi.reader
    have bound := hi.data.rdn_operand_le ((ownerOk_of_reading hreading).1 hi.owner)
    have room : s.rdCount.toNat < s.cfg.bufSize := by
      rw [hn] at missing
      omega
    exact ⟨_, if_pos room⟩
  next hapay =>
    have hapay : s.fsm = .apay := hapay
    obtain ⟨-, -, hn, -⟩ := (readerOk_of_active (by simp [hapay]) hact).1 hi.reader
    have room : 3 + s.rdCount.toNat < 7 := by
      rw [hn, callSize, if_pos hapay, show (4#8).toNat = 4 from rfl] at missing
      omega
    exact ⟨_, dif_pos room⟩
  next => exact ⟨_, rfl⟩

theorem poll_answers (hi : Inv s) (hact : s.rdActive = true) : ∃ t, poll s = .next t := by
  have take : ∃ u, pollTake s = .next u := by
    cases hq : s.rxq with
    | nil => exact ⟨s, by simp [pollTake, hq]⟩
    | cons b q =>
      obtain ⟨u, hstore⟩ := storeByte_answers hi hact b q
      exact ⟨_, pollTake_of_byte hq (hi.control.count_lt hact) hstore⟩
  obtain ⟨u, htake⟩ := take
  exact ⟨pollEnd u, by simp [poll, htake]⟩

theorem engineTurn_answers (hi : Inv s) : ∃ t, engineTurn s = .next t := by
  cases he : engineEnabled s with
  | false => exact ⟨s, engineTurn_of_disabled he⟩
  | true =>
    simp only [engineEnabled, Bool.or_eq_true, Bool.and_eq_true, decide_eq_true_eq, Bool.not_eq_true'] at he
    obtain ((hsent | hverify) | ⟨hawait, hidle⟩) | ⟨⟨hf, hact⟩, hready⟩ := he
    · exact ⟨_, engineTurn_of_sent hsent⟩
    · exact ⟨_, engineTurn_of_verify hverify⟩
    · exact ⟨_, engineTurn_of_await hawait hidle⟩
    · obtain ⟨t, hpoll⟩ := poll_answers hi hact
      exact ⟨t, (engineTurn_of_ready hf hact hready).trans hpoll⟩

/-- A command always answers: busy, refused or run. -/
theorem exec_answers (i : Instr) (s : State) : ∃ t, exec i s = .next t := by
  cases hb : s.busy with
  | true => exact ⟨_, exec_of_busy i hb⟩
  | false =>
    cases hwf : i.wellFormed s.cfg.bufSize with
    | true => exact ⟨_, exec_of_ok i hb hwf⟩
    | false => exact ⟨_, exec_of_illFormed i hb hwf⟩

theorem hostWrite_answers (i : Byte) (w : Word) (s : State) : ∃ t, hostWrite i w s = .next t := by
  unfold hostWrite acceptWord
  split_ifs
  · exact ⟨_, rfl⟩
  · split
    · exact ⟨_, rfl⟩
    · exact exec_answers _ s
  all_goals exact ⟨_, rfl⟩

theorem runEvent_answers (hi : Inv s) (e : Event) : ∃ t, runEvent e s = .next t := by
  cases e with
  | hostWrite i w => exact hostWrite_answers i w s
  | engine => exact engineTurn_answers hi
  | _ => exact ⟨_, rfl⟩

/-! ## The frames that go out -/

theorem frameGood_query (a : Byte) (r : Half) (t : Word) :
    frameGood { time := t, bytes := (queryTxf a r).toList.take 8 } = true := by
  have frame : (queryTxf a r).toList.take 8
      = queryHead a r ++ [lowByte (crc16 (queryHead a r)), highByte (crc16 (queryHead a r))] := rfl
  rw [frameGood, frame, crc16_append_trailer]
  rfl

theorem frameGood_addr (o n : Byte) (t : Word) :
    frameGood { time := t, bytes := (addrTxf o n).toList.take 11 } = true := by
  have frame : (addrTxf o n).toList.take 11
      = addrHead o n ++ [lowByte (crc16 (addrHead o n)), highByte (crc16 (addrHead o n))] := rfl
  rw [frameGood, frame, crc16_append_trailer]
  rfl

theorem DataOk.query_frame (hd : DataOk s) (hop : opField s.cmd = 0x8#4 ∨ opField s.cmd = 0x9#4) :
    s.txf = queryTxf (aField s.cmd) (immField s.cmd) ∧ s.txlen = 8#4 := by
  have frame := hd.frame
  obtain hop | hop := hop <;> simpa [frameOk, hop] using frame

theorem DataOk.addr_frame (hd : DataOk s) (hop : opField s.cmd = 0xA#4) :
    s.txf = addrTxf (aField s.cmd) (lowByte (immField s.cmd)) ∧ s.txlen = 11#4 := by
  have frame := hd.frame
  simpa [frameOk, hop] using frame

/-- In a transaction TXF holds the frame of its command, so what goes out is good. -/
theorem frameGood_of_transaction (hi : Inv s) (hf : s.fsm = .sent ∨ s.fsm.await = true) :
    frameGood { time := s.now, bytes := s.txf.toList.take s.txlen.toNat } = true := by
  have query (hop : opField s.cmd = 0x8#4 ∨ opField s.cmd = 0x9#4) :
      frameGood { time := s.now, bytes := s.txf.toList.take s.txlen.toNat } = true := by
    obtain ⟨htxf, htxlen⟩ := hi.data.query_frame hop
    rw [htxf, htxlen]
    exact frameGood_query _ _ _
  obtain hop | hop | hop := hi.control.transaction_opcode hf
  · exact query (.inl hop)
  · exact query (.inr hop)
  · obtain ⟨htxf, htxlen⟩ := hi.data.addr_frame hop
    rw [htxf, htxlen]
    exact frameGood_addr _ _ _

theorem transmit_streamOk (hi : Inv s) (hf : s.fsm = .sent ∨ s.fsm.await = true) (hs : streamOk s = true) :
    streamOk (transmit s) = true := by
  have sent := frameGood_of_transaction hi hf
  simp only [streamOk, transmit_tx, List.all_append, List.all_cons, List.all_nil, sent, Bool.and_true] at hs ⊢
  exact hs

theorem streamOk_of_tx_eq (h : t.tx = s.tx) (hs : streamOk s = true) : streamOk t = true := by
  rwa [streamOk, h]

theorem runEvent_streamOk {e : Event} (hi : Inv s) (hs : streamOk s = true) (h : runEvent e s = .next t) :
    streamOk t = true := by
  obtain ⟨i, w, rfl, hwrite⟩ | ⟨i, rfl, rfl⟩ | ⟨rfl, hturn⟩ | ⟨b, rfl, rfl⟩ | ⟨rfl, rfl⟩ | ⟨rfl, rfl⟩ | ⟨rfl, rfl⟩ :=
    runEvent_cases h
  · exact streamOk_of_tx_eq (hostWrite_frame hwrite).tx hs
  · exact streamOk_of_tx_eq rfl hs
  · obtain heq | ⟨hf, heq⟩ := engineTurn_tx hturn
    · exact streamOk_of_tx_eq heq hs
    · exact streamOk_of_tx_eq heq (transmit_streamOk hi hf hs)
  · exact streamOk_of_tx_eq (by rw [linkDeliver_writes]) hs
  · rw [streamOk, List.all_eq_true] at hs ⊢
    exact fun f hf => hs f (List.mem_of_mem_tail hf)
  · exact streamOk_of_tx_eq rfl hs
  · exact streamOk_of_tx_eq rfl hs

end

/-! ## The obligations -/

/-- Settles O55: the choice of the event writes the schedule alone, and every event keeps the invariant. -/
theorem invKeptByEveryStep : Obligations.InvKeptByEveryStep := fun _ _ hi h => runEvent_inv (nextEvent_inv hi) h

/-- Settles O56: under the invariant a poll has room for its byte, and nothing else can stop. -/
theorem everyStepAnswers : Obligations.EveryStepAnswers :=
  fun s hi => runEvent_answers (nextEvent_inv hi) (nextEvent s).1

/-- Settles O57: a frame goes out only in a transaction, where TXF holds the frame its command built. -/
theorem everyFrameSentIsGood : Obligations.EveryFrameSentIsGood := by
  intro s t hi hs h
  have schedule_only : (nextEvent s).2.tx = s.tx := by rw [nextEvent_writes]
  exact runEvent_streamOk (nextEvent_inv hi) (streamOk_of_tx_eq schedule_only hs) h

end Sys2Proof.Machine

/-! # Polls, one by one

What a poll does with a byte waiting and with none, for each owner of a call (42_timed_reader.md R70 to R75,
43_sensor_transaction.md R82 to R84, 44_address_assigner.md R94); the obligations O23, O24, O31, O32 and O33. -/

namespace Sys2Proof.Machine

section

variable {s : State}

/-! ## A poll with a byte, and one with none -/

/-- The ENGINE's turn on a call with a byte waiting: the byte goes to its place and is counted, and the call may end. -/
theorem engineTurn_of_byte {b : Byte} {q : List Byte} {u : State} (hf : s.fsm.await = true ∨ s.fsm = .reading)
    (hact : s.rdActive = true) (hmore : s.rdCount < s.rdN) (hq : s.rxq = b :: q)
    (hstore : storeByte b { s with rxq := q } = .next u) :
    engineTurn s = .next (pollEnd { u with rdCount := u.rdCount + 1#8 }) := by
  rw [engineTurn_of_ready hf hact (readerReady_of_byte hq)]
  simp only [poll, pollTake_of_byte hq hmore hstore]

theorem readerReady_of_no_byte (hq : s.rxq = []) : readerReady s = readerExpired s := by
  simp [readerReady, hq]

theorem pollEnd_of_expired (h : readerExpired s = true) :
    pollEnd s = readerDone s.rdCount { s with rdActive := false } := if_pos (.inr h)

theorem pollEnd_of_open (hcount : s.rdCount ≠ s.rdN) (h : readerExpired s = false) : pollEnd s = s :=
  if_neg (not_or.2 ⟨hcount, by simp [h]⟩)

/-- A poll past the deadline with no byte waiting ends the call with what it has. -/
theorem poll_of_expired_call (hq : s.rxq = []) (h : readerExpired s = true) :
    poll s = .next (readerDone s.rdCount { s with rdActive := false }) := by
  have take_nothing : pollTake s = .next s := by simp [pollTake, hq]
  simp only [poll, take_nothing, pollEnd_of_expired h]

theorem engineTurn_of_expired_call (hf : s.fsm.await = true ∨ s.fsm = .reading) (hact : s.rdActive = true)
    (hq : s.rxq = []) (h : readerExpired s = true) :
    engineTurn s = .next (readerDone s.rdCount { s with rdActive := false }) :=
  (engineTurn_of_ready hf hact ((readerReady_of_no_byte hq).trans h)).trans (poll_of_expired_call hq h)

/-- A call before its deadline with no byte waiting gives the ENGINE no step (30_encoding.md R50). -/
theorem engineEnabled_of_open_call (hf : s.fsm.await = true ∨ s.fsm = .reading) (hact : s.rdActive = true)
    (hq : s.rxq = []) (h : readerExpired s = false) : engineEnabled s = false := by
  have neither : s.fsm ≠ .sent ∧ s.fsm ≠ .verify := by
    constructor <;> intro e <;> simp [e, FsmState.await] at hf
  simp [engineEnabled, neither, hact, readerReady_of_no_byte hq, h]

/-! ## The completion of a call, by its owner -/

theorem readerDone_reading (hf : s.fsm = .reading) (count : Byte) : readerDone count s = rdnDone count s := by
  simp only [readerDone, hf]

theorem readerDone_ack {k : Fin 6} (hf : s.fsm = .ack k) (count : Byte) : readerDone count s = ackDone count k s := by
  simp only [readerDone, hf]

theorem readerDone_ah1 (hf : s.fsm = .ah1) (count : Byte) :
    readerDone count s =
      if count = 1#8 ∧ s.ch = aField s.cmd then { s with rxf := s.rxf.set 0 s.ch, fsm := .ah2 }
      else { s with fsm := .ah1 } := by
  simp only [readerDone, matchDone, hf]

theorem readerDone_ah2 (hf : s.fsm = .ah2) (count : Byte) :
    readerDone count s =
      if count = 1#8 ∧ s.ch = 0x03#8 then { s with rxf := s.rxf.set 1 s.ch, fsm := .ah3 }
      else { s with fsm := .ah1 } := by
  simp only [readerDone, matchDone, hf]

theorem readerDone_ah3 (hf : s.fsm = .ah3) (count : Byte) :
    readerDone count s =
      if count = 1#8 ∧ s.ch = 0x02#8 then { s with rxf := s.rxf.set 2 s.ch, fsm := .apay }
      else { s with fsm := .ah1 } := by
  simp only [readerDone, matchDone, hf]

theorem readerDone_apay (hf : s.fsm = .apay) (count : Byte) :
    readerDone count s = if count = 4#8 then { s with fsm := .verify } else { s with fsm := .ah1 } := by
  simp only [readerDone, matchDone, hf]

/-- A call of the reply search that ends short restarts the search (43_sensor_transaction.md R83). -/
theorem readerDone_of_short_reply (hf : s.fsm = .ah1 ∨ s.fsm = .ah2 ∨ s.fsm = .ah3 ∨ s.fsm = .apay) {count : Byte}
    (hshort : count ≠ callSize s) : readerDone count s = { s with fsm := .ah1 } := by
  obtain hf | hf | hf | hf := hf <;> simp [callSize, hf] at hshort
  · rw [readerDone_ah1 hf, if_neg fun h => hshort h.1]
  · rw [readerDone_ah2 hf, if_neg fun h => hshort h.1]
  · rw [readerDone_ah3 hf, if_neg fun h => hshort h.1]
  · rw [readerDone_apay hf, if_neg hshort]

theorem ackDone_of_short {count : Byte} (hshort : count ≠ 1#8) (k : Fin 6) :
    ackDone count k s = { s with fsm := .ack 0 } :=
  if_neg fun h => hshort h.1

/-! ## The byte of an RDN, and of a reply's payload -/

/-- `s` after a poll of RDN has taken byte `b` (R70); `q` is the rest of RXQ. -/
def rdnByteTaken (b : Byte) (q : List Byte) (s : State) : State :=
  { s with rxq := q, buf := s.buf.write s.rdCount.toNat b, rdCount := s.rdCount + 1#8 }

theorem engineTurn_of_rdn_byte {b : Byte} {q : List Byte} (hf : s.fsm = .reading) (hact : s.rdActive = true)
    (hmore : s.rdCount.toNat < s.rdN.toNat) (hn : s.rdN.toNat ≤ s.cfg.bufSize) (hq : s.rxq = b :: q) :
    engineTurn s = .next (pollEnd (rdnByteTaken b q s)) := by
  have room : s.rdCount.toNat < s.cfg.bufSize := by omega
  refine engineTurn_of_byte (u := bufStore s.rdCount.toNat b { s with rxq := q }) (.inr hf) hact hmore hq ?_
  simp only [storeByte, hf, if_pos room]

/-- `s` after a poll in APAY has taken byte `b` (R70); `q` is the rest of RXQ. -/
def payloadByteTaken (b : Byte) (q : List Byte) (s : State) (hk : s.rdCount.toNat < 4) : State :=
  { s with rxq := q, rxf := s.rxf.set (3 + s.rdCount.toNat) b (by omega), rdCount := s.rdCount + 1#8 }

theorem engineTurn_of_payload_byte {b : Byte} {q : List Byte} (hk : s.rdCount.toNat < 4) (hf : s.fsm = .apay)
    (hact : s.rdActive = true) (hn : s.rdN = 4#8) (hq : s.rxq = b :: q) :
    engineTurn s = .next (pollEnd (payloadByteTaken b q s hk)) := by
  have missing : s.rdCount < s.rdN := by
    rw [hn]
    exact hk
  refine engineTurn_of_byte (u := { s with rxq := q, rxf := s.rxf.set (3 + s.rdCount.toNat) b (by omega) })
    (.inl (by simp [hf, FsmState.await])) hact missing hq ?_
  simp only [storeByte, hf]
  exact dif_pos (by omega)

end

/-! ## The obligations -/

/-- Settles O23: the byte goes to BUF[RD_COUNT], and the call ends full, ends late, or goes on. -/
theorem rdnPollTakesOneByte : Obligations.RdnPollTakesOneByte := by
  intro s b q hf hact hmore hn hwf hq
  refine ⟨s.buf.write s.rdCount.toNat b, Memory.write_wf _ _ _ hwf, fun a => Memory.read_write _ _ _ _ hwf, ?_⟩
  rw [engineTurn_of_rdn_byte hf hact hmore hn hq]
  have deadline : readerExpired (rdnByteTaken b q s) = true ↔ s.rdDl.toNat < (s.now - s.rdStart).toNat :=
    readerExpired_iff s
  have full_iff : s.rdCount + 1#8 = s.rdN ↔ s.rdCount.toNat + 1 = s.rdN.toNat := by bv_omega
  have done (count : Byte) := readerDone_reading (s := { rdnByteTaken b q s with rdActive := false }) hf count
  by_cases hfull : s.rdCount.toNat + 1 = s.rdN.toNat
  · have last : s.rdCount + 1#8 = s.rdN := full_iff.2 hfull
    rw [if_pos hfull, pollEnd_of_full (s := rdnByteTaken b q s) last, done]
    simp [rdnDone, rdnByteTaken, last]
  · have more : s.rdCount + 1#8 < s.rdN := by bv_omega
    rw [if_neg hfull]
    by_cases hlate : s.rdDl.toNat < (s.now - s.rdStart).toNat
    · rw [if_pos hlate, pollEnd_of_expired (deadline.2 hlate), done]
      simp [rdnDone, rdnByteTaken, more, BitVec.ne_of_lt more]
    · rw [if_neg hlate, pollEnd_of_open (s := rdnByteTaken b q s) (mt full_iff.1 hfull)
        (Bool.eq_false_iff.2 (mt deadline.1 hlate))]
      rfl

/-- Settles O24: the poll of a call with no byte, on each side of the strict deadline. -/
theorem rdnPollAtDeadline : Obligations.RdnPollAtDeadline := by
  intro s hf hact hmore hq
  have missing : s.rdCount < s.rdN := hmore
  refine ⟨fun hlate => ?_, fun hearly => ?_⟩
  · rw [engineTurn_of_expired_call (.inr hf) hact hq ((readerExpired_iff s).2 hlate),
      readerDone_reading (s := { s with rdActive := false }) hf]
    simp [rdnDone, missing, BitVec.ne_of_lt missing]
  · have before : readerExpired s = false := Bool.eq_false_iff.2 (mt (readerExpired_iff s).1 (Nat.not_lt.2 hearly))
    have disabled := engineEnabled_of_open_call (.inr hf) hact hq before
    exact ⟨disabled, engineTurn_of_disabled disabled⟩

/-- Settles O31: the poll hands its byte in CH to the completion of its state. -/
theorem headerByteMatching : Obligations.HeaderByteMatching := by
  intro s b q hact hn hcount hq u
  have turn (hawait : s.fsm.await = true) (hapay : s.fsm ≠ .apay) : engineTurn s = .next (readerDone 1#8 u) :=
    engineTurn_of_oneByteCall hawait hapay hact hn hcount hq
  refine ⟨fun hf => ?_, fun hf => ?_, fun hf => ?_⟩ <;>
    rw [turn (by simp [hf, FsmState.await]) (by simp [hf])]
  · rw [readerDone_ah1 (s := u) hf]
    simp only [true_and, u]
  · rw [readerDone_ah2 (s := u) hf]
    simp only [true_and, u]
  · rw [readerDone_ah3 (s := u) hf]
    simp only [true_and, u]

/-- Settles O32: the byte goes to RXF[3 + RD_COUNT], and the call ends full, ends late, or goes on. -/
theorem payloadPoll : Obligations.PayloadPoll := by
  intro s b q hk hf hact hn hq u
  have turn : engineTurn s = .next (pollEnd u) := engineTurn_of_payload_byte hk hf hact hn hq
  rw [turn]
  have deadline : readerExpired u = true ↔ s.rdDl.toNat < (s.now - s.rdStart).toNat := readerExpired_iff s
  have full_iff : u.rdCount = 4#8 ↔ s.rdCount.toNat = 3 := by
    simp only [u]
    bv_omega
  have done (count : Byte) := readerDone_apay (s := { u with rdActive := false }) hf count
  by_cases hfull : s.rdCount.toNat = 3
  · have four : u.rdCount = 4#8 := full_iff.2 hfull
    rw [if_pos hfull, pollEnd_of_full (four.trans hn.symm), done, if_pos four]
  · have not_four : u.rdCount ≠ 4#8 := mt full_iff.1 hfull
    rw [if_neg hfull]
    by_cases hlate : s.rdDl.toNat < (s.now - s.rdStart).toNat
    · rw [if_pos hlate, pollEnd_of_expired (deadline.2 hlate), done, if_neg not_four]
    · rw [if_neg hlate, pollEnd_of_open (hn.symm ▸ not_four) (Bool.eq_false_iff.2 (mt deadline.1 hlate))]

/-- Settles O33: a call past its deadline with no byte ends short of what it asked for, in either search. -/
theorem shortReadRestartsSearch : Obligations.ShortReadRestartsSearch := by
  intro s hact hmore hn hq hlate
  have expired : readerExpired s = true := (readerExpired_iff s).2 hlate
  have short : s.rdCount ≠ s.rdN := BitVec.ne_of_lt hmore
  refine ⟨fun hf => ?_, fun k hf => ?_⟩
  · have await : s.fsm.await = true := by obtain hf | hf | hf | hf := hf <;> simp [hf, FsmState.await]
    rw [engineTurn_of_expired_call (.inl await) hact hq expired,
      readerDone_of_short_reply (s := { s with rdActive := false }) hf (by simpa [callSize, ← hn] using short)]
  · rw [hn, hf, if_neg (by simp)] at short
    rw [engineTurn_of_expired_call (.inl (by simp [hf, FsmState.await])) hact hq expired,
      readerDone_ack (s := { s with rdActive := false }) hf, ackDone_of_short short]

end Sys2Proof.Machine

/-! # The end of a transaction, and of the ENGINE phase

Where a poll can lead, the time bound of a transaction under the eager tick (43_sensor_transaction.md R91), and a bound
on the ENGINE steps of one millisecond (70_reset_and_hazards.md R115); the obligations O58 and O59. -/

namespace Sys2Proof.Machine

section

variable {s t : State}

/-! ## Where a poll leads -/

/-- The completion of a call: RDN ends in IDLE; a call of a transaction leads on in the reply search or in the
acknowledgment match, to VERIFY only with four bytes, or enters the prompt. -/
theorem readerDone_fsm (hf : s.fsm.await = true ∨ s.fsm = .reading) (count : Byte) :
    (s.fsm = .reading ∧ (readerDone count s).fsm = .idle)
      ∨ (s.fsm.await = true ∧ ((readerDone count s).fsm.await = true ∨ (readerDone count s).fsm = .pwrcyc
        ∨ (s.fsm = .apay ∧ count = 4#8 ∧ (readerDone count s).fsm = .verify))) := by
  unfold readerDone
  cases hfsm : s.fsm with
  | reading => exact .inl ⟨rfl, rfl⟩
  | ah1 | ah2 | ah3 | apay =>
    refine .inr ⟨rfl, ?_⟩
    obtain heq | ⟨-, heq⟩ | ⟨-, heq⟩ | ⟨-, heq⟩ | ⟨hapay, hfour, heq⟩ :=
      matchDone_cases (s := s) count (by simp [hfsm])
    case inr.inr.inr.inr => simp_all
    all_goals exact .inl (by simp [heq, FsmState.await])
  | ack k =>
    refine .inr ⟨rfl, ?_⟩
    obtain heq | ⟨_, heq⟩ | ⟨-, heq⟩ := ackDone_cases count k s
    · exact .inl (by simp [heq, FsmState.await])
    · exact .inl (by simp [heq, FsmState.await])
    · exact .inr (.inl (by simp [heq]))
  | idle | sent | verify | success | timeout | pwrcyc => simp [hfsm, FsmState.await] at hf

/-- A poll leads on in AWAIT, to VERIFY or to the prompt from AWAIT, and on or to IDLE from READING. -/
theorem poll_fsm (hf : s.fsm.await = true ∨ s.fsm = .reading) (h : poll s = .next t) :
    (s.fsm = .reading ∧ (t.fsm = .reading ∨ t.fsm = .idle))
      ∨ (s.fsm.await = true ∧ (t.fsm.await = true ∨ t.fsm = .verify ∨ t.fsm = .pwrcyc)) := by
  obtain ⟨u, htake, rfl⟩ := poll_cases h
  have fsm_kept : u.fsm = s.fsm := by rw [pollTake_writes htake]
  obtain ⟨heq, -, -⟩ | ⟨heq, -⟩ := pollEnd_cases u <;> rw [heq]
  · rw [fsm_kept]
    exact hf.symm.imp (fun hr => ⟨hr, .inl hr⟩) fun ha => ⟨ha, .inl ha⟩
  · rw [← fsm_kept] at hf ⊢
    obtain ⟨hr, hidle⟩ | ⟨ha, hnext⟩ := readerDone_fsm (s := { u with rdActive := false }) hf u.rdCount
    · exact .inl ⟨hr, .inr hidle⟩
    · refine .inr ⟨ha, ?_⟩
      obtain hawait | hpwr | ⟨-, -, hverify⟩ := hnext
      · exact .inl hawait
      · exact .inr (.inr hpwr)
      · exact .inr (.inl hverify)

/-! ## The time bound -/

/-- A transaction that has been sent and has not ended. -/
def Sent (s : State) : Prop := s.fsm.await = true ∨ s.fsm = .verify

/-- The time bound of a transaction that has been sent. -/
structure Timely (s : State) : Prop where
  age_le : age s ≤ s.cfg.outerMs.toNat + s.cfg.readMs.toNat + 1
  call_le : s.rdActive = true → (elapsed s s.rdStart).toNat ≤ s.cfg.readMs.toNat + 1
  age_le_call : s.rdActive = true → age s ≤ s.cfg.outerMs.toNat + (elapsed s s.rdStart).toNat

theorem timelyOk_iff (s : State) : timelyOk s = true ↔ (Sent s → Timely s) := by
  have test : (s.fsm.await || decide (s.fsm = .verify)) = true ↔ Sent s := by simp [Sent]
  unfold timelyOk
  by_cases hsent : Sent s
  · rw [if_pos (test.2 hsent)]
    cases hact : s.rdActive with
    | false =>
      simp only [Bool.not_false, Bool.true_or, Bool.and_true, decide_eq_true_eq]
      exact ⟨fun h _ => ⟨h, by simp [hact], by simp [hact]⟩, fun h => (h hsent).age_le⟩
    | true =>
      simp only [Bool.not_true, Bool.false_or, Bool.and_eq_true, decide_eq_true_eq]
      exact ⟨fun ⟨hage, hcall, hage'⟩ _ => ⟨hage, fun _ => hcall, fun _ => hage'⟩,
        fun h => ⟨(h hsent).age_le, (h hsent).call_le hact, (h hsent).age_le_call hact⟩⟩
  · rw [if_neg (mt test.1 hsent)]
    exact ⟨fun _ h => absurd h hsent, fun _ => rfl⟩

theorem timelyOk_of_not_sent (h : ¬ Sent s) : timelyOk s = true := (timelyOk_iff s).2 fun hs => absurd hs h

/-- The bound stays where the times stay, and neither a transaction nor a call begins. -/
theorem timelyOk_of_eq (hs : timelyOk s = true) (hsent : Sent t → Sent s) (hact : t.rdActive = true → s.rdActive = true)
    (hnow : t.now = s.now) (hcfg : t.cfg = s.cfg) (htStart : t.tStart = s.tStart) (hrdStart : t.rdStart = s.rdStart) :
    timelyOk t = true := by
  refine (timelyOk_iff t).2 fun h => ?_
  have bound := (timelyOk_iff s).1 hs (hsent h)
  have same_age : age t = age s := by simp only [age, elapsed, hnow, htStart]
  have same_call : elapsed t t.rdStart = elapsed s s.rdStart := by simp only [elapsed, hnow, hrdStart]
  constructor <;> rw [hcfg]
  · exact same_age ▸ bound.age_le
  · exact fun h => same_call ▸ bound.call_le (hact h)
  · exact fun h => same_age ▸ same_call ▸ bound.age_le_call (hact h)

@[simp] theorem elapsed_now (s : State) : elapsed s s.now = 0x00000000#32 := BitVec.sub_self _

/-- A tick adds at most one to an elapsed time; the wrap takes it back to 0. -/
theorem elapsed_clockTick_le (s : State) (t0 : Word) : (elapsed (clockTick s) t0).toNat ≤ (elapsed s t0).toNat + 1 := by
  simp only [elapsed, clockTick_now]
  bv_omega

theorem elapsed_clockTick_of_lt {s : State} {t0 : Word} (h : (elapsed s t0).toNat + 1 < 2 ^ 32) :
    (elapsed (clockTick s) t0).toNat = (elapsed s t0).toNat + 1 := by
  simp only [elapsed, clockTick_now] at h ⊢
  bv_omega

/-- The ENGINE waits only in a call that has no byte and time left. -/
theorem waiting_of_disabled (h : engineEnabled s = false) (hsent : Sent s) :
    s.fsm.await = true ∧ s.rdActive = true ∧ s.rxq = [] ∧ readerExpired s = false := by
  simp only [engineEnabled, Bool.or_eq_false_iff, Bool.and_eq_false_iff, decide_eq_false_iff_not, Bool.not_eq_false',
    readerReady] at h
  obtain ⟨⟨⟨-, hverify⟩, hcall⟩, hready⟩ := h
  have hawait : s.fsm.await = true := hsent.resolve_right hverify
  have hact : s.rdActive = true := hcall.resolve_left (by simp [hawait])
  simpa [hawait, hact] using hready

/-- The CLOCK keeps the bound where it ticks only while the ENGINE waits. -/
theorem clockTick_timelyOk (hi : Inv s) (hs : timelyOk s = true) (hdisabled : engineEnabled s = false) :
    timelyOk (clockTick s) = true := by
  refine (timelyOk_iff _).2 fun hsent => ?_
  have hsent : Sent s := hsent
  have bound := (timelyOk_iff s).1 hs hsent
  obtain ⟨hawait, hact, -, hwaiting⟩ := waiting_of_disabled hdisabled hsent
  have not_reading : s.fsm ≠ .reading := fun hr => by simp [hr, FsmState.await] at hawait
  obtain ⟨-, -, -, deadline⟩ := (readerOk_of_active not_reading hact).1 hi.reader
  have call_young : (elapsed s s.rdStart).toNat ≤ s.cfg.readMs.toNat := by
    rw [← deadline]
    exact Nat.not_lt.1 (mt (readerExpired_iff s).2 (by simp [hwaiting]))
  have := s.cfg.readMs.isLt
  have call_ages := elapsed_clockTick_of_lt (s := s) (t0 := s.rdStart) (by omega)
  have age_grows : age (clockTick s) ≤ age s + 1 := elapsed_clockTick_le s s.tStart
  have := bound.age_le_call hact
  exact ⟨by simp only [clockTick_cfg]; omega, fun _ => by simp only [clockTick_cfg, clockTick_rdStart]; omega,
    fun _ => by simp only [clockTick_cfg, clockTick_rdStart]; omega⟩

/-- A poll keeps the bound: it writes no time, and leads into AWAIT or VERIFY only from AWAIT. -/
theorem poll_timelyOk (hs : timelyOk s = true) (hf : s.fsm.await = true ∨ s.fsm = .reading) (hact : s.rdActive = true)
    (h : poll s = .next t) : timelyOk t = true := by
  have kept := poll_frame h
  have only_from_await : Sent t → Sent s := by
    intro hsent
    obtain ⟨-, hreading | hidle⟩ | ⟨hawait, -⟩ := poll_fsm hf h
    · simp [Sent, hreading, FsmState.await] at hsent
    · simp [Sent, hidle, FsmState.await] at hsent
    · exact .inl hawait
  exact timelyOk_of_eq hs only_from_await (fun _ => hact) kept.now kept.cfg kept.tStart kept.rdStart

/-- The SENT step starts the clock of the transaction. -/
theorem sentStep_timelyOk (hi : Inv s) (hf : s.fsm = .sent) : timelyOk (sentStep s) = true := by
  have no_call : (sentStep s).rdActive = false :=
    hi.control.rdActive_of_not_await (by simp [hf]) (by simp [hf, FsmState.await])
  have age_zero : age (sentStep s) = 0 := congrArg BitVec.toNat (elapsed_now s)
  refine (timelyOk_iff _).2 fun _ => ⟨?_, by simp [no_call], by simp [no_call]⟩
  rw [age_zero]
  exact Nat.zero_le _

/-- The VERIFY step ends the transaction or goes on with it. -/
theorem verifyStep_timelyOk (hs : timelyOk s = true) (hf : s.fsm = .verify) : timelyOk (verifyStep s) = true := by
  obtain ⟨-, heq⟩ | ⟨-, heq⟩ := verifyStep_cases s <;> rw [heq]
  · exact timelyOk_of_not_sent (by simp [Sent, FsmState.await])
  · exact timelyOk_of_eq hs (fun _ => .inr hf) id rfl rfl rfl rfl

theorem passed_outer_iff (s : State) : passed s s.tStart s.cfg.outerMs = true ↔ s.cfg.outerMs.toNat < age s :=
  passed_iff s s.tStart s.cfg.outerMs

/-- The loop top ends a transaction past its outer deadline, and starts a call in any other. -/
theorem loopTop_timelyOk (s : State) : timelyOk (loopTop s) = true := by
  have started (t : State) (hnow : t.now = s.now) (htStart : t.tStart = s.tStart) (hcfg : t.cfg = s.cfg)
      (hnot : passed s s.tStart s.cfg.outerMs = false) :
      timelyOk (readerStart (callSize s) s.cfg.readMs t) = true := by
    have same_age : age (readerStart (callSize s) s.cfg.readMs t) = age s := by
      simp only [age, elapsed, readerStart_now, readerStart_tStart, hnow, htStart]
    have young : age s ≤ s.cfg.outerMs.toNat := Nat.not_lt.1 (mt (passed_outer_iff s).2 (by simp [hnot]))
    have call_zero : elapsed (readerStart (callSize s) s.cfg.readMs t) t.now = 0x00000000#32 := elapsed_now _
    refine (timelyOk_iff _).2 fun _ => ?_
    constructor <;>
      simp only [same_age, readerStart_cfg, readerStart_rdStart, call_zero, hcfg, BitVec.toNat_zero] <;> omega
  obtain ⟨-, heq⟩ | ⟨hnot, -, heq⟩ | ⟨hnot, -, heq⟩ := loopTop_cases s <;> rw [heq]
  · exact timelyOk_of_not_sent (by simp [Sent, FsmState.await])
  · exact started (resend s) rfl rfl rfl hnot
  · exact started s rfl rfl rfl hnot

theorem engineTurn_timelyOk (hi : Inv s) (hs : timelyOk s = true) (h : engineTurn s = .next t) : timelyOk t = true := by
  obtain ⟨-, rfl⟩ | ⟨hf, rfl⟩ | ⟨hf, rfl⟩ | ⟨-, -, rfl⟩ | ⟨hf, hact, -, hpoll⟩ := engineTurn_cases h
  · exact hs
  · exact sentStep_timelyOk hi hf
  · exact verifyStep_timelyOk hs hf
  · exact loopTop_timelyOk s
  · exact poll_timelyOk hs hf hact hpoll

/-! ## What a host write does to the FSM state -/

/-- A command leaves the block in IDLE, in SENT or in READING. -/
theorem commandBody_fsm (i : Instr) (s : State) :
    (commandBody i s).fsm = .idle ∨ (commandBody i s).fsm = .sent ∨ (commandBody i s).fsm = .reading := by
  cases i with
  | crc n | crca n | crcv n | frq a r | fra o n => exact .inl rfl
  | qrys a r | qryd a r | seta o n => exact .inr (.inl rfl)
  | rdn n d =>
    by_cases hzero : n = 0x00#8
    · subst hzero
      exact .inl rfl
    · exact .inr (.inr (by rw [commandBody, rdnBody_of_ne_zero hzero]))

/-- A host write starts a command, or it writes BUF and the error bits at most. -/
theorem hostWrite_fsm {i : Byte} {w : Word} (h : hostWrite i w s = .next t) :
    (t.fsm = .idle ∨ t.fsm = .sent ∨ t.fsm = .reading)
      ∨ t = { s with
          buf := t.buf, rxovf := t.rxovf
          errBusy := t.errBusy, errIllegal := t.errIllegal, errOperand := t.errOperand } := by
  obtain ⟨-, hcmd⟩ | ⟨-, -, -, rfl⟩ | ⟨-, -, -, rfl⟩ | rfl := hostWrite_cases h
  · obtain ⟨-, rfl⟩ | ⟨-, -, rfl⟩ | ⟨-, i, -, hexec⟩ := acceptWord_cases hcmd
    · exact .inr rfl
    · exact .inr rfl
    · obtain ⟨-, rfl⟩ | ⟨-, -, rfl⟩ | ⟨-, -, rfl⟩ := exec_cases hexec
      · exact .inr rfl
      · exact .inr rfl
      · exact .inl (commandBody_fsm i _)
  all_goals exact .inr rfl

theorem hostWrite_timelyOk {i : Byte} {w : Word} (hs : timelyOk s = true) (h : hostWrite i w s = .next t) :
    timelyOk t = true := by
  obtain hcommand | writes := hostWrite_fsm h
  · refine timelyOk_of_not_sent ?_
    obtain hf | hf | hf := hcommand <;> simp [Sent, hf, FsmState.await]
  · rw [writes]
    exact timelyOk_of_eq hs id id rfl rfl rfl rfl

/-- Every event keeps the bound where the CLOCK ticks only while the ENGINE has no step. -/
theorem runEvent_timelyOk {e : Event} (hi : Inv s) (hs : timelyOk s = true) (heager : eagerTick e s = true)
    (h : runEvent e s = .next t) : timelyOk t = true := by
  obtain ⟨i, w, rfl, hwrite⟩ | ⟨i, rfl, rfl⟩ | ⟨rfl, hturn⟩ | ⟨b, rfl, rfl⟩ | ⟨rfl, rfl⟩ | ⟨rfl, rfl⟩ | ⟨rfl, rfl⟩ :=
    runEvent_cases h
  · exact hostWrite_timelyOk hs hwrite
  · exact timelyOk_of_eq hs id id rfl rfl rfl rfl
  · exact engineTurn_timelyOk hi hs hturn
  · rw [linkDeliver_writes]
    exact timelyOk_of_eq hs id id rfl rfl rfl rfl
  · exact timelyOk_of_eq hs id id rfl rfl rfl rfl
  · exact clockTick_timelyOk hi hs (by simpa [eagerTick] using heager)
  · exact timelyOk_of_not_sent (by simp [Sent, State.resetAt, FsmState.await])

/-! ## Where a transaction ends in TIMEOUT -/

/-- The ENGINE enters TIMEOUT only at a loop top past the outer deadline (43_sensor_transaction.md R79, R90). -/
theorem engineTurn_timeout (h : engineTurn s = .next t) (hs : s.fsm ≠ .timeout) (ht : t.fsm = .timeout) :
    s.fsm.await = true ∧ passed s s.tStart s.cfg.outerMs = true := by
  obtain ⟨-, rfl⟩ | ⟨-, rfl⟩ | ⟨-, rfl⟩ | ⟨hawait, -, rfl⟩ | ⟨hf, hact, -, hpoll⟩ := engineTurn_cases h
  · exact absurd ht hs
  · rw [sentStep_eq] at ht
    dsimp only at ht
    split at ht <;> cases ht
  · obtain ⟨-, heq⟩ | ⟨-, heq⟩ := verifyStep_cases s <;> simp [heq] at ht
  · obtain ⟨hpassed, -⟩ | ⟨-, -, heq⟩ | ⟨-, -, heq⟩ := loopTop_cases s
    · exact ⟨hawait, hpassed⟩
    · exact absurd (by simpa [heq] using ht) hs
    · exact absurd (by simpa [heq] using ht) hs
  · obtain ⟨-, hidle⟩ | ⟨-, hnext⟩ := poll_fsm hf hpoll <;> simp_all [FsmState.await]

/-- Only the ENGINE enters TIMEOUT. -/
theorem runEvent_timeout {e : Event} (h : runEvent e s = .next t) (hs : s.fsm ≠ .timeout) (ht : t.fsm = .timeout) :
    e = .engine ∧ engineTurn s = .next t := by
  obtain ⟨i, w, rfl, hwrite⟩ | ⟨i, rfl, rfl⟩ | ⟨rfl, hturn⟩ | ⟨b, rfl, rfl⟩ | ⟨rfl, rfl⟩ | ⟨rfl, rfl⟩ | ⟨rfl, rfl⟩ :=
    runEvent_cases h
  · obtain hcommand | writes := hostWrite_fsm hwrite
    · simp [ht] at hcommand
    · rw [writes] at ht
      exact absurd ht hs
  · exact absurd ht hs
  · exact ⟨rfl, hturn⟩
  · rw [linkDeliver_writes] at ht
    exact absurd ht hs
  · exact absurd ht hs
  · exact absurd ht hs
  · simp [State.resetAt] at ht

/-! ## How many ENGINE steps are left -/

/-- The ENGINE steps due with no byte waiting, at most: a send or a verify and the loop top after it; a loop top; the
end of a call past its deadline and the loop top after it. -/
def turnsDue (s : State) : Nat :=
  if s.fsm = .sent ∨ s.fsm = .verify then 2
  else if s.rdActive = true then (if readerExpired s = true then 2 else 0)
  else if s.fsm.await = true then 1 else 0

/-- A bound on the ENGINE steps left: three for each waiting byte (its poll, a verify, a loop top), and those due. -/
def workLeft (s : State) : Nat := 3 * s.rxq.length + turnsDue s

theorem turnsDue_le_two (s : State) : turnsDue s ≤ 2 := by
  unfold turnsDue
  split_ifs <;> omega

theorem workLeft_le_engineFuel (s : State) : workLeft s ≤ engineFuel s := by
  have := turnsDue_le_two s
  unfold workLeft engineFuel
  omega

/-- Where no call is active and nothing is to be sent or verified, at most a loop top is due. -/
theorem turnsDue_of_no_call (hact : s.rdActive = false) (hf : s.fsm ≠ .sent ∧ s.fsm ≠ .verify) :
    turnsDue s = if s.fsm.await = true then 1 else 0 := by
  simp [turnsDue, hact, hf]

theorem turnsDue_of_call (hact : s.rdActive = true) (hf : s.fsm.await = true ∨ s.fsm = .reading) :
    turnsDue s = if readerExpired s = true then 2 else 0 := by
  have neither : s.fsm ≠ .sent ∧ s.fsm ≠ .verify := by
    constructor <;> intro e <;> simp [e, FsmState.await] at hf
  simp [turnsDue, hact, neither]

theorem readerExpired_of_start (h : s.rdStart = s.now) : readerExpired s = false := by
  rw [Bool.eq_false_iff, Ne, readerExpired_iff, h, BitVec.sub_self]
  simp

theorem turnsDue_le_one_of_no_call (hact : s.rdActive = false) (hf : s.fsm ≠ .sent ∧ s.fsm ≠ .verify) :
    turnsDue s ≤ 1 := by
  rw [turnsDue_of_no_call hact hf]
  split_ifs <;> omega

/-- A poll with a byte waiting for its call takes it. -/
theorem poll_takes_byte {b : Byte} {q : List Byte} (hmore : s.rdCount < s.rdN) (hq : s.rxq = b :: q)
    (h : poll s = .next t) : t.rxq = q := by
  obtain ⟨u, htake, rfl⟩ := poll_cases h
  rw [pollEnd_rxq]
  obtain ⟨-, hnil | hfull⟩ | ⟨b', q', v, hq', -, hstore, rfl⟩ := pollTake_cases htake
  · simp [hq] at hnil
  · exact absurd hmore hfull
  · have rest_kept : v.rxq = q' := storeByte_rxq hstore
    rw [hq] at hq'
    exact rest_kept.trans (List.cons.inj hq').2.symm

/-- A call that ends with a byte missing goes back to a state that has no send and no verify due. -/
theorem readerDone_short_fsm (hi : Inv s) (hf : s.fsm.await = true ∨ s.fsm = .reading) (hact : s.rdActive = true) :
    (readerDone s.rdCount { s with rdActive := false }).fsm ≠ .sent
      ∧ (readerDone s.rdCount { s with rdActive := false }).fsm ≠ .verify := by
  obtain ⟨-, hidle⟩ | ⟨-, hawait | hpwr | ⟨hapay, hfour, -⟩⟩ :=
    readerDone_fsm (s := { s with rdActive := false }) hf s.rdCount
  · simp [hidle]
  · constructor <;> intro e <;> simp [e, FsmState.await] at hawait
  · simp [hpwr]
  · have hapay : s.fsm = .apay := hapay
    have missing := hi.control.count_lt hact
    obtain ⟨-, -, hn, -⟩ := (readerOk_of_active (by simp [hapay]) hact).1 hi.reader
    rw [hn, callSize, if_pos hapay, hfour] at missing
    exact absurd missing (by decide)

/-- With the same bytes waiting, fewer turns due is less to do. -/
theorem workLeft_lt_of_turnsDue_lt (hq : t.rxq = s.rxq) (hdue : turnsDue t < turnsDue s) :
    workLeft t < workLeft s := by
  simp only [workLeft, hq]
  omega

/-- A poll leaves less to do: it takes a byte, or it ends a call past its deadline. -/
theorem poll_workLeft_lt (hi : Inv s) (hf : s.fsm.await = true ∨ s.fsm = .reading) (hact : s.rdActive = true)
    (hready : readerReady s = true) (h : poll s = .next t) : workLeft t < workLeft s := by
  cases hq : s.rxq with
  | cons b q =>
    have taken := poll_takes_byte (hi.control.count_lt hact) hq h
    have := turnsDue_le_two t
    simp only [workLeft, taken, hq, List.length_cons]
    omega
  | nil =>
    have expired : readerExpired s = true := (readerReady_of_no_byte hq).symm.trans hready
    obtain rfl := Host.Outcome.next.inj ((poll_of_expired_call hq expired).symm.trans h)
    have kept := readerDone_frame s.rdCount { s with rdActive := false }
    have due : turnsDue s = 2 := by rw [turnsDue_of_call hact hf, if_pos expired]
    have due_after := turnsDue_le_one_of_no_call kept.rdActive (readerDone_short_fsm hi hf hact)
    exact workLeft_lt_of_turnsDue_lt kept.rxq (by omega)

/-- The loop top leaves nothing due: a call that starts now, or a transaction that has ended. -/
theorem turnsDue_loopTop (hf : s.fsm.await = true) (hact : s.rdActive = false) : turnsDue (loopTop s) = 0 := by
  have started (t : State) (hfsm : t.fsm = s.fsm) : turnsDue (readerStart (callSize s) s.cfg.readMs t) = 0 := by
    have await_kept : (readerStart (callSize s) s.cfg.readMs t).fsm.await = true := by simpa [hfsm] using hf
    have not_expired : readerExpired (readerStart (callSize s) s.cfg.readMs t) = false := readerExpired_of_start rfl
    rw [turnsDue_of_call rfl (.inl await_kept), if_neg (by simp [not_expired])]
  obtain ⟨-, heq⟩ | ⟨-, -, heq⟩ | ⟨-, -, heq⟩ := loopTop_cases s <;> rw [heq]
  · exact turnsDue_of_no_call (s := timeoutExit s) hact (by simp)
  · exact started (resend s) rfl
  · exact started s rfl

/-- Every step of an enabled ENGINE leaves less to do. -/
theorem engineTurn_workLeft_lt (hi : Inv s) (he : engineEnabled s = true) (h : engineTurn s = .next t) :
    workLeft t < workLeft s := by
  have no_call (hf : s.fsm = .sent ∨ s.fsm = .verify) : s.rdActive = false :=
    hi.control.rdActive_of_not_await (by rintro e; simp [e] at hf)
      (by obtain hf | hf := hf <;> simp [hf, FsmState.await])
  have due (hf : s.fsm = .sent ∨ s.fsm = .verify) : turnsDue s = 2 := if_pos hf
  obtain ⟨hoff, -⟩ | ⟨hf, rfl⟩ | ⟨hf, rfl⟩ | ⟨hf, hact, rfl⟩ | ⟨hf, hact, hready, hpoll⟩ := engineTurn_cases h
  · simp [hoff] at he
  · have after := turnsDue_le_one_of_no_call (s := sentStep s) (no_call (.inl hf))
      (by simp only [sentStep_eq]; split_ifs <;> simp)
    simp only [workLeft, sentStep_rxq, due (.inl hf)]
    omega
  · have after : turnsDue (verifyStep s) ≤ 1 := by
      obtain ⟨-, heq⟩ | ⟨-, heq⟩ := verifyStep_cases s <;> rw [heq] <;>
        exact turnsDue_le_one_of_no_call (no_call (.inr hf)) (by simp)
    simp only [workLeft, verifyStep_rxq, due (.inr hf)]
    omega
  · have neither : s.fsm ≠ .sent ∧ s.fsm ≠ .verify := by constructor <;> intro e <;> simp [e, FsmState.await] at hf
    simp only [workLeft, loopTop_rxq, turnsDue_loopTop hf hact, turnsDue_of_no_call hact neither, if_pos hf]
    omega
  · exact poll_workLeft_lt hi hf hact hready hpoll

/-! ## Runs of the ENGINE -/

theorem engineRun_of_disabled (h : engineEnabled s = false) : ∀ n, engineRun n s = .next s
  | 0 => rfl
  | n + 1 => by rw [engineRun, h]; rfl

theorem engineRun_succ (he : engineEnabled s = true) (h : engineTurn s = .next t) (n : Nat) :
    engineRun (n + 1) s = engineRun n t := by
  rw [engineRun, if_pos he, h]

/-- With fuel for the work left the ENGINE comes to rest, and `now` stays. -/
theorem engineRun_comes_to_rest : ∀ (n : Nat) (s : State), Inv s → workLeft s ≤ n →
    ∃ t, engineRun n s = .next t ∧ engineEnabled t = false ∧ t.now = s.now := by
  intro n
  induction n with
  | zero =>
    intro s hi hwork
    cases he : engineEnabled s with
    | false => exact ⟨s, rfl, he, rfl⟩
    | true =>
      obtain ⟨t, hturn⟩ := engineTurn_answers hi
      have := engineTurn_workLeft_lt hi he hturn
      omega
  | succ n ih =>
    intro s hi hwork
    cases he : engineEnabled s with
    | false => exact ⟨s, engineRun_of_disabled he _, he, rfl⟩
    | true =>
      obtain ⟨t, hturn⟩ := engineTurn_answers hi
      have := engineTurn_workLeft_lt hi he hturn
      obtain ⟨u, hrun, hrest, hnow⟩ := ih t (engineTurn_inv hi hturn) (by omega)
      exact ⟨u, (engineRun_succ he hturn n).trans hrun, hrest, hnow.trans (engineTurn_frame hturn).now⟩

end

/-! ## The obligations -/

/-- Settles O58: every event keeps the bound, and TIMEOUT is entered at a loop top past the outer deadline, where the
bound still holds. -/
theorem transactionTimeBound : Obligations.TransactionTimeBound := by
  intro s t e hi hs heager h
  refine ⟨runEvent_timelyOk hi hs heager h, fun hnot ht => ?_⟩
  obtain ⟨-, hturn⟩ := runEvent_timeout h hnot ht
  obtain ⟨hawait, hpassed⟩ := engineTurn_timeout hturn hnot ht
  exact ⟨(passed_outer_iff s).1 hpassed, ((timelyOk_iff s).1 hs (.inl hawait)).age_le⟩

/-- Settles O59: the work left is within the fuel, and every ENGINE step leaves less. -/
theorem engineComesToRest : Obligations.EngineComesToRest :=
  fun s hi => engineRun_comes_to_rest (engineFuel s) s hi (workLeft_le_engineFuel s)

end Sys2Proof.Machine

/-! # The host register space, deliveries, ticks and RESET

What each readable index gives (10_state.md R18 to R20), a write to BUF (R25), any number of deliveries (20_memory.md
R36) and of ticks (10_state.md R16), and the reset column (70_reset_and_hazards.md R112); the obligations O42 to O44 and
O47 to O49. -/

namespace Sys2Proof.Machine

section

variable {s : State}

/-! ## STATUS as a number -/

/-- A bit put above all the bits of a word adds its place value. -/
theorem or_bitAt_toNat {x : Word} {v j : Nat} (b : Bool) (k : Nat) (hx : x.toNat = v ∧ v < 2 ^ j) (hj : j ≤ k)
    (hk : k < 32) : (x ||| bitAt b k).toNat = v + 2 ^ k * b.toNat ∧ v + 2 ^ k * b.toNat < 2 ^ (k + 1) := by
  obtain ⟨hv, hlt⟩ := hx
  have below : v < 2 ^ k := hlt.trans_le (Nat.pow_le_pow_right (by decide) hj)
  have place : (bitAt b k).toNat = 2 ^ k * b.toNat := by
    cases b with
    | false => simp [bitAt]
    | true =>
      rw [bitAt, if_pos rfl, ← BitVec.twoPow_eq, BitVec.toNat_twoPow_of_lt hk]
      simp
  constructor
  · rw [BitVec.toNat_or, place, hv, Nat.or_comm, ← Nat.two_pow_add_eq_or_of_lt below, Nat.add_comm]
  · have := b.toNat_le
    have := Nat.mul_le_mul_left (2 ^ k) this
    rw [Nat.pow_succ]
    omega

/-- STATUS as the sum of its flags at their places (R19). -/
theorem statusWord_toNat (s : State) :
    (statusWord s).toNat = s.busy.toNat + 2 ^ 1 * s.done.toNat + 2 ^ 2 * s.ok.toNat + 2 ^ 3 * s.tmo.toNat
      + 2 ^ 4 * s.pwr.toNat + 2 ^ 5 * s.short.toNat + 2 ^ 8 * s.errBusy.toNat + 2 ^ 9 * s.errIllegal.toNat
      + 2 ^ 10 * s.errOperand.toNat + 2 ^ 11 * s.rxovf.toNat := by
  have to_busy : (bitAt s.busy 0).toNat = s.busy.toNat ∧ s.busy.toNat < 2 ^ 1 := by cases s.busy <;> decide
  have to_done := or_bitAt_toNat s.done 1 to_busy (by decide) (by decide)
  have to_ok := or_bitAt_toNat s.ok 2 to_done (by decide) (by decide)
  have to_tmo := or_bitAt_toNat s.tmo 3 to_ok (by decide) (by decide)
  have to_pwr := or_bitAt_toNat s.pwr 4 to_tmo (by decide) (by decide)
  have to_short := or_bitAt_toNat s.short 5 to_pwr (by decide) (by decide)
  have to_errBusy := or_bitAt_toNat s.errBusy 8 to_short (by decide) (by decide)
  have to_errIllegal := or_bitAt_toNat s.errIllegal 9 to_errBusy (by decide) (by decide)
  have to_errOperand := or_bitAt_toNat s.errOperand 10 to_errIllegal (by decide) (by decide)
  exact (or_bitAt_toNat s.rxovf 11 to_errOperand (by decide) (by decide)).1

/-! ## The indices of TXF, RXF and BUF -/

theorem index_toNat {n : Nat} (h : n < 256) : (BitVec.ofNat 8 n).toNat = n := Nat.mod_eq_of_lt h

theorem readReg_txf {k : Nat} (h : k < 11) : readReg s (BitVec.ofNat 8 (0x10 + k)) = s.txf[k].setWidth 32 := by
  have index := index_toNat (n := 0x10 + k) (by omega)
  have not_scalar : ∀ n ≤ 0x0D, 0x10 + k ≠ n := by omega
  have in_txf : 0x10 ≤ 0x10 + k ∧ 0x10 + k ≤ 0x1A := by omega
  have offset : 0x10 + k - 0x10 = k := by omega
  simp only [readReg, index, not_scalar, in_txf, offset, if_false, Nat.reduceLeDiff]
  simp [h]

theorem readReg_rxf {k : Nat} (h : k < 7) : readReg s (BitVec.ofNat 8 (0x20 + k)) = s.rxf[k].setWidth 32 := by
  have index := index_toNat (n := 0x20 + k) (by omega)
  have not_scalar : ∀ n ≤ 0x0D, 0x20 + k ≠ n := by omega
  have not_txf : ¬ (0x10 ≤ 0x20 + k ∧ 0x20 + k ≤ 0x1A) := by omega
  have in_rxf : 0x20 ≤ 0x20 + k ∧ 0x20 + k ≤ 0x26 := by omega
  have offset : 0x20 + k - 0x20 = k := by omega
  simp only [readReg, index, not_scalar, not_txf, in_rxf, offset, if_false, Nat.reduceLeDiff]
  simp [h]

theorem bufSize_le_of_legal {c : Params} (h : c.legal = true) : c.bufSize ≤ 64 := by
  simp only [Params.legal, Bool.and_eq_true, decide_eq_true_eq] at h
  exact h.1.2

theorem readReg_buf (hlegal : s.cfg.legal = true) {k : Nat} (h : k < s.cfg.bufSize) :
    readReg s (BitVec.ofNat 8 (0x40 + k)) = (s.buf.read k).setWidth 32 := by
  have := bufSize_le_of_legal hlegal
  have index := index_toNat (n := 0x40 + k) (by omega)
  have not_scalar : ∀ n ≤ 0x0D, 0x40 + k ≠ n := by omega
  have not_txf : ¬ (0x10 ≤ 0x40 + k ∧ 0x40 + k ≤ 0x1A) := by omega
  have not_rxf : ¬ (0x20 ≤ 0x40 + k ∧ 0x40 + k ≤ 0x26) := by omega
  have in_buf : 0x40 ≤ 0x40 + k ∧ 0x40 + k < 0x40 + s.cfg.bufSize := by omega
  have offset : 0x40 + k - 0x40 = k := by omega
  simp only [readReg, index, not_scalar, not_txf, not_rxf, offset, bufByte, if_false, Nat.reduceLeDiff]
  exact if_pos in_buf

theorem byte_in_word_toNat (b : Byte) : (b.setWidth 32).toNat = b.toNat := BitVec.toNat_setWidth_of_le (by decide)

/-- A host write to BUF on a block that rests stores the word's low byte (R25). -/
theorem hostWrite_buf_of_rest (hrest : s.busy = false) (hlegal : s.cfg.legal = true) {k : Nat} (h : k < s.cfg.bufSize)
    (w : Word) : hostWrite (BitVec.ofNat 8 (0x40 + k)) w s = .next (bufStore k (w.extractLsb' 0 8) s) := by
  have := bufSize_le_of_legal hlegal
  have index := index_toNat (n := 0x40 + k) (by omega)
  have offset : 0x40 + k - 0x40 = k := by omega
  rw [hostWrite, index, if_neg (by omega), if_pos (by omega), hrest, offset]
  rfl

/-! ## Ticks -/

theorem runEvents_ticks (n : Nat) (s : State) :
    runEvents (List.replicate n .tick) s = .next { s with now := s.now + BitVec.ofNat 32 n } := by
  induction n generalizing s with
  | zero => simp [runEvents]
  | succ n ih =>
    have one_more : s.now + 1#32 + BitVec.ofNat 32 n = s.now + BitVec.ofNat 32 (n + 1) := by
      rw [BitVec.add_assoc, BitVec.ofNat_add, BitVec.add_comm (1#32)]
    rw [List.replicate_succ, runEvents, runEvent]
    simp only [ih, clockTick, one_more]

end

/-! ## The obligations -/

/-- Settles O42: index by index. -/
theorem registerMap : Obligations.RegisterMap := by
  intro s hlegal
  refine ⟨rfl, statusWord_toNat s, stateWord_toNat s, rfl, ?crc, byte_in_word_toNat _,
    ?resends, rfl, rfl, rfl, ?txlen, rfl,
    fun hlevel => Nat.mod_eq_of_lt hlevel, ?rdstat, fun k h => ?txf, fun k h => ?rxf, fun k h => ?buf,
    fun i hi => readReg_reserved s hi⟩
  case crc => exact (append_toNat_eq_add s.crcRaw s.crcOut).trans (by omega)
  case resends => exact (BitVec.toNat_setWidth_of_le (by decide) : (s.resends.setWidth 32).toNat = s.resends.toNat)
  case txlen => exact (BitVec.toNat_setWidth_of_le (by decide) : (s.txlen.setWidth 32).toNat = s.txlen.toNat)
  case rdstat =>
    have word : readReg s 0x0D#8 = s.rdDl ++ s.rdCount ++ s.rdN := rfl
    simp only [word, append_toNat_eq_add]
    omega
  case txf => rw [readReg_txf h, byte_in_word_toNat]
  case rxf => rw [readReg_rxf h, byte_in_word_toNat]
  case buf => rw [readReg_buf hlegal h, byte_in_word_toNat]

/-- Settles O43: a host read writes the read data alone. -/
theorem hostReadHasNoSideEffect : Obligations.HostReadHasNoSideEffect := fun _ _ => rfl

/-- Settles O44: the store of the low byte, and the busy refusal. -/
theorem bufWrite : Obligations.BufWrite := by
  intro s k w hlegal hk hwf
  have := bufSize_le_of_legal hlegal
  have index := index_toNat (n := 0x40 + k) (by omega)
  have low_byte : (w.extractLsb' 0 8).toNat = w.toNat % 256 := by simp
  refine ⟨fun hbusy => hostWrite_buf_of_busy w hbusy (by omega) (by omega), fun hrest =>
    ⟨s.buf.write k (w.extractLsb' 0 8), Memory.write_wf _ _ _ hwf, fun a => ?_,
      hostWrite_buf_of_rest hrest hlegal hk w, ?_⟩⟩
  · rw [Memory.read_write _ _ _ _ hwf, apply_ite BitVec.toNat, low_byte]
  · have read_back := readReg_buf (s := bufStore k (w.extractLsb' 0 8) s) hlegal hk
    rw [bufStore_buf, Memory.read_write_same _ _ _ hwf] at read_back
    exact (congrArg BitVec.toNat read_back).trans ((byte_in_word_toNat _).trans low_byte)

/-- Settles O47: delivery by delivery; a byte that finds RXQ full is lost, and so are all after it. -/
theorem fifoKeepsOrder : Obligations.FifoKeepsOrder := by
  intro bs
  induction bs with
  | nil =>
    intro s hdepth
    have not_over : ¬ s.cfg.rxDepth < s.rxq.length := Nat.not_lt.2 hdepth
    simp [runEvents, List.take_of_length_le hdepth, not_over]
  | cons b bs ih =>
    intro s hdepth
    rw [List.map_cons, runEvents, runEvent]
    by_cases hroom : s.rxq.length < s.cfg.rxDepth
    · have fits : (s.rxq ++ [b]).length ≤ s.cfg.rxDepth := by simpa using hroom
      simp only [linkDeliver_of_room b hroom]
      rw [ih _ fits]
      simp [Nat.add_assoc, Nat.add_comm 1]
    · have full : s.cfg.rxDepth ≤ s.rxq.length := Nat.not_lt.1 hroom
      have overflows : s.cfg.rxDepth < s.rxq.length + (bs.length + 1) := by omega
      simp only [linkDeliver_of_full b full]
      rw [ih { s with rxovf := true } hdepth]
      simp [List.take_append_of_le_length full, List.take_of_length_le hdepth, overflows]

/-- Settles O48: `now` after n ticks; an elapsed time is a difference, so the wrap of `now` does not enter. -/
theorem clockTicks : Obligations.ClockTicks := by
  intro n s
  refine ⟨_, runEvents_ticks n s, rfl, by simp, fun t0 hspan => ?_⟩
  simp only [elapsed] at hspan ⊢
  bv_omega

/-- Settles O49: the reset column, field by field. (The name `resetStep` is the model's function.) -/
theorem resetStepObligation : Obligations.ResetStep := by
  intro s
  have txf_zero : ∀ k (h : k < 11), (resetStep s).txf[k] = 0x00#8 := fun k h =>
    Vector.getElem_replicate (n := 11) (a := 0x00#8) h
  have rxf_zero : ∀ k (h : k < 7), (resetStep s).rxf[k] = 0x00#8 := fun k h =>
    Vector.getElem_replicate (n := 7) (a := 0x00#8) h
  have status_zero : readReg (resetStep s) 0x01#8 = 0x00000000#32 := by
    apply BitVec.eq_of_toNat_eq
    simp [statusWord_toNat, State.resetAt, State.busy, FsmState.busy]
  have state_zero : readReg (resetStep s) 0x02#8 = 0x00000000#32 := by
    apply BitVec.eq_of_toNat_eq
    simp [stateWord_toNat, State.resetAt, FsmState.code]
  exact ⟨resetStep s, rfl, rfl, rfl, rfl, rfl, rfl, rfl, rfl, rfl, rfl, rfl, rfl, rfl, rfl, rfl, rfl, rfl, rfl, rfl,
    rfl, rfl, rfl, rfl, rfl, rfl, rfl, txf_zero, rfl, rxf_zero, fun _ => rfl, rfl, rfl, rfl, rfl, status_zero,
    state_zero, rfl⟩

end Sys2Proof.Machine

/-! # Quiet runs of the eager schedule

Milliseconds with no host step and no delivery (70_reset_and_hazards.md R115): a reader call that waits until it is past
its deadline, and a transaction that nobody answers (42_timed_reader.md R72, 43_sensor_transaction.md R79, R91); the
obligations O25 and O60. -/

namespace Sys2Proof.Machine

section

variable {s t u : State}

/-! ## ENGINE phases -/

theorem engineEnabled_of_sent (h : s.fsm = .sent) : engineEnabled s = true := by
  simp [engineEnabled, h]

theorem engineEnabled_of_verify (h : s.fsm = .verify) : engineEnabled s = true := by
  simp [engineEnabled, h]

theorem engineEnabled_of_await (h : s.fsm.await = true) (hact : s.rdActive = false) : engineEnabled s = true := by
  simp [engineEnabled, h, hact]

theorem engineEnabled_of_ready (hf : s.fsm.await = true ∨ s.fsm = .reading) (hact : s.rdActive = true)
    (h : readerReady s = true) : engineEnabled s = true := by
  simp [engineEnabled, hf, hact, h]

theorem callSize_of_ne_apay (h : s.fsm ≠ .apay) : callSize s = 1#8 := if_neg h

/-- A loop top before both deadlines starts a call (43_sensor_transaction.md R79). -/
theorem engineTurn_of_call (hf : s.fsm.await = true) (hact : s.rdActive = false)
    (houter : ¬ s.cfg.outerMs.toNat < (s.now - s.tStart).toNat)
    (hresend : ¬ s.cfg.resendMs.toNat < (s.now - s.tLast).toNat) :
    engineTurn s = .next (readerStart (callSize s) s.cfg.readMs s) := by
  rw [← passed_iff] at houter hresend
  rw [engineTurn_of_await hf hact]
  obtain ⟨h, -⟩ | ⟨-, h, -⟩ | ⟨-, -, heq⟩ := loopTop_cases s
  · exact absurd h houter
  · exact absurd h hresend
  · rw [heq]

/-- A loop top past the resend interval alone sends the frame again first (R79, R81). -/
theorem engineTurn_of_resend (hf : s.fsm.await = true) (hact : s.rdActive = false)
    (houter : ¬ s.cfg.outerMs.toNat < (s.now - s.tStart).toNat)
    (hresend : s.cfg.resendMs.toNat < (s.now - s.tLast).toNat) :
    engineTurn s = .next (readerStart (callSize s) s.cfg.readMs (resend s)) := by
  rw [← passed_iff] at houter hresend
  rw [engineTurn_of_await hf hact]
  obtain ⟨h, -⟩ | ⟨-, -, heq⟩ | ⟨-, h, -⟩ := loopTop_cases s
  · exact absurd h houter
  · rw [heq]
  · simp [hresend] at h

/-! ## Quiet milliseconds -/

theorem eagerMs_quiet (h : engineRun (engineFuel s) s = .next u) : eagerMs [] [] s = .next (clockTick u) := by
  have no_input : runEvents ([] ++ [].map Event.linkByte) s = .next s := rfl
  simp only [eagerMs, no_input, h]

theorem eagerQuiet_succ (h : engineRun (engineFuel s) s = .next u) (n : Nat) :
    eagerQuiet (n + 1) s = eagerQuiet n (clockTick u) := by
  simp only [eagerQuiet, eagerMs_quiet h]

/-- The first ENGINE phase of a quiet run may be taken before it. -/
theorem eagerQuiet_of_engineRun (h : engineRun (engineFuel s) s = .next u) (hrest : engineEnabled u = false) (n : Nat) :
    eagerQuiet (n + 1) s = eagerQuiet (n + 1) u := by
  rw [eagerQuiet_succ h, eagerQuiet_succ (engineRun_of_disabled hrest _)]

theorem eagerQuiet_add (n : Nat) : ∀ (m : Nat) (s : State), eagerQuiet m s = .next t →
    eagerQuiet (m + n) s = eagerQuiet n t
  | 0, s, h => by
    obtain rfl := Host.Outcome.next.inj h
    rw [Nat.zero_add]
  | m + 1, s, h => by
    rw [Nat.add_right_comm, eagerQuiet]
    rw [eagerQuiet] at h
    cases hms : eagerMs [] [] s with
    | next v =>
      rw [hms] at h
      exact eagerQuiet_add n m v h
    | fault f => simp [hms] at h
    | refused r => simp [hms] at h

/-- While the ENGINE has no step, quiet milliseconds only pass. -/
theorem eagerQuiet_of_waiting (n : Nat)
    (h : ∀ j < n, engineEnabled { s with now := s.now + BitVec.ofNat 32 j } = false) :
    eagerQuiet n s = .next { s with now := s.now + BitVec.ofNat 32 n } := by
  induction n with
  | zero => simp [eagerQuiet]
  | succ n ih =>
    have before := ih fun j hj => h j (by omega)
    rw [eagerQuiet_add 1 n s before, eagerQuiet_succ (engineRun_of_disabled (h n (by omega)) _)]
    simp only [eagerQuiet, clockTick, BitVec.add_assoc, BitVec.ofNat_add]

theorem elapsed_add_toNat (a : Word) {n : Nat} (h : n < 2 ^ 32) : (a + BitVec.ofNat 32 n - a).toNat = n := by
  bv_omega

/-- A reader call that starts now and sees no byte waits for RD_DL + 1 ms (R72). -/
theorem eagerQuiet_of_silent_call (hf : s.fsm.await = true ∨ s.fsm = .reading) (hact : s.rdActive = true)
    (hq : s.rxq = []) (hstart : s.rdStart = s.now) :
    eagerQuiet (s.rdDl.toNat + 1) s = .next { s with now := s.now + BitVec.ofNat 32 (s.rdDl.toNat + 1) } := by
  refine eagerQuiet_of_waiting _ fun j hj => ?_
  have := s.rdDl.isLt
  have waited := elapsed_add_toNat s.now (n := j) (by omega)
  have in_time : readerExpired { s with now := s.now + BitVec.ofNat 32 j } = false := by
    rw [Bool.eq_false_iff, Ne, readerExpired_iff, hstart, waited]
    dsimp only
    omega
  exact engineEnabled_of_open_call (s := { s with now := _ }) hf hact hq in_time

end

/-- Settles O25: the call waits out its deadline, and the poll after it ends the call. -/
theorem silentRdnEndsAfterItsDeadline : Obligations.SilentRdnEndsAfterItsDeadline := by
  intro s hf hact hmore hq hstart
  have := s.rdDl.isLt
  have waited := elapsed_add_toNat s.now (n := s.rdDl.toNat + 1) (by omega)
  have late : s.rdDl.toNat < (s.now + BitVec.ofNat 32 (s.rdDl.toNat + 1) - s.rdStart).toNat := by
    rw [hstart, waited]
    omega
  have turn := (rdnPollAtDeadline { s with now := s.now + BitVec.ofNat 32 (s.rdDl.toNat + 1) } hf hact hmore hq).1 late
  exact ⟨_, _, eagerQuiet_of_silent_call (.inr hf) hact hq hstart, by rw [hstart], turn, rfl, rfl, rfl, rfl, rfl⟩

/-! ## A transaction that nobody answers -/

section

variable (s : State)

/-- The first matching state of the transaction in CMD (43_sensor_transaction.md R78). -/
def firstMatch : FsmState := if opField s.cmd = 0xA#4 then .ack 0 else .ah1

/-- The frames of a transaction sent at `now` and every 101 ms after it, the first `n` of them. -/
def resentFrames (n : Nat) : List TxFrame :=
  (List.range n).map fun k =>
    { time := s.now + BitVec.ofNat 32 (101 * k), bytes := s.txf.toList.take s.txlen.toNat }

/-- The transaction sent from `s`, `ms` milliseconds later, in the call it started after its `k`-th resend. -/
def unanswered (k ms : Nat) : State :=
  { s with
    fsm := firstMatch s, tStart := s.now, tLast := s.now + BitVec.ofNat 32 (101 * k), resends := BitVec.ofNat 16 k
    rdActive := true, rdStart := s.now + BitVec.ofNat 32 (101 * k), rdN := 1#8, rdCount := 0#8, rdDl := 100#16
    tx := s.tx ++ resentFrames s (k + 1), now := s.now + BitVec.ofNat 32 ms }

/-- The hypotheses of a silent transaction, with the default deadlines of 00_scope.md R6. -/
structure Silent : Prop where
  no_byte : s.rxq = []
  readMs : s.cfg.readMs = 100#16
  resendMs : s.cfg.resendMs = 100#32
  outerMs : s.cfg.outerMs = 1000#32

variable {s}

theorem firstMatch_await : (firstMatch s).await = true := by
  unfold firstMatch
  split <;> rfl

theorem firstMatch_ne_apay : firstMatch s ≠ .apay := by
  unfold firstMatch
  split <;> simp

theorem engineRun_of_two_turns {v w : State} (h1 : engineTurn s = .next v) (e1 : engineEnabled s = true)
    (h2 : engineTurn v = .next w) (e2 : engineEnabled v = true) (hrest : engineEnabled w = false) (n : Nat) :
    engineRun (n + 2) s = .next w := by
  rw [engineRun_succ e1 h1, engineRun_succ e2 h2, engineRun_of_disabled hrest]

/-- With RXQ empty the fuel of a millisecond is four steps. -/
theorem engineFuel_of_no_byte (h : s.rxq = []) : engineFuel s = 2 + 2 := by simp [engineFuel, h]

/-- In the millisecond of its start a call with no byte gives the ENGINE no step. -/
theorem unanswered_rests (h : Silent s) (k : Nat) : engineEnabled (unanswered s k (101 * k)) = false :=
  engineEnabled_of_open_call (.inl firstMatch_await) rfl h.no_byte (readerExpired_of_start rfl)

/-- The first call starts with the send: no deadline has passed. -/
theorem engineRun_sent (h : Silent s) (hf : s.fsm = .sent) (hact : s.rdActive = false) (hresends : s.resends = 0#16) :
    engineRun (engineFuel s) s = .next (unanswered s 0 (101 * 0)) := by
  have await : (sentStep s).fsm.await = true := firstMatch_await (s := s)
  have no_time_passed : (s.now - s.now).toNat = 0 := by simp
  have call := engineTurn_of_call (s := sentStep s) await hact (no_time_passed ▸ Nat.not_lt_zero _)
    (no_time_passed ▸ Nat.not_lt_zero _)
  have same : readerStart 1#8 s.cfg.readMs (sentStep s) = unanswered s 0 (101 * 0) := by
    simp [readerStart, unanswered, sentStep, transmit, firstMatch, resentFrames, h.readMs, hresends]
  rw [callSize_of_ne_apay (s := sentStep s) (firstMatch_ne_apay (s := s)), (sentStep_frame s).cfg, same] at call
  rw [engineFuel_of_no_byte h.no_byte]
  exact engineRun_of_two_turns (engineTurn_of_sent hf) (engineEnabled_of_sent hf) call
    (engineEnabled_of_await await hact) (unanswered_rests h 0) 2

/-- A call of the first matching state that ends with no byte leaves the search where it is. -/
theorem readerDone_firstMatch {v : State} (hf : v.fsm = firstMatch s) : readerDone 0#8 v = v := by
  have same (f : FsmState) (h : v.fsm = f) : { v with fsm := f } = v := by rw [← h]
  by_cases hseta : opField s.cmd = 0xA#4
  · have ack : v.fsm = .ack 0 := hf.trans (if_pos hseta)
    rw [readerDone_ack ack, ackDone_of_short (by decide), same _ ack]
  · have search : v.fsm = .ah1 := hf.trans (if_neg hseta)
    rw [readerDone_of_short_reply (.inl search) (by simp [callSize, search]), same _ search]

/-- 101 ms after its start a call with no byte is past its deadline, and ends. -/
theorem unanswered_call_ends (h : Silent s) (k : Nat) :
    engineTurn (unanswered s k (101 * (k + 1))) = .next { unanswered s k (101 * (k + 1)) with rdActive := false }
      ∧ engineEnabled (unanswered s k (101 * (k + 1))) = true := by
  have expired : readerExpired (unanswered s k (101 * (k + 1))) = true := by
    have waited : (s.now + BitVec.ofNat 32 (101 * (k + 1)) - (s.now + BitVec.ofNat 32 (101 * k))).toNat = 101 := by
      bv_omega
    rw [readerExpired_iff]
    simp only [unanswered, waited]
    decide
  have ready := (readerReady_of_no_byte (s := unanswered s k (101 * (k + 1))) h.no_byte).trans expired
  constructor
  · rw [engineTurn_of_expired_call (s := unanswered s k (101 * (k + 1))) (.inl firstMatch_await) rfl h.no_byte expired]
    exact congrArg _ (readerDone_firstMatch rfl)
  · exact engineEnabled_of_ready (.inl firstMatch_await) rfl ready

/-- Within the outer deadline the end of a call is followed by a resend and the next call. -/
theorem engineRun_resend (h : Silent s) {k : Nat} (hk : k < 9) :
    engineRun (engineFuel (unanswered s k (101 * (k + 1)))) (unanswered s k (101 * (k + 1)))
      = .next (unanswered s (k + 1) (101 * (k + 1))) := by
  obtain ⟨ends, enabled⟩ := unanswered_call_ends h k
  have within_outer : ¬ s.cfg.outerMs.toNat < (s.now + BitVec.ofNat 32 (101 * (k + 1)) - s.now).toNat := by
    rw [h.outerMs, elapsed_add_toNat _ (by omega)]
    simp only [BitVec.toNat_ofNat]
    omega
  have past_resend : s.cfg.resendMs.toNat
      < (s.now + BitVec.ofNat 32 (101 * (k + 1)) - (s.now + BitVec.ofNat 32 (101 * k))).toNat := by
    rw [h.resendMs]
    bv_omega
  have call := engineTurn_of_resend (s := { unanswered s k (101 * (k + 1)) with rdActive := false })
    firstMatch_await rfl within_outer past_resend
  have same : readerStart 1#8 s.cfg.readMs (resend { unanswered s k (101 * (k + 1)) with rdActive := false })
      = unanswered s (k + 1) (101 * (k + 1)) := by
    simp [readerStart, resend, transmit, unanswered, resentFrames, List.range_succ, BitVec.ofNat_add, h.readMs]
  rw [callSize_of_ne_apay (s := { unanswered s k _ with rdActive := false }) firstMatch_ne_apay] at call
  rw [engineFuel_of_no_byte (s := unanswered s k (101 * (k + 1))) h.no_byte]
  exact engineRun_of_two_turns ends enabled (call.trans (congrArg _ same)) (engineEnabled_of_await firstMatch_await rfl)
    (unanswered_rests h _) 2

/-- 101 ms after a call's start, with nothing in between. -/
theorem eagerQuiet_unanswered (h : Silent s) (k : Nat) :
    eagerQuiet 101 (unanswered s k (101 * k)) = .next (unanswered s k (101 * (k + 1))) := by
  have run := eagerQuiet_of_silent_call (s := unanswered s k (101 * k)) (.inl firstMatch_await) rfl h.no_byte rfl
  have later : s.now + BitVec.ofNat 32 (101 * k) + BitVec.ofNat 32 101 = s.now + BitVec.ofNat 32 (101 * (k + 1)) := by
    rw [BitVec.add_assoc, ← BitVec.ofNat_add]
    rfl
  refine run.trans (congrArg Host.Outcome.next ?_)
  exact congrArg (fun now => { unanswered s k (101 * k) with now := now }) later

/-- The calls of the first `k + 1` periods of 101 ms. -/
theorem eagerQuiet_periods (h : Silent s) (hf : s.fsm = .sent) (hact : s.rdActive = false)
    (hresends : s.resends = 0#16) : ∀ k ≤ 9, eagerQuiet (101 * (k + 1)) s = .next (unanswered s k (101 * (k + 1))) := by
  intro k
  induction k with
  | zero =>
    intro _
    rw [Nat.mul_one, eagerQuiet_of_engineRun (engineRun_sent h hf hact hresends) (unanswered_rests h 0)]
    exact eagerQuiet_unanswered h 0
  | succ k ih =>
    intro hk
    rw [Nat.mul_succ, eagerQuiet_add 101 _ s (ih (by omega)),
      eagerQuiet_of_engineRun (engineRun_resend h (by omega)) (unanswered_rests h (k + 1))]
    exact eagerQuiet_unanswered h (k + 1)

/-- 1010 ms after the send the loop top finds the outer deadline passed. -/
theorem engineRun_timeout (h : Silent s) :
    ∃ r, engineRun (engineFuel (unanswered s 9 1010)) (unanswered s 9 1010) = .next { unanswered s 9 1010 with
      rdActive := false, result := r, ok := false, tmo := true, done := true, fsm := .timeout } := by
  obtain ⟨ends, enabled⟩ := unanswered_call_ends h 9
  have past_outer : s.cfg.outerMs.toNat < (s.now + BitVec.ofNat 32 1010 - s.now).toNat := by
    rw [h.outerMs, elapsed_add_toNat _ (by omega)]
    decide
  obtain ⟨exit, -⟩ := (loopTopObligation { unanswered s 9 1010 with rdActive := false } firstMatch_await rfl).1
    past_outer
  refine ⟨timeoutValue s, ?_⟩
  rw [engineFuel_of_no_byte (s := unanswered s 9 1010) h.no_byte]
  exact engineRun_of_two_turns ends enabled exit (engineEnabled_of_await firstMatch_await rfl)
    (engineEnabled_of_rest rfl) 2

end

/-- Settles O60: ten periods of 101 ms, each with a frame at its start, and the timeout at the end of the tenth. -/
theorem silentTransactionTimesOutAt1010 : Obligations.SilentTransactionTimesOutAt1010 := by
  intro s hf hact hq hresends hread hresend houter
  have silent : Silent s := ⟨hq, hread, hresend, houter⟩
  obtain ⟨r, exit⟩ := engineRun_timeout silent
  have busy : (unanswered s 9 1010).busy = true := busy_of_await firstMatch_await
  have periods := eagerQuiet_periods silent hf hact hresends 9 (by decide)
  exact ⟨_, _, periods, busy, rfl, exit, rfl, rfl, rfl, rfl, rfl, rfl, rfl⟩

end Sys2Proof.Machine

/-! # Replies and echoes within one millisecond

A transaction whose bytes already wait in RXQ runs on without a tick: its state is known after every byte
(43_sensor_transaction.md R78 to R89, 44_address_assigner.md R93 to R95); the obligations O36, O37 and O38. -/

namespace Sys2Proof.Machine

section

variable {s : State} {b : Byte} {q : List Byte} {r : Vector Byte 7} {c : Byte}

/-- The transaction sent from `s`, in the same millisecond: in FSM state `f` with the call it started there, `q` in RXQ,
`r` in RXF and `c` in CH. -/
def listening (s : State) (f : FsmState) (q : List Byte) (r : Vector Byte 7) (c : Byte) : State :=
  { s with
    fsm := f, rxq := q, rxf := r, ch := c, tStart := s.now, tLast := s.now
    rdActive := true, rdStart := s.now, rdN := if f = .apay then 4#8 else 1#8, rdCount := 0#8, rdDl := s.cfg.readMs
    tx := (transmit s).tx }

/-- The same with its call over after a byte, before the next loop top. -/
def called (s : State) (f : FsmState) (n k : Byte) (q : List Byte) (r : Vector Byte 7) (c : Byte) : State :=
  { listening s f q r c with rdActive := false, rdN := n, rdCount := k }

theorem engineRun_two {v w : State} (h1 : engineTurn s = .next v) (e1 : engineEnabled s = true)
    (h2 : engineTurn v = .next w) (e2 : engineEnabled v = true) (m : Nat) :
    engineRun (m + 2) s = engineRun m w := by
  rw [engineRun_succ e1 h1, engineRun_succ e2 h2]

/-! ## The loop top after a byte, and after the send -/

/-- In the millisecond of the send no deadline has passed, so a loop top starts the next call. -/
theorem engineTurn_called {f : FsmState} (hf : f.await = true) (n k : Byte) :
    engineTurn (called s f n k q r c) = .next (listening s f q r c) := by
  have no_time_passed : (s.now - s.now).toNat = 0 := by simp
  exact engineTurn_of_call (s := called s f n k q r c) hf rfl (no_time_passed ▸ Nat.not_lt_zero _)
    (no_time_passed ▸ Nat.not_lt_zero _)

theorem engineRun_from_sent (hf : s.fsm = .sent) (hact : s.rdActive = false) (m : Nat) :
    engineRun (m + 2) s = engineRun m (listening s (firstMatch s) s.rxq s.rxf s.ch) := by
  have await := firstMatch_await (s := s)
  have sent : sentStep s = { called s (firstMatch s) s.rdN s.rdCount s.rxq s.rxf s.ch with
      rdStart := s.rdStart, rdDl := s.rdDl } := by
    rw [sentStep]
    simp [called, listening, transmit, firstMatch, hact]
  have no_time_passed : (s.now - s.now).toNat = 0 := by simp
  have call := engineTurn_of_call (s := sentStep s) await hact (no_time_passed ▸ Nat.not_lt_zero _)
    (no_time_passed ▸ Nat.not_lt_zero _)
  have same : readerStart (callSize (sentStep s)) (sentStep s).cfg.readMs (sentStep s)
      = listening s (firstMatch s) s.rxq s.rxf s.ch := by
    rw [sent]
    rfl
  exact engineRun_two (engineTurn_of_sent hf) (engineEnabled_of_sent hf) (same ▸ call)
    (engineEnabled_of_await await hact) m

/-- A query's search starts at AH1. -/
theorem firstMatch_of_query (hop : s.cmd.toNat / 2 ^ 28 = 0x8 ∨ s.cmd.toNat / 2 ^ 28 = 0x9) : firstMatch s = .ah1 := by
  have not_seta : opField s.cmd ≠ 0xA#4 := by
    rw [Ne, opField_eq_iff, show (0xA#4).toNat = 10 from rfl]
    omega
  exact if_neg not_seta

/-! ## One byte of a 1-byte call -/

/-- A byte in a 1-byte call, and the loop top after it: the next call, in the state where the completion leads. -/
theorem engineRun_byte {f g : FsmState} {r' : Vector Byte 7} (hf : f.await = true) (hapay : f ≠ .apay)
    (hg : g.await = true)
    (hdone : readerDone 1#8 (called s f 1#8 1#8 q r b) = called s g 1#8 1#8 q r' b) (m : Nat) :
    engineRun (m + 2) (listening s f (b :: q) r c) = engineRun m (listening s g q r' b) := by
  have one_byte : (listening s f (b :: q) r c).rdN = 1#8 := if_neg hapay
  have ready : readerReady (listening s f (b :: q) r c) = true := readerReady_of_byte rfl
  have taken : oneByteTaken b q (listening s f (b :: q) r c) = called s f 1#8 1#8 q r b := by
    simp only [oneByteTaken, called, one_byte]
    rfl
  have turn := engineTurn_of_oneByteCall (s := listening s f (b :: q) r c) hf hapay rfl one_byte rfl rfl
  rw [taken, hdone] at turn
  exact engineRun_two turn (engineEnabled_of_ready (.inl hf) rfl ready) (engineTurn_called hg _ _)
    (engineEnabled_of_await hg rfl) m

theorem engineRun_ah1_match (hb : b = aField s.cmd) (m : Nat) :
    engineRun (m + 2) (listening s .ah1 (b :: q) r c) = engineRun m (listening s .ah2 q (r.set 0 b) b) :=
  engineRun_byte rfl (by simp) rfl ((readerDone_ah1 rfl 1#8).trans (if_pos ⟨rfl, hb⟩)) m

theorem engineRun_ah1_other (hb : b ≠ aField s.cmd) (m : Nat) :
    engineRun (m + 2) (listening s .ah1 (b :: q) r c) = engineRun m (listening s .ah1 q r b) :=
  engineRun_byte rfl (by simp) rfl ((readerDone_ah1 rfl 1#8).trans (if_neg fun h => hb h.2)) m

theorem engineRun_ah2_match (m : Nat) :
    engineRun (m + 2) (listening s .ah2 (0x03#8 :: q) r c) = engineRun m (listening s .ah3 q (r.set 1 0x03#8) 0x03#8) :=
  engineRun_byte rfl (by simp) rfl ((readerDone_ah2 rfl 1#8).trans (if_pos ⟨rfl, rfl⟩)) m

theorem engineRun_ah2_other (hb : b ≠ 0x03#8) (m : Nat) :
    engineRun (m + 2) (listening s .ah2 (b :: q) r c) = engineRun m (listening s .ah1 q r b) :=
  engineRun_byte rfl (by simp) rfl ((readerDone_ah2 rfl 1#8).trans (if_neg fun h => hb h.2)) m

theorem engineRun_ah3_match (m : Nat) :
    engineRun (m + 2) (listening s .ah3 (0x02#8 :: q) r c) =
      engineRun m (listening s .apay q (r.set 2 0x02#8) 0x02#8) :=
  engineRun_byte rfl (by simp) rfl ((readerDone_ah3 rfl 1#8).trans (if_pos ⟨rfl, rfl⟩)) m

/-- Bytes other than the device address are dropped one by one in AH1 (R84). -/
theorem engineRun_noise (m : Nat) : ∀ (noise : List Byte) (c : Byte), (∀ b ∈ noise, b ≠ aField s.cmd) →
    ∃ d, engineRun (m + 2 * noise.length) (listening s .ah1 (noise ++ q) r c) = engineRun m (listening s .ah1 q r d)
  | [], c, _ => ⟨c, rfl⟩
  | b :: noise, c, h => by
    obtain ⟨d, hrest⟩ := engineRun_noise m noise b fun x hx => h x (List.mem_cons_of_mem _ hx)
    have dropped := engineRun_ah1_other (s := s) (q := noise ++ q) (r := r) (c := c) (h b List.mem_cons_self)
      (m + 2 * noise.length)
    exact ⟨d, dropped.trans hrest⟩

/-! ## The payload and the verify -/

/-- A call of the payload with `k` bytes taken. -/
def paying (s : State) (k : Byte) (q : List Byte) (r : Vector Byte 7) (c : Byte) : State :=
  { listening s .apay q r c with rdCount := k }

theorem engineRun_payload_byte {k : Byte} (hk : k.toNat < 3) (m : Nat) :
    engineRun (m + 1) (paying s k (b :: q) r c)
      = engineRun m (paying s (k + 1#8) q (r.set (3 + k.toNat) b) c) := by
  have turn := payloadPoll (paying s k (b :: q) r c) b q (Nat.lt_succ_of_lt hk) rfl rfl rfl rfl
  have not_last : ¬ k.toNat = 3 := by omega
  have in_time : ¬ s.cfg.readMs.toNat < (s.now - s.now).toNat := by simp
  have goes_on := turn.trans (congrArg _ ((if_neg not_last).trans (if_neg in_time)))
  exact engineRun_succ (engineEnabled_of_ready (.inl rfl) rfl (readerReady_of_byte rfl)) goes_on m

/-- The fourth byte of the payload leads to VERIFY. -/
theorem engineRun_payload_last (m : Nat) :
    engineRun (m + 1) (paying s 3#8 (b :: q) r c) = engineRun m (called s .verify 4#8 4#8 q (r.set 6 b) c) := by
  have turn := payloadPoll (paying s 3#8 (b :: q) r c) b q (by decide : (3#8).toNat < 4) rfl rfl rfl rfl
  have full := turn.trans (congrArg _ (if_pos rfl))
  exact engineRun_succ (engineEnabled_of_ready (.inl rfl) rfl (readerReady_of_byte rfl)) full m

theorem engineRun_payload (b0 b1 b2 b3 : Byte) (m : Nat) :
    engineRun (m + 4) (listening s .apay (b0 :: b1 :: b2 :: b3 :: q) r c)
      = engineRun m (called s .verify 4#8 4#8 q ((((r.set 3 b0).set 4 b1).set 5 b2).set 6 b3) c) :=
  calc engineRun (m + 4) (paying s 0#8 (b0 :: b1 :: b2 :: b3 :: q) r c)
    _ = engineRun (m + 3) (paying s 1#8 (b1 :: b2 :: b3 :: q) (r.set 3 b0) c) :=
      engineRun_payload_byte (k := 0#8) (by decide) (m + 3)
    _ = engineRun (m + 2) (paying s 2#8 (b2 :: b3 :: q) ((r.set 3 b0).set 4 b1) c) :=
      engineRun_payload_byte (k := 1#8) (by decide) (m + 2)
    _ = engineRun (m + 1) (paying s 3#8 (b3 :: q) (((r.set 3 b0).set 4 b1).set 5 b2) c) :=
      engineRun_payload_byte (k := 2#8) (by decide) (m + 1)
    _ = _ := engineRun_payload_last m

/-- The seven bytes of a reply, stored one after the other, are all of RXF. -/
theorem rxf_of_reply (r : Vector Byte 7) (b0 b1 b2 b3 b4 b5 b6 : Byte) :
    ((((((r.set 0 b0).set 1 b1).set 2 b2).set 3 b3).set 4 b4).set 5 b5).set 6 b6 = #v[b0, b1, b2, b3, b4, b5, b6] := by
  ext i hi
  match i, hi with
  | 0, _ | 1, _ | 2, _ | 3, _ | 4, _ | 5, _ | 6, _ => simp

/-- The VERIFY step on a reply with its correct trailer ends the transaction (R85, R89). -/
theorem engineRun_verify {a vh vl low high : Byte} (hr : r = #v[a, 0x03#8, 0x02#8, vh, vl, low, high])
    (hlow : low = lowByte (crc16 [a, 0x03#8, 0x02#8, vh, vl]))
    (hhigh : high = highByte (crc16 [a, 0x03#8, 0x02#8, vh, vl])) (m : Nat) :
    ∃ t, engineRun (m + 1) (called s .verify 4#8 4#8 q r c) = .next t ∧ t.fsm = .success ∧ t.ok = true ∧ t.done = true
      ∧ t.tmo = false ∧ t.rxq = q ∧ t.rxf = r
      ∧ t.result.toNat = (if s.cmd.toNat / 2 ^ 28 = 0x8 then vh.toNat * 256 + vl.toNat else vl.toNat) := by
  let v := called s .verify 4#8 4#8 q r c
  have head : replyHead v = [a, 0x03#8, 0x02#8, vh, vl] := by
    rw [replyHead_eq]
    simp [v, called, listening, hr]
  have trailer : v.rxf[5] = low ∧ v.rxf[6] = high := by simp [v, called, listening, hr]
  have value : (replyValue v).toNat = if s.cmd.toNat / 2 ^ 28 = 0x8 then vh.toNat * 256 + vl.toNat else vl.toNat := by
    rw [replyValue_toNat]
    simp [v, called, listening, hr]
  have good : swap16 (crc16 (replyHead v)) = u16 v.rxf[5] v.rxf[6] := by
    rw [head, trailer.1, trailer.2, swap16_eq_u16_iff]
    exact ⟨hlow, hhigh⟩
  obtain ⟨-, success⟩ | ⟨bad, -⟩ := verifyStep_cases v
  · have turn : engineTurn v = .next (successExit (setCrc (crc16 (replyHead v)) v)) :=
      (engineTurn_of_verify rfl).trans (congrArg _ success)
    have run := engineRun_succ (engineEnabled_of_verify rfl) turn m
    exact ⟨_, run.trans (engineRun_of_disabled (engineEnabled_of_rest rfl) m), rfl, rfl, rfl, rfl, rfl, rfl, value⟩
  · exact absurd good bad

/-! ## The acknowledgment -/

/-- An expected byte of the acknowledgment advances the match (44_address_assigner.md R94). -/
theorem engineRun_ack_match {k : Fin 6} (hk : k.val + 1 < 6) (hb : b = ackExpected s.cmd k) (m : Nat) :
    engineRun (m + 2) (listening s (.ack k) (b :: q) r c)
      = engineRun m (listening s (.ack ⟨k.val + 1, hk⟩) q (r.set k.val b (by omega)) b) :=
  engineRun_byte rfl (by simp) rfl ((readerDone_ack rfl 1#8).trans (ackDone_of_match hb hk)) m

/-- The sixth byte of the acknowledgment enters the prompt (R95). -/
theorem engineRun_ack_last (hb : b = ackExpected s.cmd 5) (m : Nat) :
    engineRun (m + 1) (listening s (.ack 5) (b :: q) r c)
      = engineRun m (pwrcycEntry (called s (.ack 5) 1#8 1#8 q (r.set 5 b) b)) := by
  have turn := (ackByteMatching (listening s (.ack 5) (b :: q) r c) b q 5 rfl rfl rfl rfl rfl).2.2
    (hb.trans (ackExpected_eq_getD s.cmd 5)) rfl
  exact engineRun_succ (engineEnabled_of_ready (.inl rfl) rfl (readerReady_of_byte rfl)) turn m

/-- The acknowledgment of a SETA, byte by byte. -/
theorem engineRun_ack (m : Nat) :
    engineRun (m + 11) (listening s (.ack 0) (aField s.cmd :: 0x10#8 :: 0x10#8 :: 0x00#8 :: 0x00#8 :: 0x01#8 :: q) r c)
      = engineRun m (pwrcycEntry (called s (.ack 5) 1#8 1#8 q
          ((((((r.set 0 (aField s.cmd)).set 1 0x10#8).set 2 0x10#8).set 3 0x00#8).set 4 0x00#8).set 5 0x01#8)
          0x01#8)) :=
  calc engineRun (m + 11) _
    _ = _ := engineRun_ack_match (k := 0) (by decide) rfl (m + 9)
    _ = _ := engineRun_ack_match (k := 1) (by decide) rfl (m + 7)
    _ = _ := engineRun_ack_match (k := 2) (by decide) rfl (m + 5)
    _ = _ := engineRun_ack_match (k := 3) (by decide) rfl (m + 3)
    _ = _ := engineRun_ack_match (k := 4) (by decide) rfl (m + 1)
    _ = _ := engineRun_ack_last rfl m

end

/-! ## The obligations -/

/-- Settles O36: the noise is dropped in AH1, the header and the payload are stored, and the trailer verifies. -/
theorem replyAfterNoiseIsDecoded : Obligations.ReplyAfterNoiseIsDecoded := by
  intro s noise rest vh vl hf hact hop hnoise head hq
  let low := lowByte (crc16 head)
  let high := highByte (crc16 head)
  have queue : s.rxq = noise ++ (aField s.cmd :: 0x03#8 :: 0x02#8 :: vh :: vl :: low :: high :: rest) := by
    simp [hq, head, low, high]
  have fuel : engineFuel s = noise.length + 3 * rest.length + 12 + 1 + 4 + 2 + 2 + 2 + 2 * noise.length + 2 := by
    simp only [engineFuel, queue, List.length_append, List.length_cons]
    omega
  obtain ⟨d, dropped⟩ := engineRun_noise (s := s)
    (q := aField s.cmd :: 0x03#8 :: 0x02#8 :: vh :: vl :: low :: high :: rest) (r := s.rxf)
    (noise.length + 3 * rest.length + 12 + 1 + 4 + 2 + 2 + 2) noise s.ch hnoise
  have stored := rxf_of_reply s.rxf (aField s.cmd) 0x03#8 0x02#8 vh vl low high
  obtain ⟨t, run, success, ok, done, tmo, rxq, rxf, result⟩ := engineRun_verify (s := s) (q := rest) (c := 0x02#8)
    stored rfl rfl (noise.length + 3 * rest.length + 12)
  refine ⟨t, ?_, success, ok, done, tmo, rxq, ?_, result⟩
  · rw [fuel, engineRun_from_sent hf hact, firstMatch_of_query hop, queue, dropped, engineRun_ah1_match rfl,
      engineRun_ah2_match, engineRun_ah3_match, engineRun_payload, run]
  · rw [rxf, stored]
    rfl

/-- Settles O37: the second address byte is dropped in AH2, and the rest in AH1. -/
theorem spuriousAddressByteLosesTheReply : Obligations.SpuriousAddressByteLosesTheReply := by
  intro s tail hf hact hop hthree htail hq
  obtain ⟨d, hnoise⟩ := engineRun_noise (s := s) (q := []) (r := s.rxf.set 0 (aField s.cmd)) (tail.length + 4) tail
    (aField s.cmd) htail
  have fuel : engineFuel s = tail.length + 4 + 2 * tail.length + 2 + 2 + 2 := by
    simp only [engineFuel, hq, List.length_cons]
    omega
  have rests : engineEnabled (listening s .ah1 [] (s.rxf.set 0 (aField s.cmd)) d) = false :=
    engineEnabled_of_open_call (.inl rfl) rfl rfl (readerExpired_of_start rfl)
  refine ⟨listening s .ah1 [] (s.rxf.set 0 (aField s.cmd)) d, ?_, rfl, rfl, rfl, rfl, rests⟩
  rw [List.append_nil] at hnoise
  rw [fuel, engineRun_from_sent hf hact, firstMatch_of_query hop, hq, engineRun_ah1_match rfl,
    engineRun_ah2_other hthree, hnoise, engineRun_of_disabled rests]

/-- Settles O38: the first six bytes of SETA's own frame are the acknowledgment. -/
theorem echoCompletesSeta : Obligations.EchoCompletesSeta := by
  intro s o n hf hact hcmd htxf htxlen hq
  have old : aField s.cmd = o := by rw [hcmd]; exact aField_encodeFields 0xA#4 o _
  have seta : firstMatch s = .ack 0 := if_pos (by rw [hcmd]; exact opField_encodeFields 0xA#4 o _)
  have frame :
      s.txf.toList = aField s.cmd :: 0x10#8 :: 0x10#8 :: 0x00#8 :: 0x00#8 :: 0x01#8 :: s.txf.toList.drop 6 := by
    rw [old, htxf]
    rfl
  have fuel : engineFuel s = 24 + 11 + 2 := by simp [engineFuel, hq]
  have run := engineRun_ack (s := s) (q := s.txf.toList.drop 6) (r := s.rxf) (c := s.ch) 24
  rw [engineRun_of_disabled (engineEnabled_of_pwrcyc (s := pwrcycEntry _) rfl), ← frame, ← hq, ← seta,
    ← engineRun_from_sent hf hact, ← fuel] at run
  exact ⟨_, run, rfl, rfl, rfl, congrArg (List.drop 6) hq⟩

end Sys2Proof.Machine
